-- ==== Sys2Proof/Word.lean ====
section
/-! DEFINITION. The widths of the block's data (00_scope.md R3, R8; 10_state.md R21). -/

namespace Sys2Proof

/-- A register, a command word or a memory address: 32 bits (R21, R52, R110). -/
abbrev Word := BitVec 32

/-- A byte of `MEM`, of the LUT or of a row (R52, R40, R77). -/
abbrev Byte := BitVec 8

/-- A 4-bit grayscale pixel, 0 black to 15 white (R3, R70). -/
abbrev Nibble := BitVec 4

/-- A 2-bit action code (R3, R117). -/
abbrev Code := BitVec 2

end Sys2Proof
end

