-- ==== Sys2Proof/Machine/Bits.lean ====
section
/-! DEFINITION. Bit fields of bytes (00_scope.md R9) and rows of bytes (20_memory.md R77). -/

namespace Sys2Proof.Machine

/-- `hi4(b) = b[7:4]` (R9). -/
def hi4 (b : Byte) : Nibble := b.extractLsb' 4 4

/-- `lo4(b) = b[3:0]` (R9). -/
def lo4 (b : Byte) : Nibble := b.extractLsb' 0 4

/-- `pair(b, i) = b[7-2i : 6-2i]`, pair 0 most significant (R9). -/
def pair (b : Byte) (i : Nat) : Code := b.extractLsb' (6 - 2 * i) 2

/-- The byte with the four pairs, pair 0 most significant (R9, R77). -/
def quad (p0 p1 p2 p3 : Code) : Byte := p0 ++ p1 ++ p2 ++ p3

/-- The nibble of pixel `x` in the FB4 byte that holds it: the left pixel is high (R70). -/
def nibbleOf (b : Byte) (x : Nat) : Nibble := if x % 2 = 0 then hi4 b else lo4 b

/-- Pair `11` where `keep` holds of the column, `00` where not, for the four columns of byte `q` (R77, R221). -/
def pairMask (keep : Nat → Bool) (q : Nat) : Byte :=
  let p (i : Nat) : Code := if keep (4 * q + i) then 0b11#2 else 0b00#2
  quad (p 0) (p 1) (p 2) (p 3)

/-- `n` bytes of `pairMask`. -/
def maskRow (keep : Nat → Bool) (n : Nat) : List Byte := (List.range n).map (pairMask keep)

/-- The byte-wise AND of a row with a mask (R203, R226). -/
def andRow (row mask : List Byte) : List Byte := List.zipWith (· &&& ·) row mask

/-- The list of the values, if every one is there. -/
def allSome {α : Type} : List (Option α) → Option (List α)
  | [] => some []
  | none :: _ => none
  | some x :: rest => (allSome rest).map (x :: ·)

end Sys2Proof.Machine
end

