-- ==== Sys2Proof/Config.lean ====
section
/-! DEFINITION. The parameters of the model (00_scope.md R7) and its one free value (93 U16). -/

namespace Sys2Proof

/-- The parameters of R7. They are carried in the machine's state as a field that no step writes, so that a
statement about every state is a statement about every choice of parameters (log 1). -/
structure Config where
  /-- `W`, the display width in pixels. -/
  width : Nat
  /-- `H`, the display height in rows. -/
  height : Nat
  /-- `QCAP`, the slots of one Line Queue. -/
  qcap : Nat
  /-- `CODE_PUSH_BLACK` (R117). -/
  codePushBlack : Code
  /-- `CODE_PUSH_WHITE` (R117). -/
  codePushWhite : Code
  /-- `BUS_GROUP`, bytes per group of the bus-order pass (R79). -/
  busGroup : Nat
  /-- `BUS_PERM`, entry `i` is `BUS_PERM[i]` (R79). -/
  busPerm : List Nat
  /-- `CDC_LAG` (R95, R96). -/
  cdcLag : Bool
  /-- `RE_BASE`, the address of the register space (R7, R21). -/
  reBase : Word
  /-- The ranges (base, length) of `MEM` that the platform populates (R88; log 4). -/
  populated : List (Nat × Nat)
  deriving DecidableEq, Repr

/-- The least integer not below `a / b` (R9). -/
abbrev ceilDiv (a b : Nat) : Nat := (a + (b - 1)) / b

/-- `LINE_BYTES = ceil(W / 4)` (R7). -/
abbrev Config.lineBytes (c : Config) : Nat := ceilDiv c.width 4

/-- The number of bytes of `DIRTY_COLS`, and the stride of the two FB4 images of `DIFF`:
`ceil(W / 2)` (R42, R180). -/
abbrev Config.colBytes (c : Config) : Nat := ceilDiv c.width 2

/-- What R7 requires of the parameters; the upper bound of `qcap` is R45's (log 2). -/
abbrev Config.Valid (c : Config) : Prop :=
  (1 ≤ c.width ∧ c.width ≤ 65535) ∧ (1 ≤ c.height ∧ c.height ≤ 65535) ∧
  (2 ≤ c.qcap ∧ c.qcap ≤ 512) ∧
  ((c.codePushBlack = 0b01#2 ∧ c.codePushWhite = 0b10#2) ∨
    (c.codePushBlack = 0b10#2 ∧ c.codePushWhite = 0b01#2)) ∧
  (c.busGroup = 1 ∨ c.busGroup = 2 ∨ c.busGroup = 4) ∧ c.lineBytes % c.busGroup = 0 ∧
  c.busPerm.Perm (List.range c.busGroup) ∧
  c.reBase.toNat % 4 = 0 ∧
  (∀ r ∈ c.populated, r.1 + r.2 ≤ 2 ^ 32)

/-- The parameters of `State.reset`. The spec gives the defaults of the codes, of the bus order and of
`CDC_LAG` (R7); the display of 8 by 2, the capacity 4, `RE_BASE` 0 and a fully populated `MEM` are
DESIGN CHOICE (log 1, log 4), unsafe for a claim about `State.reset` alone. -/
def Config.default : Config where
  width := 8
  height := 2
  qcap := 4
  codePushBlack := 0b01#2
  codePushWhite := 0b10#2
  busGroup := 1
  busPerm := [0]
  cdcLag := false
  reBase := 0#32
  populated := [(0, 4294967296)]

/-- FREE VALUE (log 16): a byte the spec calls "any value" (93 U16), the `n`-th drawn. It has no body a
proof can see. -/
opaque Config.freeByte : Nat → Byte

end Sys2Proof
end

