-- ==== Sys2Proof/Syntax.lean ====
section
/-! DEFINITION. The operations (30_encoding.md R112), one constructor per row of spec/opcode_table.json. -/

namespace Sys2Proof

/-- The 26 operations of R112. The `unit` of a format-U operation is the 8-bit field `UNIT`, a queue or lane
number (R110); `f` is the static from colour of `ARG[3:0]`, `fw` the bit `ARG[0]` (R112, R115). -/
inductive Instr where
  | nop
  | lb1p64k
  | lb1p1k
  | lb2p64k (f : Nibble)
  | lb2p1k (f : Nibble)
  | lb8p (fw : Bool)
  | lbAuto
  | pl1p64k
  | pl1p1k
  | pl2p64k
  | pl2p1k
  | pl8p
  | plAuto
  | diff
  | lqCurrent (unit : BitVec 8)
  | lqWrite (unit : BitVec 8)
  | lqCommit (unit : BitVec 8)
  | lqRead (unit : BitVec 8)
  | lqReset (unit : BitVec 8)
  | fetch (unit : BitVec 8)
  | feed
  | maskBuild
  | updStart
  | prep
  | frameDone
  | updAck
  deriving DecidableEq, Repr

/-- Why a command word is reserved (R119). -/
inductive Reserved where
  /-- an `OPC` not in the table of R112 -/
  | unknownOpcode
  /-- a non-zero `UNIT` in format N or A -/
  | unitNotZero
  /-- a non-zero `ARG` in format N or U, or non-zero unused `ARG` bits in format A -/
  | argNotZero
  /-- `UNIT >= NLANES` in format U -/
  | unitOutOfRange
  deriving DecidableEq, Repr

end Sys2Proof
end

