-- ==== Sys2Proof/Machine/State.lean ====
section
/-! DEFINITION. The state of the block (10_state.md), its reset value (R54, R290), and the reasons a step stops. -/

namespace Sys2Proof.Machine

/-- A lane, and the Line Queue of that lane (R7, R273). -/
inductive Lane where
  | zero
  | one
  deriving DecidableEq, Repr

/-- A command port, and the agent that issues on it (R12, R36). -/
inductive Port where
  | host
  | lane0
  | lane1
  | feeder
  deriving DecidableEq, Repr

/-- `STATUS.SEQ`, the sequencer state (R31, R232). -/
inductive Seq where
  | idle
  | preparing
  | transmitting
  | done
  deriving DecidableEq, Repr

/-- A drive-bus row: `LINE_BYTES` bytes in ROW format (R77). -/
abbrev Row := List Byte

/-- Bytes by index, addresses strictly rising; what an unlisted index means is its user's (memory reads 0x00,
the LUT was never written). -/
abbrev Cells := List Host.Cell

/-- The 19 operand registers (R22). -/
structure Operands where
  srcTo : Word
  srcFrom : Word
  dstDiff : Word
  lineIn : Word
  lineOut : Word
  wfBase : Word
  areaX : Word
  areaY : Word
  areaW : Word
  areaH : Word
  cropX : Word
  cropY : Word
  cropW : Word
  cropH : Word
  dcropX : Word
  dcropY : Word
  dcropW : Word
  dcropH : Word
  width : Word
  deriving DecidableEq, Repr

/-- One Line Queue (R32, R45, R49). -/
structure Queue where
  /-- `Qq_CUR`, the producer index (R32). -/
  cur : Nat
  /-- `Qq_LAST`, the consumer index (R32). -/
  last : Nat
  /-- `CUR_VIEW[q]`, what the bus domain sees of `Qq_CUR` when `CDC_LAG` (R49). -/
  curView : Nat
  /-- `LAST_VIEW[q]`, what the render domain sees of `Qq_LAST` when `CDC_LAG` (R49). -/
  lastView : Nat
  /-- `SLOT[q][s]`, `QCAP` rows; `none` is a slot never written since reset (R45, R54). A slot is only ever
  written as a whole row, so "never written" is a property of the slot. -/
  slots : List (Option Row)
  /-- MODEL's own (log 15): the port that has issued `LQ.WRITE`, `LQ.COMMIT` or `FETCH` on this queue since its
  last reset (R307). -/
  producer : Option Port
  /-- MODEL's own (log 15): the port that has issued `LQ.READ` or `FEED` on this queue since its last reset
  (R307). -/
  consumer : Option Port
  /-- MODEL's own (log 22): `LQ.WRITE` has filled the current slot and no `LQ.COMMIT` has followed, so that a
  stand-alone producer is in mid-sequence (R304(c)). -/
  midSequence : Bool
  deriving DecidableEq, Repr

/-- What each lane has of its own (R273). -/
structure LaneState where
  /-- `LANE_ROWl`, the row claimed and not yet committed (R35); once `LANE_BUSYl` is 0, the row claimed last (log 28). -/
  row : Nat
  /-- `STATUS.LANE_BUSYl` (R31). -/
  busy : Bool
  /-- `STATUS.LANE_DONEl` (R31). -/
  done : Bool
  /-- `RES_LANEl` (R23). -/
  res : Word
  /-- The lane's Line Queue. -/
  queue : Queue
  deriving DecidableEq, Repr

/-- One record of `BUS_OUT` (R53). -/
structure BusRecord where
  phase : Word
  row : Nat
  starved : Bool
  bytes : Row
  deriving DecidableEq, Repr

/-- MODEL's own (log 5): one step of an agent or of the platform, as an input of the machine. -/
inductive Event where
  /-- a register-port write of `bytes` bytes at `addr`; at a command port it issues an operation (R36, R113) -/
  | portWrite (addr : Word) (bytes : Nat) (data : Word)
  /-- a register-port read (R113) -/
  | portRead (addr : Word) (bytes : Nat)
  /-- lane `l` is scheduled for the produce step of its `FETCH` (R226) -/
  | produce (l : Lane)
  /-- `SYNC` refreshes `CUR_VIEW[q]` (R96) -/
  | syncCur (q : Lane)
  /-- `SYNC` refreshes `LAST_VIEW[q]` (R96) -/
  | syncLast (q : Lane)
  /-- the platform stores a byte in `MEM` (R52) -/
  | memStore (addr : Word) (b : Byte)
  /-- the reset input (R290) -/
  | reset
  deriving DecidableEq, Repr

/-- The state: everything 10_state.md gives the block (R20), the memory and the trace beside it (R52, R53), the
parameters (R7), and the model's own fields, marked so. -/
structure State where
  /-- The parameters (R7); no step writes them (R291; log 1). -/
  cfg : Config
  operands : Operands
  /-- `MODE` (R24). -/
  mode : Word
  /-- `CTRL` (R25). -/
  ctrl : Word
  /-- `PHASE` (R26). -/
  phase : Word
  /-- `PHASE_COUNT` (R27). -/
  phaseCount : Word
  /-- `LINE_NEXT` (R28). -/
  lineNext : Nat
  /-- `LINES_CONSUMED` (R29). -/
  linesConsumed : Nat
  /-- `ERROR` (R30, R261). -/
  error : Word
  /-- `STATUS.SEQ` (R31). -/
  seq : Seq
  /-- `STATUS.FDONE` (R31). -/
  fdone : Bool
  lane0 : LaneState
  lane1 : LaneState
  /-- `RECT_X` (R33). -/
  rectX : Word
  /-- `RECT_Y` (R33). -/
  rectY : Word
  /-- `RECT_W` (R33). -/
  rectW : Word
  /-- `RECT_H` (R33). -/
  rectH : Word
  /-- `UNIF.PREV_WHITE_F` (R34). -/
  prevWhiteF : Bool
  /-- `UNIF.PREV_BLACK_F` (R34). -/
  prevBlackF : Bool
  /-- `RES_HOST` (R23). -/
  resHost : Word
  /-- `RES_FEEDER` (R23). -/
  resFeeder : Word
  /-- `LUT`, the bytes written since reset (R40). -/
  lut : Cells
  /-- `DIRTY_LINES` (R41). -/
  dirtyLines : List Bool
  /-- `DIRTY_COLS` (R42). -/
  dirtyCols : List Byte
  /-- `LINE_THREADS`; `none` is an entry never written since reset (R43, R54). -/
  lineThreads : List (Option Lane)
  /-- `MASK` (R44). -/
  mask : List Byte
  /-- `BUS_OUT` (R53). -/
  busOut : List BusRecord
  /-- `MEM` (R52); an unlisted byte reads 0x00 (log 3). -/
  mem : Cells
  /-- MODEL's own (log 20): the port whose command is being executed, the `a` of `RES(a)` (R10). -/
  issuer : Port
  /-- MODEL's own (log 5): what the agents and the platform do next, in order. -/
  inbox : List Event
  /-- MODEL's own (log 20): the word the last register-port read returned. -/
  readData : Word
  /-- MODEL's own (log 16): how many free values have been drawn. -/
  freeIdx : Nat
  deriving DecidableEq, Repr

/-- Why the machine stops with a fault: the reads R264 gives the treatment "fault". -/
inductive Fault where
  /-- Raised by a lookup (`PL.*`, the produce step of `FETCH`) and by a host window read, on a `LUT` byte never
  written since reset (R40, R264). Safe: the spec gives the byte no value. -/
  | lutUnwritten
  /-- Raised by `LQ.COMMIT`, `LQ.READ`, `FEED` and by a host window read, on a slot never written since reset
  (R45, R264). Safe: the spec gives the bytes no value. -/
  | slotUnwritten
  /-- Raised by a host window read of a `LINE_THREADS` entry never written since reset (R43, R264), and by
  `FEED` in states no run reaches (R228). Safe: the spec gives the entry no value. -/
  | lineThreadUnwritten
  deriving DecidableEq, Repr

/-- Why a step has no meaning: the situations R264 gives the treatment "refuse". Each is safe: nothing can be
proved past it. -/
inductive Refusal where
  /-- Raised by `exec` for an operation the model does not cover yet; none is left. Safe. -/
  | notModelled (mnemonic : String)
  /-- Raised on a reserved command word (R119). Safe. -/
  | reservedCommand (why : Reserved)
  /-- Raised by every operation issued on a port R120 does not allow it. Safe. -/
  | portNotAllowed
  /-- Raised by every operation issued in a sequencer state R120 does not allow it. Safe. -/
  | seqNotAllowed
  /-- Raised by a command to a lane whose `FETCH` is in progress (R224). Safe. -/
  | laneBusy
  /-- Raised by a waveform build with `PHASE >= PHASE_COUNT` (R140). Safe. -/
  | phaseOutOfRange
  /-- Raised by `LQ.COMMIT` on a full queue (R203). Safe. -/
  | commitOnFull
  /-- Raised by `FRAME.DONE` with `LINES_CONSUMED < H` (R239). Safe. -/
  | frameNotDelivered
  /-- Raised by `FRAME.DONE` with `FDONE = 1` (R239). Safe. -/
  | frameAlreadyDone
  /-- Raised by a write to an RW(idle) register or window while the sequencer is in `PREPARING` or
  `TRANSMITTING` (R21, R305). Safe. -/
  | registerLocked
  /-- Raised by a register-port access that is not an aligned 32-bit word (R80; log 9). Safe. -/
  | badAccess
  /-- Raised by an operation whose buffers overlap (R87; log 13). Safe. -/
  | bufferOverlap
  /-- Raised by an operation whose buffers leave the 32-bit address space (R88). Safe. -/
  | bufferOutOfRange
  /-- Raised by an operation whose buffers touch memory the platform does not populate (R88), and by a platform
  store there. Safe. -/
  | unpopulated
  /-- Raised by a second producer on one queue between two resets of it (R307). Safe. -/
  | twoProducers
  /-- Raised by a second consumer on one queue between two resets of it (R307). Safe. -/
  | twoConsumers
  /-- Raised by `LQ.RESET` of a queue whose stand-alone producer is in mid-sequence (R304(c); log 22). Safe. -/
  | queueInUse
  /-- Raised by `PREP` and the produce step when `Select` fails, which `UPD.START` excludes in every reachable
  state (R229, R236; log 18). Safe. -/
  | noLayout
  deriving DecidableEq, Repr

/-- Both views and both indices 0, no slot written (R54). -/
def Queue.reset (c : Config) : Queue where
  cur := 0
  last := 0
  curView := 0
  lastView := 0
  slots := List.replicate c.qcap none
  producer := none
  consumer := none
  midSequence := false

/-- A lane after reset (R54). -/
def LaneState.reset (c : Config) : LaneState where
  row := 0
  busy := false
  done := false
  res := 0#32
  queue := Queue.reset c

/-- All 19 operand registers 0 (R22, R54). -/
def Operands.reset : Operands where
  srcTo := 0#32
  srcFrom := 0#32
  dstDiff := 0#32
  lineIn := 0#32
  lineOut := 0#32
  wfBase := 0#32
  areaX := 0#32
  areaY := 0#32
  areaW := 0#32
  areaH := 0#32
  cropX := 0#32
  cropY := 0#32
  cropW := 0#32
  cropH := 0#32
  dcropX := 0#32
  dcropY := 0#32
  dcropW := 0#32
  dcropH := 0#32
  width := 0#32

/-- The state after reset with the parameters `c` and the memory `m` (R54, R290, R291). The model's own
fields start as logs 5, 15, 16, 20 and 22 say. -/
def State.resetWith (c : Config) (m : Cells) : State where
  cfg := c
  operands := Operands.reset
  mode := 0#32
  ctrl := 0#32
  phase := 0#32
  phaseCount := 0#32
  lineNext := 0
  linesConsumed := 0
  error := 0#32
  seq := .idle
  fdone := false
  lane0 := LaneState.reset c
  lane1 := LaneState.reset c
  rectX := 0#32
  rectY := 0#32
  rectW := 0#32
  rectH := 0#32
  prevWhiteF := false
  prevBlackF := false
  resHost := 0#32
  resFeeder := 0#32
  lut := []
  dirtyLines := List.replicate c.height false
  dirtyCols := List.replicate c.colBytes 0#8
  lineThreads := List.replicate c.height none
  mask := List.replicate c.lineBytes 0xFF#8
  busOut := []
  mem := m
  issuer := .host
  inbox := []
  readData := 0#32
  freeIdx := 0

/-- The machine right after reset, with the parameters of log 1 and a memory nothing has written (log 3). -/
def State.reset : State := State.resetWith Config.default []

end Sys2Proof.Machine
end

