-- ==== Sys2Proof/Machine/Ops.lean ====
section
/-! DEFINITION. The named operations over memory, registers, queues and the sequencer that the meanings share. -/

namespace Sys2Proof.Machine

/-- What an operation answers. -/
abbrev Out := Host.Outcome State Fault Refusal

/-! ### Conditions of an operation -/

/-- Go on if the condition holds, else the operation is refused (R10 "refuse"). -/
def require (c : Bool) (r : Refusal) (k : Out) : Out := if c then k else .refused r

/-- Go on unless there is a reason to refuse. -/
def unlessRefused (r : Option Refusal) (k : Out) : Out :=
  match r with
  | none => k
  | some e => .refused e

/-- Go on with the value, or fault where the array element was never written (R264). -/
def need {α : Type} (o : Option α) (f : Fault) (k : α → Out) : Out :=
  match o with
  | none => .fault f
  | some x => k x

/-! ### Bytes by index -/

/-- The byte listed at an index. -/
def cellGet (m : Cells) (a : Nat) : Option Byte :=
  match m with
  | [] => none
  | (k, b) :: rest => if k = a then some b else cellGet rest a

/-- List a byte at an index, keeping the indices rising. -/
def cellPut (m : Cells) (a : Nat) (b : Byte) : Cells :=
  match m with
  | [] => [(a, b)]
  | (k, c) :: rest =>
    if a < k then (a, b) :: (k, c) :: rest
    else if a = k then (a, b) :: rest
    else (k, c) :: cellPut rest a b

/-- List nothing at an index. -/
def cellDrop (m : Cells) (a : Nat) : Cells := m.filter (fun c => c.1 != a)

/-! ### `MEM` (R52) -/

/-- What a byte of `MEM` that is not listed reads as: DESIGN CHOICE (log 3). -/
def memUnlisted : Byte := 0x00#8

/-- `MemRead(a, 1)` (R10). -/
def memRead (m : Cells) (a : Nat) : Byte := (cellGet m a).getD memUnlisted

/-- `MemWrite(a, 1, b)` (R10), keeping the canonical form. -/
def memWrite (m : Cells) (a : Nat) (b : Byte) : Cells :=
  if b = memUnlisted then cellDrop m a else cellPut m a b

/-- `MemRead(a, n)`: the bytes in address order (R10). -/
def memReadRun (m : Cells) (a n : Nat) : List Byte := (List.range n).map (fun i => memRead m (a + i))

/-- `MemWrite(a, n, bs)` (R10). -/
def memWriteRun (m : Cells) (a : Nat) (bs : List Byte) : Cells :=
  match bs with
  | [] => m
  | b :: rest => memWriteRun (memWrite m a b) (a + 1) rest

/-- `PixRead(b, s, x, y)` (R72). -/
def pixRead (m : Cells) (b s x y : Nat) : Nibble := nibbleOf (memRead m (b + y * s + x / 2)) x

/-- `PixWrite(b, s, x, y, v)`, the host's accessor; no operation calls it (R72). -/
def pixWrite (m : Cells) (b s x y : Nat) (v : Nibble) : Cells :=
  let a := b + y * s + x / 2
  let old := memRead m a
  memWrite m a (if x % 2 = 0 then v ++ lo4 old else hi4 old ++ v)

/-- `MonoRead(b, s, x, y)` (R229). -/
def monoRead (m : Cells) (b s x y : Nat) : Bool := (memRead m (b + y * s + x / 8)).getLsbD (7 - x % 8)

/-- The canonical form of `MEM`: addresses strictly rising and inside 32 bits, no byte equal to an unlisted
one. -/
abbrev Memory.wf (m : Cells) : Prop :=
  (m.map Prod.fst).Pairwise (· < ·) ∧ ∀ c ∈ m, c.2 ≠ memUnlisted ∧ c.1 < 2 ^ 32

/-! ### Buffers of an operation in `MEM` -/

/-- A run of bytes in `MEM`. -/
structure Span where
  base : Nat
  len : Nat
  deriving DecidableEq, Repr

/-- The run holds the address. -/
def spanHas (p : Span) (a : Nat) : Bool := decide (p.base ≤ a) && decide (a < p.base + p.len)

/-- Two runs have a byte in common. -/
def spansOverlap (p q : Span) : Bool :=
  decide (0 < p.len) && decide (0 < q.len) && decide (p.base < q.base + q.len) &&
    decide (q.base < p.base + p.len)

/-- The run lies in the 32-bit address space (R88). -/
def spanInRange (p : Span) : Bool := decide (p.len = 0) || decide (p.base + p.len ≤ 2 ^ 32)

/-- The platform populates the run: from `base` on, range by range (R88; log 4). `fuel` bounds the number of
ranges it may take. -/
def coveredFrom (ranges : List (Nat × Nat)) (fuel base stop : Nat) : Bool :=
  match fuel with
  | 0 => decide (stop ≤ base)
  | n + 1 =>
    decide (stop ≤ base) ||
      (match ranges.find? (fun r => decide (r.1 ≤ base) && decide (base < r.1 + r.2)) with
       | none => false
       | some r => coveredFrom ranges n (r.1 + r.2) stop)

/-- Every byte of the run is populated (R88). -/
def spanPopulated (c : Config) (p : Span) : Bool :=
  coveredFrom c.populated c.populated.length p.base (p.base + p.len)

/-- The bytes of the selected waveform: `64 * PHASE_COUNT` from `WF_BASE` (R75). -/
def waveformSpan (s : State) : Span := { base := s.operands.wfBase.toNat, len := 64 * s.phaseCount.toNat }

/-- Why an operation that reads the runs `reads` and writes the runs `writes` is not admitted: a byte beyond
`2^32 - 1`, or one not populated (R88). -/
def bufferRefusal (s : State) (reads writes : List Span) : Option Refusal :=
  if (reads ++ writes).all spanInRange then
    if (reads ++ writes).all (spanPopulated s.cfg) then none else some .unpopulated
  else some .bufferOutOfRange

/-- Why an operation with input and output buffers is not admitted: R88 as above, or an output buffer overlapping
an input buffer, or a buffer overlapping the waveform bytes (R87; log 13). Two input buffers may overlap
(95 S2). -/
def twoBufferRefusal (s : State) (reads writes : List Span) : Option Refusal :=
  if writes.any (fun w => reads.any (spansOverlap w)) ||
      (reads ++ writes).any (spansOverlap (waveformSpan s)) then some .bufferOverlap
  else bufferRefusal s reads writes

/-! ### The `LUT` (R40) -/

/-- `LUT[i]`; `none` where it was never written since reset. -/
def lutRead (lut : Cells) (i : Nat) : Option Byte := cellGet lut i

/-- The bytes `f 0 .. f (size-1)` listed at their indices; `n` counts down what is left. -/
def lutTable (size : Nat) (f : Nat → Byte) : Nat → Cells
  | 0 => []
  | n + 1 => (size - (n + 1), f (size - (n + 1))) :: lutTable size f n

/-- `LUT[i] <- f i` for `i < size`; the rest is unchanged (R40). -/
def lutLoad (lut : Cells) (size : Nat) (f : Nat → Byte) : Cells :=
  lutTable size f size ++ lut.filter (fun c => decide (size ≤ c.1))

/-- The canonical form of the `LUT`: indices strictly rising and below 65536. -/
abbrev Lut.wf (lut : Cells) : Prop :=
  (lut.map Prod.fst).Pairwise (· < ·) ∧ ∀ c ∈ lut, c.1 < 65536

/-! ### Lanes and result registers -/

/-- The lane a unit number names; `none` from `NLANES` on (R110). -/
def laneOf (unit : BitVec 8) : Option Lane :=
  if unit = 0#8 then some .zero else if unit = 1#8 then some .one else none

/-- The number of a lane. -/
def laneNum : Lane → Nat
  | .zero => 0
  | .one => 1

/-- The unit number of a lane. -/
def laneUnit : Lane → BitVec 8
  | .zero => 0#8
  | .one => 1#8

/-- The lane's own port (R36). -/
def lanePort : Lane → Port
  | .zero => .lane0
  | .one => .lane1

/-- The lane's state. -/
def getLane (l : Lane) (s : State) : LaneState :=
  match l with
  | .zero => s.lane0
  | .one => s.lane1

/-- Write the lane's state. -/
def setLane (l : Lane) (x : LaneState) (s : State) : State :=
  match l with
  | .zero => { s with lane0 := x }
  | .one => { s with lane1 := x }

/-- Queue `q`. -/
def getQueue (q : Lane) (s : State) : Queue := (getLane q s).queue

/-- Write queue `q`. -/
def setQueue (q : Lane) (x : Queue) (s : State) : State := setLane q { getLane q s with queue := x } s

/-- `RES(p)` (R23). -/
def getRes (p : Port) (s : State) : Word :=
  match p with
  | .host => s.resHost
  | .lane0 => s.lane0.res
  | .lane1 => s.lane1.res
  | .feeder => s.resFeeder

/-- `RES(p) <- v` (R10, R23). -/
def setRes (p : Port) (v : Word) (s : State) : State :=
  match p with
  | .host => { s with resHost := v }
  | .lane0 => { s with lane0 := { s.lane0 with res := v } }
  | .lane1 => { s with lane1 := { s.lane1 with res := v } }
  | .feeder => { s with resFeeder := v }

/-- `RES(a) <- v` for the agent `a` that issued the operation (R10). -/
def result (v : Word) (s : State) : State := setRes s.issuer v s

/-! ### Who may issue what, and when (R120) -/

/-- The issuing port is a lane whose `FETCH` is in progress (R224). -/
def issuerHeld (s : State) : Bool :=
  match s.issuer with
  | .lane0 => s.lane0.busy
  | .lane1 => s.lane1.busy
  | _ => false

/-- Go on where the port may issue the operation and its `FETCH` is not in progress (R120, R224, R266(a)). -/
def onPorts (ports : List Port) (s : State) (k : Out) : Out :=
  require (ports.contains s.issuer) .portNotAllowed (require (!issuerHeld s) .laneBusy k)

/-- Go on where moreover the sequencer is in the state the operation needs (R120). -/
def allowed (ports : List Port) (seq : Seq) (s : State) (k : Out) : Out :=
  onPorts ports s (require (s.seq == seq) .seqNotAllowed k)

/-- Go on with the lane a unit number names; `UNIT >= NLANES` is a reserved word (R119). -/
def withUnit (unit : BitVec 8) (k : Lane → Out) : Out :=
  match laneOf unit with
  | some l => k l
  | none => .refused (.reservedCommand .unitOutOfRange)

/-! ### Errors (R260 to R267): the block's only exceptional event, a sticky flag -/

/-- `ERROR <- ERROR | v`: what "taking an error" is in this block; nothing is saved and control goes nowhere
(R262, R267). There is no return from it (R268). -/
def flagError (v : Word) (s : State) : State := { s with error := s.error ||| v }

/-! ### One producer and one consumer per queue (R307; log 15) -/

/-- The issuing port becomes queue `q`'s producer, unless another port is. -/
def asProducer (q : Lane) (s : State) (k : State → Out) : Out :=
  match (getQueue q s).producer with
  | none => k (setQueue q { getQueue q s with producer := some s.issuer } s)
  | some p => require (p == s.issuer) .twoProducers (k s)

/-- The issuing port becomes queue `q`'s consumer, unless another port is. -/
def asConsumer (q : Lane) (s : State) (k : State → Out) : Out :=
  match (getQueue q s).consumer with
  | none => k (setQueue q { getQueue q s with consumer := some s.issuer } s)
  | some p => require (p == s.issuer) .twoConsumers (k s)

/-! ### Line Queue actions (44_line_queue.md) -/

/-- The next index round the ring (R211). -/
def nextIndex (c : Config) (i : Nat) : Nat := (i + 1) % c.qcap

/-- `SLOT[q][s]`; `none` where never written. -/
def slotRead (x : Queue) (i : Nat) : Option Row := (x.slots[i]?).join

/-- `SLOT[q][Qq_CUR] <- row`: the producer writes only at `current` (R90). -/
def putCurrent (row : Row) (x : Queue) : Queue := { x with slots := x.slots.set x.cur (some row) }

/-- `Qq_CUR <- (Qq_CUR + 1) mod QCAP` (R203). -/
def advanceCur (c : Config) (x : Queue) : Queue := { x with cur := nextIndex c x.cur }

/-- `Qq_LAST <- (Qq_LAST + 1) mod QCAP` (R204). -/
def advanceLast (c : Config) (x : Queue) : Queue := { x with last := nextIndex c x.last }

/-- Both indices and both views 0, slots not cleared (R205); whoever produces or consumes next may (R307). -/
def emptyQueue (x : Queue) : Queue :=
  { x with
    cur := 0, last := 0, curView := 0, lastView := 0, producer := none, consumer := none, midSequence := false }

/-! ### The phase advance (R240) -/

/-- `TryAdvance()`: the state after it, and the value it returns. -/
def tryAdvance (s : State) : State × Word :=
  if s.seq = .transmitting ∧ s.fdone = true ∧ s.lane0.done = true ∧ s.lane1.done = true then
    if s.error ≠ 0#32 then ({ s with seq := .done }, 2#32)
    else if s.phase.toNat + 1 < s.phaseCount.toNat then
      ({ s with phase := s.phase + 1#32, seq := .preparing }, 1#32)
    else ({ s with seq := .done }, 2#32)
  else (s, 0#32)

end Sys2Proof.Machine
end

