-- ==== Sys2Proof/Machine/Flags.lean ====
section
/-! DEFINITION. The flags of 10_state.md R39: error bits, uniformity, dirty rows and columns, full and empty. -/

namespace Sys2Proof.Machine

/-! ### `ERROR` bits (R261) -/

/-- bit 0 -/
def errInvalidPackingMode : Word := 0x001#32
/-- bit 1 -/
def errLookupNotImplemented : Word := 0x002#32
/-- bit 6 -/
def errInvalidCrop : Word := 0x040#32
/-- bit 7; set by a host write only (R234) -/
def errModeNotFound : Word := 0x080#32
/-- bit 8; set by a host write only (R234) -/
def errNoPhasesAvailable : Word := 0x100#32
/-- bit 10 -/
def errEmptyLineQueue : Word := 0x400#32

/-- The six bits: what a write of the register port can set (R262). -/
def errWritable : Word :=
  errInvalidPackingMode ||| errLookupNotImplemented ||| errInvalidCrop ||| errModeNotFound |||
    errNoPhasesAvailable ||| errEmptyLineQueue

/-! ### Full and empty (R200) -/

/-- `LastSeen(q)`: what the producer side sees of `Qq_LAST` (R96, R200). -/
def lastSeen (c : Config) (x : Queue) : Nat := if c.cdcLag then x.lastView else x.last

/-- `CurSeen(q)`: what the consumer side sees of `Qq_CUR` (R96, R200). -/
def curSeen (c : Config) (x : Queue) : Nat := if c.cdcLag then x.curView else x.cur

/-- `Full(q)` (R200). -/
def queueFull (c : Config) (x : Queue) : Bool := (x.cur + 1) % c.qcap == lastSeen c x

/-- `Empty(q)` (R200). -/
def queueEmpty (c : Config) (x : Queue) : Bool := curSeen c x == x.last

/-- `Count(q)`: committed rows not yet read (R200). -/
def queueCount (c : Config) (x : Queue) : Nat := (x.cur + c.qcap - x.last) % c.qcap

/-! ### Dirty rows and columns (R41, R42, R186) -/

/-- `DIRTY_LINES[y] = 1`. -/
def lineDirty (lines : List Bool) (y : Nat) : Bool := lines.getD y false

/-- `colDirty(x)`: the column's nibble is not zero (R186). -/
def colDirty (cols : List Byte) (x : Nat) : Bool := nibbleOf (cols.getD (x / 2) 0#8) x != 0#4

/-- `CTRL.DIRTY_EN` (R25). -/
def dirtyEn (s : State) : Bool := s.ctrl.getLsbD 2

/-- `BuildMask()`: `MASK` from the dirty columns (R221). -/
def buildMask (s : State) : List Byte :=
  if dirtyEn s then
    maskRow (fun x => decide (x < s.cfg.width) && colDirty s.dirtyCols x) s.cfg.lineBytes
  else List.replicate s.cfg.lineBytes 0xFF#8

/-! ### Uniformity (R185) -/

/-- `previously_white`: the AND over the `from` nibbles is 0xF. -/
def allWhite (froms : List Nibble) : Bool := froms.foldl (· &&& ·) 0xF#4 == 0xF#4

/-- `previously_black`: the OR over the `from` nibbles is 0x0. -/
def allBlack (froms : List Nibble) : Bool := froms.foldl (· ||| ·) 0x0#4 == 0x0#4

end Sys2Proof.Machine
end

