-- ==== Sys2Proof/Machine/Operands.lean ====
section
/-! DEFINITION. Operand assembly: layout selection (41 R141), crops and the geometry of an update (43 R182,
45 R222), and the bytes an operation reaches (20 R84). -/

namespace Sys2Proof.Machine

/-! ### Layouts (R116, R141) -/

/-- An input packing (R3, R8). -/
inductive Packing where
  /-- 1 pixel per byte, DIFF1 (R73) -/
  | diff1
  /-- 2 pixels per byte, FB4 (R70) -/
  | fb4
  /-- 8 pixels per byte, MONO8 (R74) -/
  | mono8
  deriving DecidableEq, Repr

/-- A LUT layout with its static colour (R116). -/
inductive Layout where
  | l1p64k
  | l1p1k
  | l2p64k (f : Nibble)
  | l2p1k (f : Nibble)
  | l8p (fw : Bool)
  deriving DecidableEq, Repr

/-- The packing of a layout's input line (R161). -/
def layoutPacking : Layout → Packing
  | .l1p64k => .diff1
  | .l1p1k => .diff1
  | .l2p64k _ => .fb4
  | .l2p1k _ => .fb4
  | .l8p _ => .mono8

/-- How many bytes of the `LUT` a layout occupies (R40, R143 to R151). -/
def layoutSize : Layout → Nat
  | .l1p64k => 65536
  | .l1p1k => 1024
  | .l2p64k _ => 65536
  | .l2p1k _ => 1024
  | .l8p _ => 256

/-- The layout is built from a waveform phase (R140); only the monochrome tables are not (R150). -/
def layoutUsesWaveform : Layout → Bool
  | .l8p _ => false
  | _ => true

/-- `MODE.PACK_8PPB` (R24). -/
def pack8 (mode : Word) : Bool := mode.getLsbD 6
/-- `MODE.PACK_2PPB` (R24). -/
def pack2 (mode : Word) : Bool := mode.getLsbD 7
/-- `MODE.PACK_1PPB_DIFF` (R24). -/
def pack1 (mode : Word) : Bool := mode.getLsbD 8
/-- `MODE.PREV_WHITE` (R24). -/
def prevWhite (mode : Word) : Bool := mode.getLsbD 9
/-- `MODE.PREV_BLACK` (R24). -/
def prevBlack (mode : Word) : Bool := mode.getLsbD 10
/-- `CTRL.LUTSZ`: 0 `S256`, 1 `S1K`, 2 `S64K`, 3 reserved (R25). -/
def lutSize (ctrl : Word) : Nat := (ctrl.extractLsb' 0 2).toNat

/-- The static colour of the automatic forms, when there is one; white wins (R115, R141). -/
def autoColour (mode : Word) : Option Nibble :=
  if prevWhite mode then some 15#4 else if prevBlack mode then some 0#4 else none

/-- `Select(MODE, CTRL)`: a layout with its static colour, or the error bits (R141). -/
def selectLayout (mode ctrl : Word) : Except Word Layout :=
  match pack8 mode, pack2 mode, pack1 mode with
  | false, false, true =>
    if lutSize ctrl = 2 then .ok .l1p64k
    else if lutSize ctrl = 1 then .ok .l1p1k
    else .error errLookupNotImplemented
  | false, true, false =>
    match autoColour mode with
    | none => .error errLookupNotImplemented
    | some f =>
      if lutSize ctrl = 2 then .ok (.l2p64k f)
      else if lutSize ctrl = 1 then .ok (.l2p1k f)
      else .error errLookupNotImplemented
  | true, false, false =>
    match autoColour mode with
    | none => .error errLookupNotImplemented
    | some _ =>
      if lutSize ctrl = 0 then .ok (.l8p (prevWhite mode))
      else .error errLookupNotImplemented
  | _, _, _ => .error errInvalidPackingMode

/-! ### The crop of `DIFF` (R182) -/

/-- A rectangle with an origin that may be negative (R11). -/
structure Rect where
  x : Int
  y : Int
  w : Nat
  h : Nat
  deriving DecidableEq, Repr

/-- `{DCROP_X, DCROP_Y, DCROP_W, DCROP_H}` (R180). -/
def diffCrop (s : State) : Rect :=
  { x := s.operands.dcropX.toInt, y := s.operands.dcropY.toInt
    w := s.operands.dcropW.toNat, h := s.operands.dcropH.toNat }

/-- `CropValid()` (R182). -/
def cropValid (s : State) : Bool :=
  let r := diffCrop s
  decide (0 ≤ r.x) && decide (0 ≤ r.y) && decide (r.w ≤ 65535) && decide (r.h ≤ 65535) &&
    decide (r.x + r.w ≤ s.cfg.width) && decide (r.y + r.h ≤ s.cfg.height)

/-- The columns of a rectangle, left to right. -/
def rectCols (r : Rect) : List Nat := (List.range r.w).map (fun i => r.x.toNat + i)

/-- The rows of a rectangle, top to bottom. -/
def rectRows (r : Rect) : List Nat := (List.range r.h).map (fun i => r.y.toNat + i)

/-- The pixels of a rectangle, row by row. -/
def rectPixels (r : Rect) : List (Nat × Nat) :=
  (rectRows r).flatMap (fun y => (rectCols r).map (fun x => (x, y)))

/-! ### The geometry of an update (R222) -/

/-- `CropActive`. -/
def cropActive (s : State) : Bool :=
  decide (0 < s.operands.cropW.toNat) && decide (0 < s.operands.cropH.toNat)

/-- `C`, the effective crop, in image coordinates. -/
def effectiveCrop (s : State) : Rect :=
  if cropActive s then
    { x := s.operands.cropX.toInt, y := s.operands.cropY.toInt
      w := s.operands.cropW.toNat, h := s.operands.cropH.toNat }
  else { x := 0, y := 0, w := s.operands.areaW.toNat, h := s.operands.areaH.toNat }

/-- `GeomOK`. -/
def geomOk (s : State) : Bool :=
  decide (s.operands.areaW.toNat ≤ 65535) && decide (s.operands.areaH.toNat ≤ 65535) &&
  decide (s.operands.cropW.toNat ≤ 65535) && decide (s.operands.cropH.toNat ≤ 65535) &&
  (!cropActive s ||
    (decide (0 ≤ s.operands.cropX.toInt) && decide (0 ≤ s.operands.cropY.toInt) &&
     decide (s.operands.cropX.toInt + s.operands.cropW.toNat ≤ (s.operands.areaW.toNat : Int)) &&
     decide (s.operands.cropY.toInt + s.operands.cropH.toNat ≤ (s.operands.areaH.toNat : Int))))

/-- `RowCovered(r)`. -/
def rowCovered (s : State) (r : Nat) : Bool :=
  decide (s.operands.areaY.toInt ≤ (r : Int)) &&
    decide ((r : Int) < s.operands.areaY.toInt + (effectiveCrop s).h)

/-- `ColCovered(X)`. -/
def colCovered (s : State) (x : Nat) : Bool :=
  decide (s.operands.areaX.toInt ≤ (x : Int)) &&
    decide ((x : Int) < s.operands.areaX.toInt + (effectiveCrop s).w)

/-- `ix(X)` of a covered column; not negative when `GeomOK` (log 19). -/
def imgX (s : State) (x : Nat) : Nat := ((effectiveCrop s).x + ((x : Int) - s.operands.areaX.toInt)).toNat

/-- `iy(r)` of a covered row; not negative when `GeomOK` (log 19). -/
def imgY (s : State) (r : Nat) : Nat := ((effectiveCrop s).y + ((r : Int) - s.operands.areaY.toInt)).toNat

/-- Pixels in one byte of a packing (R8). -/
def pixelsPerByte : Packing → Nat
  | .diff1 => 1
  | .fb4 => 2
  | .mono8 => 8

/-- The bytes of a line of `w` pixels: `w`, `ceil(w/2)` or `ceil(w/8)` (R161); also the stride of an image that
wide (R70, R73, R74, R222). -/
def lineLength (p : Packing) (w : Nat) : Nat := ceilDiv w (pixelsPerByte p)

/-- The display columns the area covers. -/
def coveredCols (s : State) : List Nat := (List.range s.cfg.width).filter (colCovered s)

/-- The runs of `MEM` the produce step reads for an active row `r`: the bytes of the covered columns' pixels
(R84, R229). -/
def rowSpans (s : State) (p : Packing) (r : Nat) : List Span :=
  let line := s.operands.srcTo.toNat + imgY s r * lineLength p s.operands.areaW.toNat
  (coveredCols s).map (fun x => { base := line + imgX s x / pixelsPerByte p, len := 1 })

/-- The input buffers of `DIFF`: the whole `to` and `from` images, `W` by `H` with stride `ceil(W/2)` (R70, R84,
R180; log 13). -/
def diffReads (s : State) : List Span :=
  [{ base := s.operands.srcTo.toNat, len := s.cfg.colBytes * s.cfg.height },
   { base := s.operands.srcFrom.toNat, len := s.cfg.colBytes * s.cfg.height }]

/-- The output buffer of `DIFF`: the whole image `out_diff`, `W` by `H` with stride `W` (R73, R84, R180; log 13). -/
def diffWrites (s : State) : List Span :=
  [{ base := s.operands.dstDiff.toNat, len := s.cfg.width * s.cfg.height }]

/-! ### The operands of a stand-alone lookup (R161) -/

/-- The input line at `LINE_IN`, of `WIDTH` pixels in the packing. -/
def lineInSpan (s : State) (p : Packing) : Span :=
  { base := s.operands.lineIn.toNat, len := lineLength p s.operands.width.toNat }

/-- The output row at `LINE_OUT`, `ceil(WIDTH/4)` bytes. -/
def lineOutSpan (s : State) : Span :=
  { base := s.operands.lineOut.toNat, len := ceilDiv s.operands.width.toNat 4 }

/-- The input line as bytes. -/
def lineIn (s : State) (p : Packing) : List Byte :=
  memReadRun s.mem s.operands.lineIn.toNat (lineLength p s.operands.width.toNat)

end Sys2Proof.Machine
end

