-- ==== Sys2Proof/Machine/Difference.lean ====
section
/-! DEFINITION. The Difference Image engine and transition mapper (43_difference.md). -/

namespace Sys2Proof.Machine

/-- The target colour of display pixel `(x, y)`: `PixRead(SRC_TO, ceil(W/2), x, y)` (R181). -/
def toPixel (s : State) (x y : Nat) : Nibble :=
  pixRead s.mem s.operands.srcTo.toNat s.cfg.colBytes x y

/-- The previous colour of display pixel `(x, y)`: `PixRead(SRC_FROM, ceil(W/2), x, y)` (R181). -/
def fromPixel (s : State) (x y : Nat) : Nibble :=
  pixRead s.mem s.operands.srcFrom.toNat s.cfg.colBytes x y

/-- `d = t ^ f` (R181). -/
def changeNibble (s : State) (x y : Nat) : Nibble := toPixel s x y ^^^ fromPixel s x y

/-- The transition byte `(t << 4) | f` (R183). -/
def transitionByte (s : State) (x y : Nat) : Byte := toPixel s x y ++ fromPixel s x y

/-- Where the transition byte of pixel `(x, y)` goes: `DST_DIFF + y*W + x` (R73, R181). -/
def diffAddr (s : State) (x y : Nat) : Nat := s.operands.dstDiff.toNat + y * s.cfg.width + x

/-- `MEM` with the transition bytes of the crop's pixels (R181). -/
def diffMem (s : State) : Cells :=
  (rectPixels (diffCrop s)).foldl
    (fun m p => memWrite m (diffAddr s p.1 p.2) (transitionByte s p.1 p.2)) s.mem

/-- `DIRTY_LINES` after `DIFF`: cleared, then set in the crop's rows that hold a changed pixel (R181). -/
def diffLines (s : State) : List Bool :=
  (List.range s.cfg.height).map (fun y =>
    (rectRows (diffCrop s)).contains y &&
      (rectCols (diffCrop s)).any (fun x => changeNibble s x y != 0#4))

/-- The OR of `d` down column `x` of the crop; 0 outside it (R42, R181). -/
def columnOr (s : State) (x : Nat) : Nibble :=
  if (rectCols (diffCrop s)).contains x then
    (rectRows (diffCrop s)).foldl (fun acc y => acc ||| changeNibble s x y) 0#4
  else 0#4

/-- `DIRTY_COLS` after `DIFF`: byte `j` covers columns `2j` (high) and `2j+1` (low) (R42, R181). -/
def diffCols (s : State) : List Byte :=
  (List.range s.cfg.colBytes).map (fun j => columnOr s (2 * j) ++ columnOr s (2 * j + 1))

/-- The `from` colours of the crop's pixels (R185). -/
def fromPixels (s : State) : List Nibble :=
  (rectPixels (diffCrop s)).map (fun p => fromPixel s p.1 p.2)

/-- The least index below `n` where `p` holds. -/
def leastBelow (p : Nat → Bool) (n : Nat) : Option Nat := (List.range n).find? p

/-- The greatest index below `n` where `p` holds. -/
def greatestBelow (p : Nat → Bool) (n : Nat) : Option Nat := (List.range n).reverse.find? p

/-- `BoundingRect()` on a display of `w` by `h` (R186): least and greatest dirty column and row; the zero-area
rectangle `{0, 0, 0, 0}` when nothing is dirty (R187). -/
def boundingRect (w h : Nat) (lines : List Bool) (cols : List Byte) : Word × Word × Word × Word :=
  match leastBelow (lineDirty lines) h, greatestBelow (lineDirty lines) h,
        leastBelow (colDirty cols) w, greatestBelow (colDirty cols) w with
  | some y0, some y1, some x0, some x1 =>
    (BitVec.ofNat 32 x0, BitVec.ofNat 32 y0, BitVec.ofNat 32 (x1 - x0 + 1), BitVec.ofNat 32 (y1 - y0 + 1))
  | _, _, _, _ => (0#32, 0#32, 0#32, 0#32)

/-- The state after a valid `DIFF`, but for its result code (R181). -/
def diffed (s : State) : State :=
  let lines := diffLines s
  let cols := diffCols s
  let r := boundingRect s.cfg.width s.cfg.height lines cols
  { s with
    mem := diffMem s
    dirtyLines := lines
    dirtyCols := cols
    prevWhiteF := allWhite (fromPixels s)
    prevBlackF := allBlack (fromPixels s)
    rectX := r.1
    rectY := r.2.1
    rectW := r.2.2.1
    rectH := r.2.2.2 }

/-- `DIFF` (R181). -/
def execDiff (s : State) : Out :=
  allowed [.host] .idle s
    (if cropValid s then
      unlessRefused (twoBufferRefusal s (diffReads s) (diffWrites s)) (.next (result 0#32 (diffed s)))
     else .next (result errInvalidCrop (flagError errInvalidCrop s)))

end Sys2Proof.Machine
end

