-- ==== Sys2Proof/Machine/PixelLookup.lean ====
section
/-! DEFINITION. The Pixel Lookup operations (42_pixel_lookup.md). -/

namespace Sys2Proof.Machine

/-! ### `Look_<layout>(in, w)`: a row, or nothing where a `LUT` byte was never written -/

/-- `in[i]`, 0x00 beyond the input line (R162). -/
def inByte (inp : List Byte) (i : Nat) : Nat := (inp.getD i 0#8).toNat

/-- `ClearBeyond(out, w)`: every pair of a column from `w` on becomes `00` (R162). -/
def clearBeyond (out : List Byte) (w : Nat) : List Byte :=
  andRow out (maskRow (fun x => decide (x < w)) out.length)

/-- The row whose byte `q` is `byte q`, for `ceil(w/4)` bytes, cleared beyond `w`. -/
def lookRow (w : Nat) (byte : Nat → Option Byte) : Option Row :=
  (allSome ((List.range (ceilDiv w 4)).map byte)).map (fun out => clearBeyond out w)

/-- `Look_1P64K` (R164). -/
def look1P64K (lut : Cells) (inp : List Byte) (w : Nat) : Option Row :=
  lookRow w (fun q =>
    match lutRead lut (inByte inp (4 * q) + 256 * inByte inp (4 * q + 1)),
          lutRead lut (inByte inp (4 * q + 2) + 256 * inByte inp (4 * q + 3)) with
    | some e0, some e1 => some (lo4 e0 ++ lo4 e1)
    | _, _ => none)

/-- OR together the entries that are looked up; nothing where one was never written. -/
def orEntries (es : List (Option Byte)) : Option Byte := (allSome es).map (fun bs => bs.foldl (· ||| ·) 0#8)

/-- `Look_1P1K` (R165): positions beyond `w` are not looked up. -/
def look1P1K (lut : Cells) (inp : List Byte) (w : Nat) : Option Row :=
  lookRow w (fun q =>
    orEntries (((List.range 4).filter (fun p => decide (4 * q + p < w))).map
      (fun p => lutRead lut (256 * p + inByte inp (4 * q + p)))))

/-- `Look_2P64K` (R166). -/
def look2P64K (lut : Cells) (inp : List Byte) (w : Nat) : Option Row :=
  lookRow w (fun q => lutRead lut (inByte inp (2 * q) + 256 * inByte inp (2 * q + 1)))

/-- `Look_2P1K` (R167): bytes `2q` and `2q + 1` of the line, where they exist, give byte `q`. -/
def look2P1K (lut : Cells) (inp : List Byte) (w : Nat) : Option Row :=
  lookRow w (fun q =>
    orEntries (([2 * q, 2 * q + 1].filter (fun i => decide (i < ceilDiv w 2))).map
      (fun i => lutRead lut (256 * (i % 4) + inByte inp i))))

/-- `Look_8P` (R168): an even output byte from the input byte, an odd one from it shifted left by four. -/
def look8P (lut : Cells) (inp : List Byte) (w : Nat) : Option Row :=
  lookRow w (fun q =>
    if q % 2 = 0 then lutRead lut (inByte inp (q / 2))
    else lutRead lut (inByte inp (q / 2) * 16 % 256))

/-- `Look_L` for a layout `L` (R229). -/
def lookLayout (l : Layout) (lut : Cells) (inp : List Byte) (w : Nat) : Option Row :=
  match l with
  | .l1p64k => look1P64K lut inp w
  | .l1p1k => look1P1K lut inp w
  | .l2p64k _ => look2P64K lut inp w
  | .l2p1k _ => look2P1K lut inp w
  | .l8p _ => look8P lut inp w

/-! ### The operations -/

/-- A stand-alone lookup: reads the line at `LINE_IN`, writes `ceil(WIDTH/4)` bytes at `LINE_OUT`,
`RES(HOST) <- 0` (R160, R161). -/
def pixelLookup (p : Packing) (look : Cells → List Byte → Nat → Option Row) (s : State) : Out :=
  unlessRefused (twoBufferRefusal s [lineInSpan s p] [lineOutSpan s])
    (need (look s.lut (lineIn s p) s.operands.width.toNat) .lutUnwritten (fun row =>
      .next (result 0#32 { s with mem := memWriteRun s.mem s.operands.lineOut.toNat row })))

/-- `PL.1P64K` (R164). -/
def execPl1P64K (s : State) : Out := allowed [.host] .idle s (pixelLookup .diff1 look1P64K s)

/-- `PL.1P1K` (R165). -/
def execPl1P1K (s : State) : Out := allowed [.host] .idle s (pixelLookup .diff1 look1P1K s)

/-- `PL.2P64K` (R166). -/
def execPl2P64K (s : State) : Out := allowed [.host] .idle s (pixelLookup .fb4 look2P64K s)

/-- `PL.2P1K` (R167). -/
def execPl2P1K (s : State) : Out := allowed [.host] .idle s (pixelLookup .fb4 look2P1K s)

/-- `PL.8P` (R168). -/
def execPl8P (s : State) : Out := allowed [.host] .idle s (pixelLookup .mono8 look8P s)

/-- `PL.AUTO` (R169): a failed selection sets its error bits and reports them; `MEM` is unchanged. -/
def execPlAuto (s : State) : Out :=
  allowed [.host] .idle s
    (match selectLayout s.mode s.ctrl with
     | .error e => .next (result e (flagError e s))
     | .ok l => pixelLookup (layoutPacking l) (lookLayout l) s)

end Sys2Proof.Machine
end

