-- ==== Sys2Proof/Machine/FetchFeed.lean ====
section
/-! DEFINITION. `NOP`, `MASK.BUILD`, the fetch lanes and the feeder (45_fetch_feed_sequencer.md §1 to §4). -/

namespace Sys2Proof.Machine

/-- `NOP` (R220): legal on every port in every sequencer state; `RES(a) <- 0`. -/
def execNop (s : State) : Out :=
  onPorts [.host, .lane0, .lane1, .feeder] s (.next (result 0#32 s))

/-- `MASK.BUILD` (R221). -/
def execMaskBuild (s : State) : Out :=
  allowed [.host] .idle s (.next (result 0#32 { s with mask := buildMask s }))

/-! ### The fetch lane -/

/-- A row is left to claim: the claim of lane `l` (R225). -/
def claimRow (l : Lane) (s : State) : State :=
  setLane l { getLane l s with row := s.lineNext, busy := true }
    { s with lineNext := s.lineNext + 1, lineThreads := s.lineThreads.set s.lineNext (some l) }

/-- No row is left: `LANE_DONEl`, `NO_ROW`, and the phase advance (R225). -/
def noRowLeft (l : Lane) (s : State) : State :=
  (tryAdvance (setLane l { getLane l s with done := true, res := 1#32 } s)).1

/-- The claim step of `FETCH l` (R225). -/
def claimStep (l : Lane) (s : State) : State :=
  if s.lineNext < s.cfg.height then claimRow l s else noRowLeft l s

/-- `FETCH l` (R223 to R225): its first atomic step, the claim. The second, `produceStep`, is a step of the lane
by itself (R224). -/
def execFetch (unit : BitVec 8) (s : State) : Out :=
  withUnit unit (fun l =>
    allowed [lanePort l] .transmitting s (asProducer l s (fun s => .next (claimStep l s))))

/-- Row `r` is covered and, with `DIRTY_EN`, dirty (R229). -/
def rowActive (s : State) (r : Nat) : Bool :=
  rowCovered s r && (!dirtyEn s || lineDirty s.dirtyLines r)

/-- The image pixel shown at display column `x` of display row `r`: a DIFF1 byte, an FB4 nibble or a MONO8 bit,
as a byte (R229). -/
def imagePixel (s : State) (p : Packing) (r x : Nat) : Byte :=
  let base := s.operands.srcTo.toNat
  let stride := lineLength p s.operands.areaW.toNat
  match p with
  | .diff1 => memRead s.mem (base + imgY s r * stride + imgX s x)
  | .fb4 => (pixRead s.mem base stride (imgX s x) (imgY s r)).setWidth 8
  | .mono8 => if monoRead s.mem base stride (imgX s x) (imgY s r) then 1#8 else 0#8

/-- The pixel put at position `x` of `STAGE`: 0 where the column is not covered or is padding (R229). -/
def stagePixel (s : State) (p : Packing) (r x : Nat) : Byte :=
  if x < s.cfg.width ∧ colCovered s x = true then imagePixel s p r x else 0#8

/-- `STAGE`: a line of `W` pixels in the packing, every padding bit 0 (R229). -/
def stageLine (s : State) (p : Packing) (r : Nat) : List Byte :=
  let px := stagePixel s p r
  (List.range (lineLength p s.cfg.width)).map (fun j =>
    match p with
    | .diff1 => px j
    | .fb4 => lo4 (px (2 * j)) ++ lo4 (px (2 * j + 1))
    | .mono8 => (List.range 8).foldl (fun acc i => acc <<< 1 ||| px (8 * j + i)) 0#8)

/-- The no-op row: `LINE_BYTES` bytes of 0x00 (R229). -/
def noopRow (c : Config) : Row := List.replicate c.lineBytes 0x00#8

/-- `RenderRow(r)` of an active row with layout `l`: the lookup of `STAGE`, then the edge masking (R229). -/
def renderActive (s : State) (l : Layout) (r : Nat) : Option Row :=
  (lookLayout l s.lut (stageLine s (layoutPacking l) r) s.cfg.width).map (fun out =>
    andRow out (maskRow (fun x => !(decide (x < s.cfg.width)) || colCovered s x) out.length))

/-- `RenderRow(r)` (R229), going on with the row. A row that is not active reads nothing. -/
def renderRow (s : State) (r : Nat) (k : Row → Out) : Out :=
  if rowActive s r then
    match selectLayout s.mode s.ctrl with
    | .error _ => .refused .noLayout
    | .ok l =>
      unlessRefused (bufferRefusal s (rowSpans s (layoutPacking l) r) [])
        (need (renderActive s l r) .lutUnwritten k)
  else k (noopRow s.cfg)

/-- The lane is no longer busy and its `FETCH` is complete with result 0 (R226). `LANE_ROWl` keeps the row: what R38's
table clears is read as `LANE_BUSYl` alone (log 28). -/
def fetchComplete (l : Lane) (s : State) : State :=
  setLane l { getLane l s with busy := false, res := 0#32 } s

/-- The produce step of `FETCH l` is enabled: a row is claimed and there is a slot for it, or the frame is over
(R226). -/
def produceEnabled (l : Lane) (s : State) : Bool :=
  (getLane l s).busy && (!queueFull s.cfg (getQueue l s) || s.fdone)

/-- The produce step of `FETCH l` (R226): drop the row if the frame is over, else write the masked row into the
current slot and commit it. -/
def produceStep (l : Lane) (s : State) : Out :=
  if s.fdone then .next (fetchComplete l s)
  else
    renderRow s (getLane l s).row (fun row =>
      .next (fetchComplete l
        (setQueue l (advanceCur s.cfg (putCurrent (andRow row s.mask) (getQueue l s))) s)))

/-- The lane is scheduled: its produce step if enabled, else it holds and nothing changes (R226, R310; log 7). -/
def scheduleLane (l : Lane) (s : State) : Out :=
  if produceEnabled l s then produceStep l s else .next s

/-! ### The feeder -/

/-- `reorder(row)`, the bus-order pass (R79). -/
def reorder (c : Config) (row : Row) : Row :=
  (List.range c.lineBytes).map (fun n =>
    row.getD (n / c.busGroup * c.busGroup + c.busPerm.getD (n % c.busGroup) 0) 0#8)

/-- Row `LINES_CONSUMED` leaves for the bus: the counter, the record, the result (R227). -/
def deliver (row : Row) (starved : Bool) (s : State) : State :=
  result (if starved then 1#32 else 0#32)
    { s with
      linesConsumed := s.linesConsumed + 1
      busOut := s.busOut ++
        [{ phase := s.phase, row := s.linesConsumed, starved := starved, bytes := reorder s.cfg row }] }

/-- Starvation: a no-op row goes to the bus and the error is flagged (R227). -/
def deliverStarved (s : State) : State :=
  deliver (noopRow s.cfg) true (flagError errEmptyLineQueue s)

/-- The oldest committed row of queue `t` goes to the bus (R227). -/
def deliverFrom (t : Lane) (s : State) : Out :=
  need (slotRead (getQueue t s) (getQueue t s).last) .slotUnwritten (fun row =>
    .next (deliver row false (setQueue t (advanceLast s.cfg (getQueue t s)) s)))

/-- One row for the bus (R227). -/
def feedStep (s : State) : Out :=
  if s.linesConsumed < s.lineNext then
    need (s.lineThreads[s.linesConsumed]?).join .lineThreadUnwritten (fun t =>
      if queueEmpty s.cfg (getQueue t s) then .next (deliverStarved s) else deliverFrom t s)
  else .next (deliverStarved s)

/-- `FEED` (R227): `NO_LINE` when the phase's rows are delivered, else one row. The feeder is the consumer of both
queues (R90, R307; log 15). -/
def execFeed (s : State) : Out :=
  allowed [.feeder] .transmitting s
    (if s.cfg.height ≤ s.linesConsumed then .next (result 2#32 s)
     else asConsumer .zero s (fun s => asConsumer .one s feedStep))

end Sys2Proof.Machine
end

