-- ==== Sys2Proof/Machine/LineQueue.lean ====
section
/-! DEFINITION. The Line Queue operations (44_line_queue.md). -/

namespace Sys2Proof.Machine

/-- `NOT_READY` (R118, R201). -/
def notReady : Word := 0xFFFFFFFF#32

/-- The `LINE_BYTES` bytes at `LINE_IN` that `LQ.WRITE` reads (R202). -/
def queueInSpan (s : State) : Span := { base := s.operands.lineIn.toNat, len := s.cfg.lineBytes }

/-- The `LINE_BYTES` bytes at `LINE_OUT` that `LQ.READ` writes (R204). -/
def queueOutSpan (s : State) : Span := { base := s.operands.lineOut.toNat, len := s.cfg.lineBytes }

/-- The ports of queue `q`'s producer side outside an update (R120). -/
def producerPorts (q : Lane) : List Port := [.host, lanePort q]

/-- `LQ.CURRENT q` (R201): the index of the writable slot, or `NOT_READY`. -/
def execLqCurrent (unit : BitVec 8) (s : State) : Out :=
  withUnit unit (fun q =>
    allowed (producerPorts q) .idle s
      (if queueFull s.cfg (getQueue q s) then .next (result notReady s)
       else .next (result (BitVec.ofNat 32 (getQueue q s).cur) s)))

/-- `LQ.WRITE q` (R202): fill the writable slot from `LINE_IN`, or `NOT_READY` and nothing written. Until the
commit the producer is in mid-sequence (R304(c)). -/
def execLqWrite (unit : BitVec 8) (s : State) : Out :=
  withUnit unit (fun q =>
    allowed (producerPorts q) .idle s
      (asProducer q s (fun s =>
        if queueFull s.cfg (getQueue q s) then .next (result notReady s)
        else
          unlessRefused (bufferRefusal s [queueInSpan s] [])
            (.next (result 0#32
              (setQueue q
                { putCurrent (memReadRun s.mem s.operands.lineIn.toNat s.cfg.lineBytes) (getQueue q s) with
                  midSequence := true } s))))))

/-- `LQ.COMMIT q` (R203): AND the mask into the slot, then advance `Qq_CUR`; refused on a full queue, and a fault
on a slot never written. -/
def execLqCommit (unit : BitVec 8) (s : State) : Out :=
  withUnit unit (fun q =>
    allowed (producerPorts q) .idle s
      (asProducer q s (fun s =>
        require (!queueFull s.cfg (getQueue q s)) .commitOnFull
          (need (slotRead (getQueue q s) (getQueue q s).cur) .slotUnwritten (fun row =>
            .next (result 0#32
              (setQueue q
                { advanceCur s.cfg (putCurrent (andRow row s.mask) (getQueue q s)) with midSequence := false }
                s)))))))

/-- `LQ.READ q` (R204): copy the oldest committed row to `LINE_OUT` and advance `Qq_LAST`, or `EMPTY = 1`. -/
def execLqRead (unit : BitVec 8) (s : State) : Out :=
  withUnit unit (fun q =>
    allowed [.host, .feeder] .idle s
      (asConsumer q s (fun s =>
        if queueEmpty s.cfg (getQueue q s) then .next (result 1#32 s)
        else
          unlessRefused (bufferRefusal s [] [queueOutSpan s])
            (need (slotRead (getQueue q s) (getQueue q s).last) .slotUnwritten (fun row =>
              .next (result 0#32
                (setQueue q (advanceLast s.cfg (getQueue q s))
                  { s with mem := memWriteRun s.mem s.operands.lineOut.toNat row })))))))

/-- `LQ.RESET q` (R205); refused while a stand-alone producer is in mid-sequence (R304(c); log 22). -/
def execLqReset (unit : BitVec 8) (s : State) : Out :=
  withUnit unit (fun q =>
    allowed [.host] .idle s
      (require (!(getQueue q s).midSequence) .queueInUse
        (.next (result 0#32 (setQueue q (emptyQueue (getQueue q s)) s)))))

end Sys2Proof.Machine
end

