-- ==== Sys2Proof/Machine/LutBuilder.lean ====
section
/-! DEFINITION. The LUT Builder operations (41_lut_builder.md). -/

namespace Sys2Proof.Machine

/-! ### Table contents -/

/-- `A(k, t, f)`: the action code of phase `k` for target `t` and previous colour `f`, from the waveform bytes
(R75, R76). -/
def actionCode (m : Cells) (wfBase k : Nat) (t f : Nibble) : Code :=
  pair (memRead m (wfBase + 64 * k + 4 * t.toNat + f.toNat / 4)) (f.toNat % 4)

/-- `A(PHASE, t, f)`. -/
def phaseCode (s : State) (t f : Nibble) : Code :=
  actionCode s.mem s.operands.wfBase.toNat s.phase.toNat t f

/-- The byte number `n mod 256`. -/
def byteOf (n : Nat) : Byte := BitVec.ofNat 8 n

/-- `LUT[d0 | (d1 << 8)]` of the layout 1P64K (R143). -/
def entry1P64K (a : Nibble → Nibble → Code) (i : Nat) : Byte :=
  let d0 := byteOf i
  let d1 := byteOf (i / 256)
  quad 0#2 0#2 (a (hi4 d0) (lo4 d0)) (a (hi4 d1) (lo4 d1))

/-- `LUT[256*p + v]` of the layout 1P1K (R144). -/
def entry1P1K (a : Nibble → Nibble → Code) (i : Nat) : Byte :=
  let v := byteOf i
  (a (hi4 v) (lo4 v)).setWidth 8 <<< (6 - 2 * (i / 256))

/-- `LUT[b0 | (b1 << 8)]` of the layout 2P64K with the static colour `f` (R146). -/
def entry2P64K (a : Nibble → Nibble → Code) (f : Nibble) (i : Nat) : Byte :=
  let b0 := byteOf i
  let b1 := byteOf (i / 256)
  quad (a (hi4 b0) f) (a (lo4 b0) f) (a (hi4 b1) f) (a (lo4 b1) f)

/-- `LUT[256*j + b]` of the layout 2P1K with the static colour `f` (R147). -/
def entry2P1K (a : Nibble → Nibble → Code) (f : Nibble) (i : Nat) : Byte :=
  let b := byteOf i
  if i / 256 % 2 = 0 then quad (a (hi4 b) f) (a (lo4 b) f) 0#2 0#2
  else quad 0#2 0#2 (a (hi4 b) f) (a (lo4 b) f)

/-- `M_W(bit)` and `M_B(bit)`: the code of a monochrome pixel from white and from black (R150). -/
def monoCode (c : Config) (fromWhite : Bool) (bit : Bool) : Code :=
  match fromWhite, bit with
  | true, true => 0b00#2
  | true, false => c.codePushBlack
  | false, true => c.codePushWhite
  | false, false => 0b00#2

/-- `T_W[m]` and `T_B[m]` (R150). -/
def entry8P (c : Config) (fromWhite : Bool) (i : Nat) : Byte :=
  let m := byteOf i
  let code (j : Nat) : Code := monoCode c fromWhite (m.getLsbD j)
  quad (code 7) (code 6) (code 5) (code 4)

/-- The table entry of a layout at index `i`. -/
def layoutEntry (s : State) (l : Layout) (i : Nat) : Byte :=
  match l with
  | .l1p64k => entry1P64K (phaseCode s) i
  | .l1p1k => entry1P1K (phaseCode s) i
  | .l2p64k f => entry2P64K (phaseCode s) f i
  | .l2p1k f => entry2P1K (phaseCode s) f i
  | .l8p fw => entry8P s.cfg fw i

/-! ### Building -/

/-- The 64 waveform bytes of phase `PHASE` (R84, R140). -/
def phaseSpan (s : State) : Span :=
  { base := s.operands.wfBase.toNat + 64 * s.phase.toNat, len := 64 }

/-- Why the build of a layout is refused: a waveform build needs `PHASE < PHASE_COUNT` (R140) and its 64 bytes
(R88). -/
def buildRefusal (s : State) (l : Layout) : Option Refusal :=
  if layoutUsesWaveform l then
    if s.phase.toNat < s.phaseCount.toNat then bufferRefusal s [phaseSpan s] []
    else some .phaseOutOfRange
  else none

/-- The `LUT` after the build of a layout: its first bytes written, the rest as before (R40). -/
def builtLut (s : State) (l : Layout) : Cells := lutLoad s.lut (layoutSize l) (layoutEntry s l)

/-- The build of a layout, as `LB.*` and `PREP` perform it. -/
def buildLayout (l : Layout) (s : State) (k : State → Out) : Out :=
  unlessRefused (buildRefusal s l) (k { s with lut := builtLut s l })

/-- A direct `LB` operation: legal on `CMD_HOST` in `IDLE` (R120), `RES(HOST) <- 0` (R118). -/
def lutBuild (l : Layout) (s : State) : Out :=
  allowed [.host] .idle s (buildLayout l s (fun t => .next (result 0#32 t)))

/-! ### The operations -/

/-- `LB.1P64K` (R143). -/
def execLb1P64K (s : State) : Out := lutBuild .l1p64k s

/-- `LB.1P1K` (R144). -/
def execLb1P1K (s : State) : Out := lutBuild .l1p1k s

/-- `LB.2P64K F` (R146). -/
def execLb2P64K (f : Nibble) (s : State) : Out := lutBuild (.l2p64k f) s

/-- `LB.2P1K F` (R147). -/
def execLb2P1K (f : Nibble) (s : State) : Out := lutBuild (.l2p1k f) s

/-- `LB.8P FW` (R151). -/
def execLb8P (fw : Bool) (s : State) : Out := lutBuild (.l8p fw) s

/-- `LB.AUTO` (R142): a failed selection sets its error bits and reports them; the `LUT` is unchanged. -/
def execLbAuto (s : State) : Out :=
  allowed [.host] .idle s
    (match selectLayout s.mode s.ctrl with
     | .error e => .next (result e (flagError e s))
     | .ok l => buildLayout l s (fun t => .next (result 0#32 t)))

end Sys2Proof.Machine
end

