-- ==== Sys2Proof/Machine/Sequencer.lean ====
section
/-! DEFINITION. The phase sequencer (45_fetch_feed_sequencer.md §5). -/

namespace Sys2Proof.Machine

/-- `STATUS.LANE_DONE0`, `LANE_DONE1`, `FDONE`, `LANE_BUSY0`, `LANE_BUSY1 <- 0` (R233, R236). `LANE_ROW0` and
`LANE_ROW1` keep their rows: what R38's table clears is read as `LANE_BUSY0` and `LANE_BUSY1` alone (log 28). -/
def clearProgress (s : State) : State :=
  { s with
    fdone := false
    lane0 := { s.lane0 with done := false, busy := false }
    lane1 := { s.lane1 with done := false, busy := false } }

/-- The flags of the synchronous checks of `UPD.START`: every failing one (R233, R266(c)). -/
def startErrors (s : State) : Word :=
  (match selectLayout s.mode s.ctrl with
   | .error e => e
   | .ok _ => 0#32) |||
  (if geomOk s then 0#32 else errInvalidCrop)

/-- What every `UPD.START` writes: `ERROR`, the progress bits, `PHASE` (R233). -/
def startClear (s : State) : State := { clearProgress s with error := startErrors s, phase := 0#32 }

/-- `UPD.START` (R233). -/
def execUpdStart (s : State) : Out :=
  allowed [.host] .idle s
    (.next (result (startErrors s)
      (if startErrors s ≠ 0#32 then { startClear s with seq := .done }
       else if s.phaseCount = 0#32 then { startClear s with seq := .done }
       else { startClear s with mask := buildMask s, seq := .preparing })))

/-- Both queues' logical positions (R236). -/
def emptyQueues (s : State) : State :=
  { s with
    lane0 := { s.lane0 with queue := emptyQueue s.lane0.queue }
    lane1 := { s.lane1 with queue := emptyQueue s.lane1.queue } }

/-- What `PREP` does beside the LUT (R236). -/
def prepared (s : State) : State :=
  { clearProgress (emptyQueues s) with lineNext := 0, linesConsumed := 0, seq := .transmitting }

/-- `PREP` (R236). -/
def execPrep (s : State) : Out :=
  allowed [.host] .preparing s
    (match selectLayout s.mode s.ctrl with
     | .error _ => .refused .noLayout
     | .ok l => buildLayout l s (fun t => .next (result 0#32 (prepared t))))

/-- `FDONE` is recorded, and the phase advance tried (R239). -/
def frameDoneStep (s : State) : State × Word := tryAdvance { s with fdone := true }

/-- `FRAME.DONE` (R239). -/
def execFrameDone (s : State) : Out :=
  allowed [.feeder] .transmitting s
    (require (decide (s.linesConsumed = s.cfg.height)) .frameNotDelivered
      (require (!s.fdone) .frameAlreadyDone
        (.next (result (frameDoneStep s).2 (frameDoneStep s).1))))

/-- `UPD.ACK` (R242). -/
def execUpdAck (s : State) : Out :=
  allowed [.host] .done s (.next (result 0#32 { s with seq := .idle }))

end Sys2Proof.Machine
end

