-- ==== Sys2Proof/Machine/Dispatch.lean ====
section
/-! DEFINITION. One arm per operation (30_encoding.md R112). -/

namespace Sys2Proof.Machine

def exec (i : Instr) (s : State) : Host.Outcome State Fault Refusal :=
  match i with
  | .nop => Sys2Proof.Machine.execNop s
  | .lb1p64k => Sys2Proof.Machine.execLb1P64K s
  | .lb1p1k => Sys2Proof.Machine.execLb1P1K s
  | .lb2p64k f => Sys2Proof.Machine.execLb2P64K f s
  | .lb2p1k f => Sys2Proof.Machine.execLb2P1K f s
  | .lb8p fw => Sys2Proof.Machine.execLb8P fw s
  | .lbAuto => Sys2Proof.Machine.execLbAuto s
  | .pl1p64k => Sys2Proof.Machine.execPl1P64K s
  | .pl1p1k => Sys2Proof.Machine.execPl1P1K s
  | .pl2p64k => Sys2Proof.Machine.execPl2P64K s
  | .pl2p1k => Sys2Proof.Machine.execPl2P1K s
  | .pl8p => Sys2Proof.Machine.execPl8P s
  | .plAuto => Sys2Proof.Machine.execPlAuto s
  | .diff => Sys2Proof.Machine.execDiff s
  | .lqCurrent unit => Sys2Proof.Machine.execLqCurrent unit s
  | .lqWrite unit => Sys2Proof.Machine.execLqWrite unit s
  | .lqCommit unit => Sys2Proof.Machine.execLqCommit unit s
  | .lqRead unit => Sys2Proof.Machine.execLqRead unit s
  | .lqReset unit => Sys2Proof.Machine.execLqReset unit s
  | .fetch unit => Sys2Proof.Machine.execFetch unit s
  | .feed => Sys2Proof.Machine.execFeed s
  | .maskBuild => Sys2Proof.Machine.execMaskBuild s
  | .updStart => Sys2Proof.Machine.execUpdStart s
  | .prep => Sys2Proof.Machine.execPrep s
  | .frameDone => Sys2Proof.Machine.execFrameDone s
  | .updAck => Sys2Proof.Machine.execUpdAck s

end Sys2Proof.Machine
end

