-- ==== Sys2Proof/WellFormed.lean ====
section
/-! DEFINITION. The check on an operation's operands: `UNIT` names a lane (30_encoding.md R110, R119). -/

namespace Sys2Proof

/-- `NLANES` (R7): two fetch lanes, one Line Queue each. -/
abbrev numLanes : Nat := 2

/-- `UNIT` is below `NLANES` (R110, R119). -/
abbrev unitOk (unit : BitVec 8) : Prop := unit.toNat < numLanes

/-- An operation whose operands R110 to R112 admit. The colour `F` and the bit `FW` take every value of their
width, so only a unit can be out of range. -/
abbrev Instr.WellFormed (i : Instr) : Prop :=
  match i with
  | .nop => True
  | .lb1p64k => True
  | .lb1p1k => True
  | .lb2p64k _ => True
  | .lb2p1k _ => True
  | .lb8p _ => True
  | .lbAuto => True
  | .pl1p64k => True
  | .pl1p1k => True
  | .pl2p64k => True
  | .pl2p1k => True
  | .pl8p => True
  | .plAuto => True
  | .diff => True
  | .lqCurrent u => unitOk u
  | .lqWrite u => unitOk u
  | .lqCommit u => unitOk u
  | .lqRead u => unitOk u
  | .lqReset u => unitOk u
  | .fetch u => unitOk u
  | .feed => True
  | .maskBuild => True
  | .updStart => True
  | .prep => True
  | .frameDone => True
  | .updAck => True

end Sys2Proof
end

