-- ==== Sys2Proof/Decode.lean ====
section
/-! DEFINITION. The command word (30_encoding.md R110 to R112), its decoder and its encoder. Decoding is total:
a reserved word is rejected by the name of what is wrong with it (R119). -/

namespace Sys2Proof

/-- `OPC`, bits 31:24 (R110). -/
def opcField (w : Word) : BitVec 8 := w.extractLsb' 24 8

/-- `UNIT`, bits 23:16 (R110). -/
def unitField (w : Word) : BitVec 8 := w.extractLsb' 16 8

/-- `ARG`, bits 15:0 (R110). -/
def argField (w : Word) : BitVec 16 := w.extractLsb' 0 16

/-- Format N: no operand, `UNIT = 0`, `ARG = 0` (R111). -/
def formatN (w : Word) (i : Instr) : Except Reserved Instr :=
  if unitField w = 0#8 then
    if argField w = 0#16 then .ok i else .error .argNotZero
  else .error .unitNotZero

/-- Format U: `UNIT` is a queue or lane number below `NLANES`, `ARG = 0` (R111, R119). -/
def formatU (w : Word) (mk : BitVec 8 → Instr) : Except Reserved Instr :=
  if (unitField w).toNat < numLanes then
    if argField w = 0#16 then .ok (mk (unitField w)) else .error .argNotZero
  else .error .unitOutOfRange

/-- Format A with the operand `ARG[n-1:0]`: `UNIT = 0` and the unused bits of `ARG` are 0 (R111). -/
def formatA (w : Word) (n : Nat) (mk : BitVec n → Instr) : Except Reserved Instr :=
  if unitField w = 0#8 then
    if argField w >>> n = 0#16 then .ok (mk ((argField w).setWidth n)) else .error .argNotZero
  else .error .unitNotZero

/-- The operation a command word stands for (R112), or why it is reserved (R119). `OPC` alone selects format and
operation (R122). -/
def decodeWord (w : Word) : Except Reserved Instr :=
  if opcField w = 0x00#8 then formatN w .nop
  else if opcField w = 0x10#8 then formatN w .lb1p64k
  else if opcField w = 0x11#8 then formatN w .lb1p1k
  else if opcField w = 0x12#8 then formatA w 4 .lb2p64k
  else if opcField w = 0x13#8 then formatA w 4 .lb2p1k
  else if opcField w = 0x14#8 then formatA w 1 (fun b => .lb8p (b == 1#1))
  else if opcField w = 0x1F#8 then formatN w .lbAuto
  else if opcField w = 0x20#8 then formatN w .pl1p64k
  else if opcField w = 0x21#8 then formatN w .pl1p1k
  else if opcField w = 0x22#8 then formatN w .pl2p64k
  else if opcField w = 0x23#8 then formatN w .pl2p1k
  else if opcField w = 0x24#8 then formatN w .pl8p
  else if opcField w = 0x2F#8 then formatN w .plAuto
  else if opcField w = 0x30#8 then formatN w .diff
  else if opcField w = 0x40#8 then formatU w .lqCurrent
  else if opcField w = 0x41#8 then formatU w .lqWrite
  else if opcField w = 0x42#8 then formatU w .lqCommit
  else if opcField w = 0x43#8 then formatU w .lqRead
  else if opcField w = 0x44#8 then formatU w .lqReset
  else if opcField w = 0x50#8 then formatU w .fetch
  else if opcField w = 0x51#8 then formatN w .feed
  else if opcField w = 0x52#8 then formatN w .maskBuild
  else if opcField w = 0x60#8 then formatN w .updStart
  else if opcField w = 0x61#8 then formatN w .prep
  else if opcField w = 0x62#8 then formatN w .frameDone
  else if opcField w = 0x63#8 then formatN w .updAck
  else .error .unknownOpcode

/-- The command word with the given fields: `(OPC << 24) | (UNIT << 16) | ARG` (R110, R123). -/
def commandWord (opc unit : BitVec 8) (arg : BitVec 16) : Word := opc ++ unit ++ arg

/-- The command word of an operation (R112, R123). -/
def encode (i : Instr) : Word :=
  match i with
  | .nop => commandWord 0x00 0 0
  | .lb1p64k => commandWord 0x10 0 0
  | .lb1p1k => commandWord 0x11 0 0
  | .lb2p64k f => commandWord 0x12 0 (f.setWidth 16)
  | .lb2p1k f => commandWord 0x13 0 (f.setWidth 16)
  | .lb8p fw => commandWord 0x14 0 ((BitVec.ofBool fw).setWidth 16)
  | .lbAuto => commandWord 0x1F 0 0
  | .pl1p64k => commandWord 0x20 0 0
  | .pl1p1k => commandWord 0x21 0 0
  | .pl2p64k => commandWord 0x22 0 0
  | .pl2p1k => commandWord 0x23 0 0
  | .pl8p => commandWord 0x24 0 0
  | .plAuto => commandWord 0x2F 0 0
  | .diff => commandWord 0x30 0 0
  | .lqCurrent u => commandWord 0x40 u 0
  | .lqWrite u => commandWord 0x41 u 0
  | .lqCommit u => commandWord 0x42 u 0
  | .lqRead u => commandWord 0x43 u 0
  | .lqReset u => commandWord 0x44 u 0
  | .fetch u => commandWord 0x50 u 0
  | .feed => commandWord 0x51 0 0
  | .maskBuild => commandWord 0x52 0 0
  | .updStart => commandWord 0x60 0 0
  | .prep => commandWord 0x61 0 0
  | .frameDone => commandWord 0x62 0 0
  | .updAck => commandWord 0x63 0 0

/-- The 32-bit command word whose bits are the low `nbits` bits of `w` (one word, bit 0 least significant). -/
def tableWord (nbits w : Nat) : Word := BitVec.ofNat 32 (w % 2 ^ nbits)

/-- The operation the decoder reads from the command word with bits `w`; none where it is reserved. -/
def decodeTableWord (nbits w : Nat) : Option Instr := (decodeWord (tableWord nbits w)).toOption

end Sys2Proof
end

