-- ==== Sys2Proof/Machine/Port.lean ====
section
/-! DEFINITION. The register port (10_state.md §2 to §6, 30_encoding.md R113), the `SYNC` agent (20_memory.md
R96), the platform's stores and the reset input (70 R290), and the lanes' own steps. -/

namespace Sys2Proof.Machine

/-! ### Reads -/

/-- The operand registers in the order of their offsets, from 0x000 (R22). -/
def operandList (o : Operands) : List Word :=
  [o.srcTo, o.srcFrom, o.dstDiff, o.lineIn, o.lineOut, o.wfBase, o.areaX, o.areaY, o.areaW, o.areaH,
   o.cropX, o.cropY, o.cropW, o.cropH, o.dcropX, o.dcropY, o.dcropW, o.dcropH, o.width]

/-- The code of a sequencer state (R31). -/
def seqCode : Seq → Nat
  | .idle => 0
  | .preparing => 1
  | .transmitting => 2
  | .done => 3

/-- A bit at a position. -/
def bitAt (b : Bool) (i : Nat) : Nat := if b then 2 ^ i else 0

/-- `STATUS` (R31). -/
def statusWord (s : State) : Word :=
  BitVec.ofNat 32 (seqCode s.seq + bitAt s.lane0.done 4 + bitAt s.lane1.done 5 + bitAt s.fdone 6 +
    bitAt s.lane0.busy 8 + bitAt s.lane1.busy 9)

/-- `UNIF` (R34). -/
def unifWord (s : State) : Word := BitVec.ofNat 32 (bitAt s.prevWhiteF 0 + bitAt s.prevBlackF 1)

/-- The control and status registers in the order of their offsets, from 0x080 (R24 to R35). -/
def controlList (s : State) : List Word :=
  [s.mode, s.ctrl, s.phase, s.phaseCount, BitVec.ofNat 32 s.lineNext, BitVec.ofNat 32 s.linesConsumed,
   s.error, statusWord s,
   BitVec.ofNat 32 s.lane0.queue.cur, BitVec.ofNat 32 s.lane0.queue.last,
   BitVec.ofNat 32 s.lane1.queue.cur, BitVec.ofNat 32 s.lane1.queue.last,
   s.rectX, s.rectY, s.rectW, s.rectH, unifWord s,
   s.resHost, s.lane0.res, s.lane1.res, s.resFeeder,
   BitVec.ofNat 32 s.lane0.row, BitVec.ofNat 32 s.lane1.row]

/-- The register at an offset below 0x10000; command ports and reserved offsets read 0 (R36, R37). -/
def registerRead (s : State) (off : Nat) : Word :=
  if off < 0x080 then (operandList s.operands).getD (off / 4) 0#32
  else (controlList s).getD ((off - 0x080) / 4) 0#32

/-- The read returns a word. -/
def answer (v : Word) (s : State) : Out := .next { s with readData := v }

/-- The slot is being filled: its lane's produce step is enabled and will write it (93 U16). -/
def slotInFlight (q : Lane) (i : Nat) (s : State) : Bool :=
  produceEnabled q s && !s.fdone && (getQueue q s).cur == i

/-- The window on `SLOT[q][i][j]` (R45): a fault where never written, any value while it is being filled (93 U16;
log 16). -/
def slotWindow (q : Lane) (i j : Nat) (s : State) : Out :=
  if i < s.cfg.qcap ∧ j < s.cfg.lineBytes then
    need (slotRead (getQueue q s) i) .slotUnwritten (fun row =>
      if slotInFlight q i s then
        answer ((Config.freeByte s.freeIdx).setWidth 32) { s with freeIdx := s.freeIdx + 1 }
      else answer ((row.getD j 0#8).setWidth 32) s)
  else answer 0#32 s

/-- An element of an array whose window has a stride of four bytes (R41 to R44). -/
inductive Element where
  /-- `DIRTY_LINES[y]` (R41) -/
  | dirtyLine (y : Nat)
  /-- `DIRTY_COLS[j]` (R42) -/
  | dirtyCol (j : Nat)
  /-- `LINE_THREADS[r]` (R43) -/
  | lineThread (r : Nat)
  /-- `MASK[i]` (R44) -/
  | mask (i : Nat)
  deriving DecidableEq, Repr

/-- Offset `off` is that of an element of the window of `n` elements, four bytes apart, from `base` on. -/
def inWindow (base n off : Nat) : Bool := decide (base ≤ off) && decide ((off - base) / 4 < n)

/-- The element at an offset (R41 to R44). On a large display the windows run into each other; where several
arrays have an element at the offset, the window with the highest base answers (log 10). -/
def elementAt (c : Config) (off : Nat) : Option Element :=
  if inWindow 0x50000 c.lineBytes off then some (.mask ((off - 0x50000) / 4))
  else if inWindow 0x40000 c.height off then some (.lineThread ((off - 0x40000) / 4))
  else if inWindow 0x30000 c.colBytes off then some (.dirtyCol ((off - 0x30000) / 4))
  else if inWindow 0x20000 c.height off then some (.dirtyLine ((off - 0x20000) / 4))
  else none

/-- A read of an array element (R41 to R44): a fault where a `LINE_THREADS` entry was never written (R43). -/
def readElement (e : Element) (s : State) : Out :=
  match e with
  | .dirtyLine y => answer (if lineDirty s.dirtyLines y then 1#32 else 0#32) s
  | .dirtyCol j => answer ((s.dirtyCols.getD j 0#8).setWidth 32) s
  | .lineThread r =>
    need (s.lineThreads[r]?).join .lineThreadUnwritten (fun l => answer (BitVec.ofNat 32 (laneNum l)) s)
  | .mask i => answer ((s.mask.getD i 0#8).setWidth 32) s

/-- A read at an offset of the register space (R40 to R45). What no rule names reads 0 (log 11). -/
def readOffset (off : Nat) (s : State) : Out :=
  if off < 0x10000 then answer (registerRead s off) s
  else if off < 0x20000 then
    need (lutRead s.lut (off - 0x10000)) .lutUnwritten (fun b => answer (b.setWidth 32) s)
  else if off < 0x1000000 then
    match elementAt s.cfg off with
    | some e => readElement e s
    | none => answer 0#32 s
  else if off < 0x1800000 then
    slotWindow .zero ((off - 0x1000000) / 0x4000) ((off - 0x1000000) % 0x4000) s
  else if off < 0x2000000 then
    slotWindow .one ((off - 0x1800000) / 0x4000) ((off - 0x1800000) % 0x4000) s
  else answer 0#32 s

/-- The offset of an address from `RE_BASE` (R21). The difference is taken modulo 2^32: where `RE_BASE + offset`
passes 2^32 - 1 the register space goes on at address 0, the model's choice (log 27). -/
def regOffset (c : Config) (addr : Word) : Nat := (addr - c.reBase).toNat

/-- The access is a whole aligned 32-bit word (R21, R80). A `LUT` or `SLOT` byte whose offset (R40, R45) is no multiple
of four is out of the port's reach (log 9). -/
def wordAccess (off bytes : Nat) : Bool := bytes == 4 && off % 4 == 0

/-- A register-port read (R113). -/
def portRead (addr : Word) (bytes : Nat) (s : State) : Out :=
  require (wordAccess (regOffset s.cfg addr) bytes) .badAccess (readOffset (regOffset s.cfg addr) s)

/-! ### Writes -/

/-- Write operand register number `i` (R22). -/
def setOperand (i : Nat) (v : Word) (o : Operands) : Operands :=
  match i with
  | 0 => { o with srcTo := v }
  | 1 => { o with srcFrom := v }
  | 2 => { o with dstDiff := v }
  | 3 => { o with lineIn := v }
  | 4 => { o with lineOut := v }
  | 5 => { o with wfBase := v }
  | 6 => { o with areaX := v }
  | 7 => { o with areaY := v }
  | 8 => { o with areaW := v }
  | 9 => { o with areaH := v }
  | 10 => { o with cropX := v }
  | 11 => { o with cropY := v }
  | 12 => { o with cropW := v }
  | 13 => { o with cropH := v }
  | 14 => { o with dcropX := v }
  | 15 => { o with dcropY := v }
  | 16 => { o with dcropW := v }
  | 17 => { o with dcropH := v }
  | 18 => { o with width := v }
  | _ => o

/-- RW(idle) registers and windows accept a write now: `SEQ` is `IDLE` or `DONE` (R21). -/
def writable (s : State) : Bool := s.seq == .idle || s.seq == .done

/-- A write to an RW(idle) register or window (R21, R305). -/
def idleWrite (s : State) (t : State) : Out := require (writable s) .registerLocked (.next t)

/-- The port of a command-port offset (R36). -/
def commandPort (off : Nat) : Option Port :=
  if off = 0x100 then some .host
  else if off = 0x104 then some .lane0
  else if off = 0x108 then some .lane1
  else if off = 0x10C then some .feeder
  else none

/-- The offset of a command port (R36). -/
def portOffset : Port → Nat
  | .host => 0x100
  | .lane0 => 0x104
  | .lane1 => 0x108
  | .feeder => 0x10C

/-- A write of an array element: the dirty arrays are RW(idle) (R41, R42), the others read-only (R43, R44). -/
def writeElement (e : Element) (v : Word) (s : State) : Out :=
  match e with
  | .dirtyLine y => idleWrite s { s with dirtyLines := s.dirtyLines.set y (v.getLsbD 0) }
  | .dirtyCol j => idleWrite s { s with dirtyCols := s.dirtyCols.set j (v.setWidth 8) }
  | .lineThread _ => .next s
  | .mask _ => .next s

/-- A write at an offset that is no command port. Reserved bits are not stored (R21), `ERROR` is write-one-to-set
in every state (R30, R262), read-only registers and windows and unnamed offsets ignore it (R21, R37; log 11). -/
def writeOffset (off : Nat) (v : Word) (s : State) : Out :=
  if off < 0x04C then idleWrite s { s with operands := setOperand (off / 4) v s.operands }
  else if off = 0x080 then idleWrite s { s with mode := v &&& 0x7FF#32 }
  else if off = 0x084 then idleWrite s { s with ctrl := v &&& 0x7#32 }
  else if off = 0x088 then idleWrite s { s with phase := v &&& 0xFFFF#32 }
  else if off = 0x08C then idleWrite s { s with phaseCount := v &&& 0xFFFF#32 }
  else if off = 0x098 then .next (flagError (v &&& errWritable) s)
  else if 0x20000 ≤ off ∧ off < 0x1000000 then
    match elementAt s.cfg off with
    | some e => writeElement e v s
    | none => .next s
  else .next s

/-! ### Steps of the other agents -/

/-- A `SYNC` step on `CUR_VIEW[q]` (R96); without `CDC_LAG` there is no such agent and nothing changes
(R49; log 7). -/
def syncCurStep (q : Lane) (s : State) : State :=
  if s.cfg.cdcLag then setQueue q { getQueue q s with curView := (getQueue q s).cur } s else s

/-- A `SYNC` step on `LAST_VIEW[q]` (R96). -/
def syncLastStep (q : Lane) (s : State) : State :=
  if s.cfg.cdcLag then setQueue q { getQueue q s with lastView := (getQueue q s).last } s else s

/-- The platform stores a byte in `MEM` (R52, R88). -/
def platformStore (addr : Word) (b : Byte) (s : State) : Out :=
  require (spanPopulated s.cfg { base := addr.toNat, len := 1 }) .unpopulated
    (.next { s with mem := memWrite s.mem addr.toNat b })

/-- The reset input: the state of R54; `MEM`, the parameters and what the agents do next are not the block's
(R290, R291; log 20). -/
def resetInput (s : State) : State :=
  { State.resetWith s.cfg s.mem with inbox := s.inbox, freeIdx := s.freeIdx }

/-- Nothing arrives: a lane with an enabled produce step takes it, lane 0 first; else the block keeps its state
(R275; log 6). -/
def quietStep (s : State) : Out :=
  if produceEnabled .zero s then produceStep .zero s
  else if produceEnabled .one s then produceStep .one s
  else .next s

/-! ### Where a command comes from -/

/-- A port on which an operation may be issued: its own lane's for `FETCH`, the feeder's for `FEED` and
`FRAME.DONE`, the host's for the rest (R120). -/
def usualPort (w : Word) : Port :=
  match decodeWord w with
  | .ok (.fetch u) => if u = 0#8 then .lane0 else .lane1
  | .ok .feed => .feeder
  | .ok .frameDone => .feeder
  | _ => .host

/-- The address of a command port. -/
def portAddr (c : Config) (p : Port) : Word := c.reBase + BitVec.ofNat 32 (portOffset p)

end Sys2Proof.Machine
end

