-- ==== Sys2Proof/Machine/Command.lean ====
section
/-! DEFINITION. What each entry of the inbox does: commands written to the command ports (10_state.md R36,
30_encoding.md R110), other port accesses (R113), and the steps of the other agents. -/

namespace Sys2Proof.Machine

/-- A command word written to a command port issues one operation for that port's agent (R36, R110). A reserved
word is refused by name (R119). -/
def issueCommand (p : Port) (w : Word) (s : State) : Out :=
  match decodeWord w with
  | .error why => .refused (.reservedCommand why)
  | .ok i => exec i { s with issuer := p }

/-- A register-port write (R113). -/
def portWrite (addr : Word) (bytes : Nat) (v : Word) (s : State) : Out :=
  require (wordAccess (regOffset s.cfg addr) bytes) .badAccess
    (match commandPort (regOffset s.cfg addr) with
     | some p => issueCommand p v s
     | none => writeOffset (regOffset s.cfg addr) v s)

/-- One atomic step of one agent, or of the platform (R12, R94). -/
def handle (e : Event) (s : State) : Out :=
  match e with
  | .portWrite addr bytes v => portWrite addr bytes v s
  | .portRead addr bytes => portRead addr bytes s
  | .produce l => scheduleLane l s
  | .syncCur q => .next (syncCurStep q s)
  | .syncLast q => .next (syncLastStep q s)
  | .memStore addr b => platformStore addr b s
  | .reset => .next (resetInput s)

/-- The write of a command word to the command port of `p`. -/
def commandEvent (c : Config) (p : Port) (w : Word) : Event := .portWrite (portAddr c p) 4 w

/-- The write of a register at an offset. -/
def registerEvent (c : Config) (off : Nat) (v : Word) : Event := .portWrite (c.reBase + BitVec.ofNat 32 off) 4 v

/-- The write of a command word to a port on which it may be issued. -/
def fetchEvent (c : Config) (nbits w : Nat) : Event :=
  commandEvent c (usualPort (tableWord nbits w)) (tableWord nbits w)

end Sys2Proof.Machine
end

