-- ==== Sys2Proof/Machine/Step.lean ====
section
/-! DEFINITION. One step of the machine: what the next agent does (00_scope.md R12; log 5). -/

namespace Sys2Proof.Machine

/-- One atomic step: the next entry of the inbox, or a quiet step when nothing arrives (R12, R94, R275). -/
def step (s : State) : Host.Outcome State Fault Refusal :=
  match s.inbox with
  | [] => quietStep s
  | e :: rest => handle e { s with inbox := rest }

/-- `s` with the command word as the next thing that arrives, on a port that may issue it (log 5). -/
def State.withFetchWord (s : State) (nbits w : Nat) : State :=
  { s with inbox := fetchEvent s.cfg nbits w :: s.inbox }

end Sys2Proof.Machine
end

