-- ==== Sys2Proof/Safety.lean ====
section
/-! DEFINITION. What a good state is: the invariants the rules state, each a predicate of its own, and their
conjunction `Inv`; and the terms in which the statements say what an operation does. -/

namespace Sys2Proof.Machine

/-- Queue `x` has `QCAP` slots, and every row in them has `LINE_BYTES` bytes (10 R45). -/
abbrev QueueSized (c : Config) (x : Queue) : Prop :=
  x.slots.length = c.qcap ∧ ∀ o ∈ x.slots, ∀ row ∈ o, row.length = c.lineBytes

/-- Every internal array has the size 10_state.md gives it (R41, R42, R43, R44, R45). -/
abbrev Sized (s : State) : Prop :=
  s.dirtyLines.length = s.cfg.height ∧ s.dirtyCols.length = s.cfg.colBytes ∧
  s.lineThreads.length = s.cfg.height ∧ s.mask.length = s.cfg.lineBytes ∧
  QueueSized s.cfg s.lane0.queue ∧ QueueSized s.cfg s.lane1.queue

/-- `MEM` and the `LUT` are in canonical form: equal contents are equal data (R40, R52). -/
abbrev Canonical (s : State) : Prop := Memory.wf s.mem ∧ Lut.wf s.lut

/-- Reserved register bits are zero (R21, R24 to R27), and `ERROR` holds only the six causes (R261). -/
abbrev ReservedZero (s : State) : Prop :=
  s.mode.toNat < 2 ^ 11 ∧ s.ctrl.toNat < 2 ^ 3 ∧ s.phase.toNat < 2 ^ 16 ∧ s.phaseCount.toNat < 2 ^ 16 ∧
  s.error &&& ~~~errWritable = 0#32

/-- How far index `b` is ahead of index `a` round the ring (R211). -/
def ahead (c : Config) (a b : Nat) : Nat := (b + c.qcap - a) % c.qcap

/-- The four indices of a queue lie in the ring (R32, R49, R206). -/
abbrev IndicesOk (c : Config) (x : Queue) : Prop :=
  x.cur < c.qcap ∧ x.last < c.qcap ∧ x.curView < c.qcap ∧ x.lastView < c.qcap

/-- With `CDC_LAG` a view never runs ahead of its index, and the ring order is `LAST_VIEW`, `Qq_LAST`,
`CUR_VIEW`, `Qq_CUR` (R96). -/
abbrev ViewsOk (c : Config) (x : Queue) : Prop :=
  c.cdcLag = true →
    ahead c x.lastView x.last + ahead c x.last x.curView + ahead c x.curView x.cur < c.qcap

/-- Every committed row stands in a slot that was written: slots `Qq_LAST .. Qq_CUR - 1` (R206). -/
abbrev CommittedWritten (c : Config) (x : Queue) : Prop :=
  ∀ i < queueCount c x, (slotRead x ((x.last + i) % c.qcap)).isSome = true

/-- A queue in order (R206). -/
abbrev QueueOk (c : Config) (x : Queue) : Prop := IndicesOk c x ∧ ViewsOk c x ∧ CommittedWritten c x

/-- Both queues in order. -/
abbrev QueuesOk (s : State) : Prop := QueueOk s.cfg s.lane0.queue ∧ QueueOk s.cfg s.lane1.queue

/-- The row counters stay in range (R28, R29), every claimed row has its lane recorded (R93), and the progress
bits mean what R31 and R240 say: a done lane has found every row claimed and holds none, a busy lane holds a
claimed row, a finished frame had all its rows delivered. -/
abbrev ProgressOk (s : State) : Prop :=
  s.lineNext ≤ s.cfg.height ∧ s.linesConsumed ≤ s.cfg.height ∧
  (∀ r < s.lineNext, (s.lineThreads[r]?).join.isSome = true) ∧
  (∀ l : Lane, (getLane l s).done = true → s.lineNext = s.cfg.height ∧ (getLane l s).busy = false) ∧
  (∀ l : Lane, (getLane l s).busy = true → (getLane l s).row < s.lineNext) ∧
  (s.fdone = true → s.linesConsumed = s.cfg.height)

/-- An update is in progress. -/
def updating (s : State) : Bool := s.seq == .preparing || s.seq == .transmitting

/-- `Select` finds a layout. -/
def hasLayout (s : State) : Bool := (selectLayout s.mode s.ctrl).toOption.isSome

/-- What always holds during an update (R236): a phase of the waveform, a layout, a good geometry; and no lane is
busy outside `TRANSMITTING` (R240). -/
abbrev SequencerOk (s : State) : Prop :=
  (updating s = true → s.phase.toNat < s.phaseCount.toNat ∧ hasLayout s = true ∧ geomOk s = true) ∧
  (s.seq ≠ .transmitting → s.lane0.busy = false ∧ s.lane1.busy = false)

/-- While rows are rendered, the part of the `LUT` that the selected layout occupies is written (R100, R306). -/
def LutReady (s : State) : Prop :=
  s.seq = .transmitting → ∀ l, selectLayout s.mode s.ctrl = .ok l →
    ∀ i < layoutSize l, (lutRead s.lut i).isSome = true

/-- A good state. -/
def Inv (s : State) : Prop :=
  s.cfg.Valid ∧ Sized s ∧ Canonical s ∧ ReservedZero s ∧ QueuesOk s ∧ ProgressOk s ∧ SequencerOk s ∧ LutReady s

/-! ### The terms of the statements -/

/-- The host issues the operation and the sequencer is idle: what R120 asks of the stand-alone operations. -/
abbrev hostIdle (s : State) : Prop := s.issuer = .host ∧ s.seq = .idle

/-- What a waveform build needs: a phase of the waveform (R140) whose 64 bytes are there (R88). -/
abbrev waveformReady (s : State) : Prop :=
  s.phase.toNat < s.phaseCount.toNat ∧ bufferRefusal s [phaseSpan s] [] = none

/-- The `LUT` holds the table `f` in its first `n` bytes. -/
abbrev lutHolds (lut : Cells) (n : Nat) (f : Nat → Byte) : Prop := ∀ i < n, lutRead lut i = some (f i)

/-- The direct `LB` operation of a layout (R142). -/
def lbOp : Layout → Instr
  | .l1p64k => .lb1p64k
  | .l1p1k => .lb1p1k
  | .l2p64k f => .lb2p64k f
  | .l2p1k f => .lb2p1k f
  | .l8p fw => .lb8p fw

/-- The direct `PL` operation of a layout (R169). -/
def plOp : Layout → Instr
  | .l1p64k => .pl1p64k
  | .l1p1k => .pl1p1k
  | .l2p64k _ => .pl2p64k
  | .l2p1k _ => .pl2p1k
  | .l8p _ => .pl8p

/-- The action code of a pixel `v` under the layout whose table was built in state `s`: a transition byte for the
1P layouts, a target nibble for the 2P layouts, a target bit for the 8P layout (R170, R230). -/
def pixelCode (s : State) (l : Layout) (v : Byte) : Code :=
  match l with
  | .l1p64k => phaseCode s (hi4 v) (lo4 v)
  | .l1p1k => phaseCode s (hi4 v) (lo4 v)
  | .l2p64k f => phaseCode s (lo4 v) f
  | .l2p1k f => phaseCode s (lo4 v) f
  | .l8p fw => monoCode s.cfg fw (v.getLsbD 0)

/-- Pixel `x` of the input line of a stand-alone lookup (R161, R170). -/
def linePixel (s : State) (p : Packing) (x : Nat) : Byte :=
  let base := s.operands.lineIn.toNat
  match p with
  | .diff1 => memRead s.mem (base + x)
  | .fb4 => (nibbleOf (memRead s.mem (base + x / 2)) x).setWidth 8
  | .mono8 => if (memRead s.mem (base + x / 8)).getLsbD (7 - x % 8) then 1#8 else 0#8

/-- `in[i]` of a stand-alone lookup: the byte at `LINE_IN + i`, 0 beyond the line (R161, R162). -/
def lineByte (s : State) (p : Packing) (i : Nat) : Nat :=
  if i < lineLength p s.operands.width.toNat then (memRead s.mem (s.operands.lineIn.toNat + i)).toNat else 0

/-- The row of `w` pixels at `base` has the bytes `byte q`, with `00` in every pair from column `w` on (R162). -/
abbrev rowIs (m : Cells) (base w : Nat) (byte : Nat → Byte) : Prop :=
  ∀ q < ceilDiv w 4, ∀ p < 4,
    pair (memRead m (base + q)) p = if 4 * q + p < w then pair (byte q) p else 0b00#2

/-- Every byte of `MEM` outside a run reads as before. -/
abbrev keptOutside (p : Span) (m m' : Cells) : Prop :=
  ∀ a, spanHas p a = false → memRead m' a = memRead m a

/-- The pixel lies in the crop of `DIFF` (R11, R181). -/
abbrev inCrop (s : State) (x y : Nat) : Prop :=
  s.operands.dcropX.toInt ≤ (x : Int) ∧ (x : Int) < s.operands.dcropX.toInt + s.operands.dcropW.toNat ∧
  s.operands.dcropY.toInt ≤ (y : Int) ∧ (y : Int) < s.operands.dcropY.toInt + s.operands.dcropH.toNat

/-- The pixel differs between the two images (R181). -/
abbrev changed (s : State) (x y : Nat) : Prop := toPixel s x y ≠ fromPixel s x y

/-- The issuing port may produce on queue `q`: nobody or itself has (R307). -/
abbrev mayProduce (q : Lane) (s : State) : Prop :=
  (getQueue q s).producer = none ∨ (getQueue q s).producer = some s.issuer

/-- The issuing port may consume on queue `q` (R307). -/
abbrev mayConsume (q : Lane) (s : State) : Prop :=
  (getQueue q s).consumer = none ∨ (getQueue q s).consumer = some s.issuer

/-- The committed rows of a queue, oldest first: slots `Qq_LAST .. Qq_CUR - 1` (R206). -/
def committedRows (c : Config) (x : Queue) : List (Option Row) :=
  (List.range (queueCount c x)).map (fun i => slotRead x ((x.last + i) % c.qcap))

/-- `n` times `LQ.WRITE q` then `LQ.COMMIT q` (R207, R124 `LQ.PUSH`). -/
def pushRows (q : Lane) : Nat → State → Out
  | 0, s => .next s
  | n + 1, s =>
    match exec (.lqWrite (laneUnit q)) s with
    | .next t =>
      match exec (.lqCommit (laneUnit q)) t with
      | .next u => pushRows q n u
      | .fault f => .fault f
      | .refused r => .refused r
    | .fault f => .fault f
    | .refused r => .refused r

/-- The ports R120 lets issue an operation. -/
def legalPorts : Instr → List Port
  | .nop => [.host, .lane0, .lane1, .feeder]
  | .lqCurrent u => if u = 0#8 then [.host, .lane0] else [.host, .lane1]
  | .lqWrite u => if u = 0#8 then [.host, .lane0] else [.host, .lane1]
  | .lqCommit u => if u = 0#8 then [.host, .lane0] else [.host, .lane1]
  | .lqRead _ => [.host, .feeder]
  | .fetch u => if u = 0#8 then [.lane0] else [.lane1]
  | .feed => [.feeder]
  | .frameDone => [.feeder]
  | .lb1p64k => [.host]
  | .lb1p1k => [.host]
  | .lb2p64k _ => [.host]
  | .lb2p1k _ => [.host]
  | .lb8p _ => [.host]
  | .lbAuto => [.host]
  | .pl1p64k => [.host]
  | .pl1p1k => [.host]
  | .pl2p64k => [.host]
  | .pl2p1k => [.host]
  | .pl8p => [.host]
  | .plAuto => [.host]
  | .diff => [.host]
  | .lqReset _ => [.host]
  | .maskBuild => [.host]
  | .updStart => [.host]
  | .prep => [.host]
  | .updAck => [.host]

/-- The sequencer state R120 asks of an operation; none for `NOP`. -/
def legalSeq : Instr → Option Seq
  | .nop => none
  | .lb1p64k => some .idle
  | .lb1p1k => some .idle
  | .lb2p64k _ => some .idle
  | .lb2p1k _ => some .idle
  | .lb8p _ => some .idle
  | .lbAuto => some .idle
  | .pl1p64k => some .idle
  | .pl1p1k => some .idle
  | .pl2p64k => some .idle
  | .pl2p1k => some .idle
  | .pl8p => some .idle
  | .plAuto => some .idle
  | .diff => some .idle
  | .lqCurrent _ => some .idle
  | .lqWrite _ => some .idle
  | .lqCommit _ => some .idle
  | .lqRead _ => some .idle
  | .lqReset _ => some .idle
  | .fetch _ => some .transmitting
  | .feed => some .transmitting
  | .maskBuild => some .idle
  | .updStart => some .idle
  | .prep => some .preparing
  | .frameDone => some .transmitting
  | .updAck => some .done

/-- The values of R54, as the register port, the windows and the trace show them. -/
def AtReset (t : State) : Prop :=
  (∀ off < 0x10000, registerRead t off = 0#32) ∧
  t.mask = List.replicate t.cfg.lineBytes 0xFF#8 ∧
  t.dirtyLines = List.replicate t.cfg.height false ∧ t.dirtyCols = List.replicate t.cfg.colBytes 0x00#8 ∧
  (∀ i, lutRead t.lut i = none) ∧ (∀ q i, slotRead (getQueue q t) i = none) ∧
  (∀ r : Nat, (t.lineThreads[r]?).join = none) ∧
  (∀ q, (getQueue q t).curView = 0 ∧ (getQueue q t).lastView = 0) ∧ t.busOut = []

/-- `DIRTY_LINES[y]` is the element that answers at 0x20000 + 4 * y (R41; where `DIRTY_COLS` or `LINE_THREADS` has
an element there too, that one answers: log 10). -/
abbrev lineAnswers (c : Config) (y : Nat) : Prop :=
  y < c.height ∧ (y < 0x4000 ∨ (y < 0x8000 ∧ c.colBytes ≤ y - 0x4000))

/-- `DIRTY_COLS[j]` is the element that answers at 0x30000 + 4 * j (R42; log 10). -/
abbrev colAnswers (c : Config) (j : Nat) : Prop :=
  j < c.colBytes ∧ (j < 0x4000 ∨ (j < 0x8000 ∧ c.height ≤ j - 0x4000))

/-- `LINE_THREADS[r]` is the element that answers at 0x40000 + 4 * r (R43; log 10). -/
abbrev threadAnswers (c : Config) (r : Nat) : Prop :=
  r < c.height ∧ (r < 0x4000 ∨ (r < 0x10000 ∧ c.lineBytes ≤ r - 0x4000))

/-- No window has an element at the offset, which lies outside the register file, the `LUT` window and the `SLOT`
window (log 11). -/
abbrev offsetUnnamed (c : Config) (off : Nat) : Prop :=
  (0x20000 ≤ off ∧ off < 0x1000000 ∧ c.height ≤ (off - 0x20000) / 4 ∧
    (off < 0x30000 ∨ c.colBytes ≤ (off - 0x30000) / 4) ∧ (off < 0x40000 ∨ c.height ≤ (off - 0x40000) / 4) ∧
    (off < 0x50000 ∨ c.lineBytes ≤ (off - 0x50000) / 4)) ∨
  (0x2000000 ≤ off ∧ off < 2 ^ 32)

/-- One of the runs holds the address. -/
abbrev spansHold (ps : List Span) (a : Nat) : Prop := ∃ p ∈ ps, spanHas p a = true

/-- The platform populates the address (R88, log 4). -/
abbrev populatedAt (c : Config) (a : Nat) : Prop := ∃ r ∈ c.populated, r.1 ≤ a ∧ a < r.1 + r.2

/-- The next input is the command word `w` on the port `p`. -/
abbrev nextCommand (s : State) (p : Port) (w : Word) : Prop := ∃ rest, s.inbox = commandEvent s.cfg p w :: rest

end Sys2Proof.Machine
end

