-- ==== Sys2Proof/Certificates/Slice0/Obligations.lean ====
section
/-! DEFINITION. The statements, from the numbered rules of spec/. A conclusion of the form
`exec i s = .next { s with … }` says the whole next state: every field it does not name is as before. -/

section

open Sys2Proof Sys2Proof.Machine

/-! ### Command words -/

/-- R112: the word of every row of the opcode map decodes to its operation, whatever its operand. -/
def Obligations.OpcodeMapDecodes : Prop :=
  decodeWord 0x00000000#32 = .ok .nop ∧
  decodeWord 0x10000000#32 = .ok .lb1p64k ∧
  decodeWord 0x11000000#32 = .ok .lb1p1k ∧
  (∀ f : Nibble, decodeWord (0x12000000#32 ||| f.setWidth 32) = .ok (.lb2p64k f)) ∧
  (∀ f : Nibble, decodeWord (0x13000000#32 ||| f.setWidth 32) = .ok (.lb2p1k f)) ∧
  decodeWord 0x14000000#32 = .ok (.lb8p false) ∧
  decodeWord 0x14000001#32 = .ok (.lb8p true) ∧
  decodeWord 0x1F000000#32 = .ok .lbAuto ∧
  decodeWord 0x20000000#32 = .ok .pl1p64k ∧
  decodeWord 0x21000000#32 = .ok .pl1p1k ∧
  decodeWord 0x22000000#32 = .ok .pl2p64k ∧
  decodeWord 0x23000000#32 = .ok .pl2p1k ∧
  decodeWord 0x24000000#32 = .ok .pl8p ∧
  decodeWord 0x2F000000#32 = .ok .plAuto ∧
  decodeWord 0x30000000#32 = .ok .diff ∧
  (∀ u : BitVec 8, u.toNat < 2 →
    decodeWord (0x40000000#32 ||| u.setWidth 32 <<< 16) = .ok (.lqCurrent u) ∧
    decodeWord (0x41000000#32 ||| u.setWidth 32 <<< 16) = .ok (.lqWrite u) ∧
    decodeWord (0x42000000#32 ||| u.setWidth 32 <<< 16) = .ok (.lqCommit u) ∧
    decodeWord (0x43000000#32 ||| u.setWidth 32 <<< 16) = .ok (.lqRead u) ∧
    decodeWord (0x44000000#32 ||| u.setWidth 32 <<< 16) = .ok (.lqReset u) ∧
    decodeWord (0x50000000#32 ||| u.setWidth 32 <<< 16) = .ok (.fetch u)) ∧
  decodeWord 0x51000000#32 = .ok .feed ∧
  decodeWord 0x52000000#32 = .ok .maskBuild ∧
  decodeWord 0x60000000#32 = .ok .updStart ∧
  decodeWord 0x61000000#32 = .ok .prep ∧
  decodeWord 0x62000000#32 = .ok .frameDone ∧
  decodeWord 0x63000000#32 = .ok .updAck

/-- R110 to R112, R119: a word decodes to an operation exactly when the operation is well formed and the word is its
encoding: no bit of a command word is dropped, and no two words share an operation. -/
def Obligations.DecodeIffEncode : Prop :=
  ∀ (w : Word) (i : Instr), decodeWord w = .ok i ↔ i.WellFormed ∧ encode i = w

/-- R119: every reserved word is named for what is wrong with it, and writing one to a command port is refused. -/
def Obligations.ReservedWordsRefused : Prop :=
  (∀ w : Word, opcField w ∉ ([0x00, 0x10, 0x11, 0x12, 0x13, 0x14, 0x1F, 0x20, 0x21, 0x22, 0x23, 0x24, 0x2F, 0x30,
      0x40, 0x41, 0x42, 0x43, 0x44, 0x50, 0x51, 0x52, 0x60, 0x61, 0x62, 0x63] : List (BitVec 8)) →
    decodeWord w = .error .unknownOpcode) ∧
  (∀ w : Word, opcField w ∈ ([0x00, 0x10, 0x11, 0x12, 0x13, 0x14, 0x1F, 0x20, 0x21, 0x22, 0x23, 0x24, 0x2F, 0x30,
      0x51, 0x52, 0x60, 0x61, 0x62, 0x63] : List (BitVec 8)) → unitField w ≠ 0#8 →
    decodeWord w = .error .unitNotZero) ∧
  (∀ w : Word, opcField w ∈ ([0x00, 0x10, 0x11, 0x1F, 0x20, 0x21, 0x22, 0x23, 0x24, 0x2F, 0x30, 0x51, 0x52, 0x60,
      0x61, 0x62, 0x63] : List (BitVec 8)) → unitField w = 0#8 → argField w ≠ 0#16 →
    decodeWord w = .error .argNotZero) ∧
  (∀ w : Word, opcField w = 0x12#8 ∨ opcField w = 0x13#8 → unitField w = 0#8 → 16 ≤ (argField w).toNat →
    decodeWord w = .error .argNotZero) ∧
  (∀ w : Word, opcField w = 0x14#8 → unitField w = 0#8 → 2 ≤ (argField w).toNat →
    decodeWord w = .error .argNotZero) ∧
  (∀ w : Word, opcField w ∈ ([0x40, 0x41, 0x42, 0x43, 0x44, 0x50] : List (BitVec 8)) → 2 ≤ (unitField w).toNat →
    decodeWord w = .error .unitOutOfRange) ∧
  (∀ w : Word, opcField w ∈ ([0x40, 0x41, 0x42, 0x43, 0x44, 0x50] : List (BitVec 8)) → (unitField w).toNat < 2 →
    argField w ≠ 0#16 → decodeWord w = .error .argNotZero) ∧
  (∀ (s : State) (p : Port) (w : Word) (why : Reserved), nextCommand s p w → decodeWord w = .error why →
    step s = .refused (.reservedCommand why))

/-- R36, R110: when the next input is a command word on a port, the step executes the operation the word decodes to,
for that port's agent; and the word the model's host places is the next one executed, on a port R120 lets issue it.
That inputs arrive in an inbox is the model's (log 5). -/
def Obligations.StepRunsCommand : Prop :=
  (∀ (s : State) (rest : List Event) (p : Port) (w : Word) (i : Instr),
    s.inbox = commandEvent s.cfg p w :: rest → decodeWord w = .ok i →
      step s = exec i { s with inbox := rest, issuer := p }) ∧
  ∀ (s : State) (nbits w : Nat) (i : Instr), decodeTableWord nbits w = some i →
    ∃ p ∈ legalPorts i, step (s.withFetchWord nbits w) = exec i { s with issuer := p }

/-- R120, and R224's busy lane: a well-formed operation is refused on a port that may not issue it, then on a lane
whose `FETCH` is in progress, then in a sequencer state that does not allow it; otherwise it is not refused for any
of the three. -/
def Obligations.LegalityOfOperations : Prop :=
  ∀ (i : Instr) (s : State), i.WellFormed →
    (s.issuer ∉ legalPorts i → exec i s = .refused .portNotAllowed) ∧
    (s.issuer ∈ legalPorts i → issuerHeld s = true → exec i s = .refused .laneBusy) ∧
    (s.issuer ∈ legalPorts i → issuerHeld s = false → (∃ q, legalSeq i = some q ∧ s.seq ≠ q) →
      exec i s = .refused .seqNotAllowed) ∧
    (s.issuer ∈ legalPorts i → issuerHeld s = false → (∀ q, legalSeq i = some q → s.seq = q) →
      exec i s ≠ .refused .portNotAllowed ∧ exec i s ≠ .refused .laneBusy ∧ exec i s ≠ .refused .seqNotAllowed)

/-! ### Reset -/

/-- R54, R290, R291: the reset input, in any state, leaves the values of the table; `MEM` and the parameters are
untouched. `State.reset` has those values too. -/
def Obligations.ResetValues : Prop :=
  (∀ (s : State) (rest : List Event), s.inbox = .reset :: rest →
    ∃ t, step s = .next t ∧ AtReset t ∧ t.mem = s.mem ∧ t.cfg = s.cfg) ∧
  AtReset State.reset

/-- `State.reset` is a good state. -/
def Obligations.ResetSatisfiesInvariant : Prop := Inv State.reset

/-! ### The register port -/

/-- R22, R24 to R27, R41, R42: while the sequencer is `IDLE` or `DONE` a write to each register stores its named
bits there and nothing else, reserved bits are not stored (R21), and what was stored reads back; a write to an
element of a dirty array stores that element. Where two arrays have an element at one offset of a large display,
the one that answers is the model's choice (log 10). -/
def Obligations.RegisterWritesStore : Prop :=
  ∀ (s : State) (v : Word), s.seq = .idle ∨ s.seq = .done →
    handle (registerEvent s.cfg 0x000 v) s = .next { s with operands := { s.operands with srcTo := v } } ∧
    handle (registerEvent s.cfg 0x004 v) s = .next { s with operands := { s.operands with srcFrom := v } } ∧
    handle (registerEvent s.cfg 0x008 v) s = .next { s with operands := { s.operands with dstDiff := v } } ∧
    handle (registerEvent s.cfg 0x00C v) s = .next { s with operands := { s.operands with lineIn := v } } ∧
    handle (registerEvent s.cfg 0x010 v) s = .next { s with operands := { s.operands with lineOut := v } } ∧
    handle (registerEvent s.cfg 0x014 v) s = .next { s with operands := { s.operands with wfBase := v } } ∧
    handle (registerEvent s.cfg 0x018 v) s = .next { s with operands := { s.operands with areaX := v } } ∧
    handle (registerEvent s.cfg 0x01C v) s = .next { s with operands := { s.operands with areaY := v } } ∧
    handle (registerEvent s.cfg 0x020 v) s = .next { s with operands := { s.operands with areaW := v } } ∧
    handle (registerEvent s.cfg 0x024 v) s = .next { s with operands := { s.operands with areaH := v } } ∧
    handle (registerEvent s.cfg 0x028 v) s = .next { s with operands := { s.operands with cropX := v } } ∧
    handle (registerEvent s.cfg 0x02C v) s = .next { s with operands := { s.operands with cropY := v } } ∧
    handle (registerEvent s.cfg 0x030 v) s = .next { s with operands := { s.operands with cropW := v } } ∧
    handle (registerEvent s.cfg 0x034 v) s = .next { s with operands := { s.operands with cropH := v } } ∧
    handle (registerEvent s.cfg 0x038 v) s = .next { s with operands := { s.operands with dcropX := v } } ∧
    handle (registerEvent s.cfg 0x03C v) s = .next { s with operands := { s.operands with dcropY := v } } ∧
    handle (registerEvent s.cfg 0x040 v) s = .next { s with operands := { s.operands with dcropW := v } } ∧
    handle (registerEvent s.cfg 0x044 v) s = .next { s with operands := { s.operands with dcropH := v } } ∧
    handle (registerEvent s.cfg 0x048 v) s = .next { s with operands := { s.operands with width := v } } ∧
    handle (registerEvent s.cfg 0x080 v) s = .next { s with mode := v &&& 0x000007FF#32 } ∧
    handle (registerEvent s.cfg 0x084 v) s = .next { s with ctrl := v &&& 0x00000007#32 } ∧
    handle (registerEvent s.cfg 0x088 v) s = .next { s with phase := v &&& 0x0000FFFF#32 } ∧
    handle (registerEvent s.cfg 0x08C v) s = .next { s with phaseCount := v &&& 0x0000FFFF#32 } ∧
    (∀ p ∈ ((List.range 19).map (fun i => (4 * i, 0xFFFFFFFF#32)) ++
        [(0x080, 0x000007FF#32), (0x084, 0x00000007#32), (0x088, 0x0000FFFF#32), (0x08C, 0x0000FFFF#32)] :
        List (Nat × Word)),
      ∃ t u, handle (registerEvent s.cfg p.1 v) s = .next t ∧
        handle (.portRead (s.cfg.reBase + BitVec.ofNat 32 p.1) 4) t = .next u ∧ u.readData = v &&& p.2) ∧
    (∀ y, lineAnswers s.cfg y → s.dirtyLines.length = s.cfg.height →
      ∃ d, handle (registerEvent s.cfg (0x20000 + 4 * y) v) s = .next { s with dirtyLines := d } ∧
        ∀ z, lineDirty d z = if z = y then v.getLsbD 0 else lineDirty s.dirtyLines z) ∧
    (∀ j, colAnswers s.cfg j → s.dirtyCols.length = s.cfg.colBytes →
      ∃ d, handle (registerEvent s.cfg (0x30000 + 4 * j) v) s = .next { s with dirtyCols := d } ∧
        ∀ k, d.getD k 0#8 = if k = j then v.setWidth 8 else s.dirtyCols.getD k 0#8)

/-- R305: a write to an RW(idle) register, or to an element of the `DIRTY_LINES` or `DIRTY_COLS` window, during an
update is refused. R21, R37: a write to a read-only register, to a reserved offset, to the `LUT` or the `SLOT` window
or to an element of `LINE_THREADS` or `MASK` is ignored in every sequencer state. Which element answers where two
windows of a large display meet is the model's choice (log 10); so is it that offsets above 0xFFFF at which no window
has an element read 0 and ignore writes (log 11), in the `SLOT` window too. -/
def Obligations.WritesWithoutEffect : Prop :=
  (∀ (s : State) (v : Word), s.seq = .preparing ∨ s.seq = .transmitting →
    (∀ off : Nat, off % 4 = 0 → off < 0x04C ∨ (0x080 ≤ off ∧ off ≤ 0x08C) →
      handle (registerEvent s.cfg off v) s = .refused .registerLocked) ∧
    (∀ y, lineAnswers s.cfg y → handle (registerEvent s.cfg (0x20000 + 4 * y) v) s = .refused .registerLocked) ∧
    (∀ j, colAnswers s.cfg j → handle (registerEvent s.cfg (0x30000 + 4 * j) v) s = .refused .registerLocked)) ∧
  (∀ (s : State) (v : Word),
    (∀ off : Nat, off % 4 = 0 →
      (0x04C ≤ off ∧ off < 0x080) ∨ (0x090 ≤ off ∧ off < 0x098) ∨ (0x09C ≤ off ∧ off < 0x100) ∨
        (0x110 ≤ off ∧ off < 0x20000) ∨ (0x1000000 ≤ off ∧ off < 0x2000000) →
      handle (registerEvent s.cfg off v) s = .next s) ∧
    (∀ r, threadAnswers s.cfg r → handle (registerEvent s.cfg (0x40000 + 4 * r) v) s = .next s) ∧
    (∀ i < 0x4000, i < s.cfg.lineBytes → handle (registerEvent s.cfg (0x50000 + 4 * i) v) s = .next s) ∧
    (∀ off : Nat, off % 4 = 0 → offsetUnnamed s.cfg off →
      handle (registerEvent s.cfg off v) s = .next s ∧
        handle (.portRead (s.cfg.reBase + BitVec.ofNat 32 off) 4) s = .next { s with readData := 0#32 }))

/-- R30, R262: a write to `ERROR`, in every sequencer state, sets the written ones of the six causes and clears
nothing; and whatever a step does, a set bit is cleared only by reset and by `UPD.START`. -/
def Obligations.ErrorBitsSticky : Prop :=
  (∀ (s : State) (v : Word),
    handle (registerEvent s.cfg 0x098 v) s = .next { s with error := s.error ||| (v &&& 0x5C3#32) }) ∧
  ∀ s t : State, step s = .next t → s.error &&& ~~~t.error = 0#32 ∨
    (∃ rest, s.inbox = .reset :: rest) ∨
    (∃ addr rest, s.inbox = .portWrite addr 4 0x60000000#32 :: rest ∧
      commandPort (regOffset s.cfg addr) = some .host)

/-- R22 to R37, R40 to R45: a read changes nothing but the word it returns (and the model's own count of free
values, log 16), and what it returns: the register at each offset (`STATUS` and `UNIF`: `StatusFields`), 0 at
reserved offsets and command ports, and window by window the element; a `LUT` byte, a `LINE_THREADS` entry or a slot
never written since reset is a fault (R264). A `LUT` or `SLOT` byte at an offset that is no multiple of 4 is not
readable (`BadAccessRefused`; log 9). Which element answers where two windows of a large display meet is the model's
choice (log 10). A slot its own lane is about to write is left out: its bytes are a free value (log 16). What
`LANE_ROW0` and `LANE_ROW1` hold while the lane is not busy is log 28's. -/
def Obligations.RegisterReadsReturn : Prop :=
  ∀ s : State,
    (∀ (t : State) (addr : Word) (bytes : Nat), handle (.portRead addr bytes) s = .next t →
      t = { s with readData := t.readData, freeIdx := t.freeIdx }) ∧
    (∀ off < 0x10000, off % 4 = 0 →
      handle (.portRead (s.cfg.reBase + BitVec.ofNat 32 off) 4) s =
        .next { s with readData := registerRead s off }) ∧
    registerRead s 0x000 = s.operands.srcTo ∧ registerRead s 0x004 = s.operands.srcFrom ∧
    registerRead s 0x008 = s.operands.dstDiff ∧ registerRead s 0x00C = s.operands.lineIn ∧
    registerRead s 0x010 = s.operands.lineOut ∧ registerRead s 0x014 = s.operands.wfBase ∧
    registerRead s 0x018 = s.operands.areaX ∧ registerRead s 0x01C = s.operands.areaY ∧
    registerRead s 0x020 = s.operands.areaW ∧ registerRead s 0x024 = s.operands.areaH ∧
    registerRead s 0x028 = s.operands.cropX ∧ registerRead s 0x02C = s.operands.cropY ∧
    registerRead s 0x030 = s.operands.cropW ∧ registerRead s 0x034 = s.operands.cropH ∧
    registerRead s 0x038 = s.operands.dcropX ∧ registerRead s 0x03C = s.operands.dcropY ∧
    registerRead s 0x040 = s.operands.dcropW ∧ registerRead s 0x044 = s.operands.dcropH ∧
    registerRead s 0x048 = s.operands.width ∧ registerRead s 0x080 = s.mode ∧ registerRead s 0x084 = s.ctrl ∧
    registerRead s 0x088 = s.phase ∧ registerRead s 0x08C = s.phaseCount ∧
    registerRead s 0x090 = BitVec.ofNat 32 s.lineNext ∧ registerRead s 0x094 = BitVec.ofNat 32 s.linesConsumed ∧
    registerRead s 0x098 = s.error ∧ registerRead s 0x0A0 = BitVec.ofNat 32 s.lane0.queue.cur ∧
    registerRead s 0x0A4 = BitVec.ofNat 32 s.lane0.queue.last ∧
    registerRead s 0x0A8 = BitVec.ofNat 32 s.lane1.queue.cur ∧
    registerRead s 0x0AC = BitVec.ofNat 32 s.lane1.queue.last ∧ registerRead s 0x0B0 = s.rectX ∧
    registerRead s 0x0B4 = s.rectY ∧ registerRead s 0x0B8 = s.rectW ∧ registerRead s 0x0BC = s.rectH ∧
    registerRead s 0x0C4 = s.resHost ∧ registerRead s 0x0C8 = s.lane0.res ∧ registerRead s 0x0CC = s.lane1.res ∧
    registerRead s 0x0D0 = s.resFeeder ∧ registerRead s 0x0D4 = BitVec.ofNat 32 s.lane0.row ∧
    registerRead s 0x0D8 = BitVec.ofNat 32 s.lane1.row ∧
    (∀ off < 0x10000, off % 4 = 0 → (0x04C ≤ off ∧ off < 0x080) ∨ 0x0DC ≤ off → registerRead s off = 0#32) ∧
    (∀ i < 65536, i % 4 = 0 → ∀ b, lutRead s.lut i = some b →
      handle (.portRead (s.cfg.reBase + BitVec.ofNat 32 (0x10000 + i)) 4) s =
        .next { s with readData := b.setWidth 32 }) ∧
    (∀ i < 65536, i % 4 = 0 → lutRead s.lut i = none →
      handle (.portRead (s.cfg.reBase + BitVec.ofNat 32 (0x10000 + i)) 4) s = .fault .lutUnwritten) ∧
    (∀ y, lineAnswers s.cfg y →
      handle (.portRead (s.cfg.reBase + BitVec.ofNat 32 (0x20000 + 4 * y)) 4) s =
        .next { s with readData := if lineDirty s.dirtyLines y then 1#32 else 0#32 }) ∧
    (∀ j, colAnswers s.cfg j →
      handle (.portRead (s.cfg.reBase + BitVec.ofNat 32 (0x30000 + 4 * j)) 4) s =
        .next { s with readData := (s.dirtyCols.getD j 0#8).setWidth 32 }) ∧
    (∀ r, threadAnswers s.cfg r → ∀ l, s.lineThreads[r]? = some (some l) →
      handle (.portRead (s.cfg.reBase + BitVec.ofNat 32 (0x40000 + 4 * r)) 4) s =
        .next { s with readData := BitVec.ofNat 32 (laneNum l) }) ∧
    (∀ r, threadAnswers s.cfg r → s.lineThreads[r]? = some none →
      handle (.portRead (s.cfg.reBase + BitVec.ofNat 32 (0x40000 + 4 * r)) 4) s = .fault .lineThreadUnwritten) ∧
    (∀ i < 0x4000, i < s.cfg.lineBytes →
      handle (.portRead (s.cfg.reBase + BitVec.ofNat 32 (0x50000 + 4 * i)) 4) s =
        .next { s with readData := (s.mask.getD i 0#8).setWidth 32 }) ∧
    (∀ (q : Lane) (i j : Nat) (row : Row), i < s.cfg.qcap → i < 512 → j < s.cfg.lineBytes → j < 0x4000 →
      j % 4 = 0 → slotRead (getQueue q s) i = some row → slotInFlight q i s = false →
      handle (.portRead (s.cfg.reBase + BitVec.ofNat 32 (0x1000000 + laneNum q * 0x800000 + i * 0x4000 + j)) 4) s =
        .next { s with readData := (row.getD j 0#8).setWidth 32 }) ∧
    (∀ (q : Lane) (i j : Nat), i < s.cfg.qcap → i < 512 → j < s.cfg.lineBytes → j < 0x4000 →
      j % 4 = 0 → slotRead (getQueue q s) i = none →
      handle (.portRead (s.cfg.reBase + BitVec.ofNat 32 (0x1000000 + laneNum q * 0x800000 + i * 0x4000 + j)) 4) s =
        .fault .slotUnwritten)

/-- R31, R34: the fields of `STATUS` and of `UNIF` as the register port reads them; every other bit is 0. -/
def Obligations.StatusFields : Prop :=
  ∀ s : State,
    (registerRead s 0x09C).extractLsb' 0 2 =
      (match s.seq with
       | .idle => 0#2
       | .preparing => 1#2
       | .transmitting => 2#2
       | .done => 3#2) ∧
    (registerRead s 0x09C).getLsbD 4 = s.lane0.done ∧ (registerRead s 0x09C).getLsbD 5 = s.lane1.done ∧
    (registerRead s 0x09C).getLsbD 6 = s.fdone ∧
    (registerRead s 0x09C).getLsbD 8 = s.lane0.busy ∧ (registerRead s 0x09C).getLsbD 9 = s.lane1.busy ∧
    registerRead s 0x09C &&& ~~~0x373#32 = 0#32 ∧
    (registerRead s 0x0C0).getLsbD 0 = s.prevWhiteF ∧ (registerRead s 0x0C0).getLsbD 1 = s.prevBlackF ∧
    registerRead s 0x0C0 &&& ~~~0x3#32 = 0#32

/-- R80: a register-port access that is not a whole aligned word is refused, read or write, at every offset: a `LUT` or
`SLOT` byte that R40 or R45 places at an offset that is no multiple of 4 is refused too (log 9). Aligned is said of the
offset; `RE_BASE` is itself word aligned (R7), and the offset is the model's difference modulo 2^32 (log 27). -/
def Obligations.BadAccessRefused : Prop :=
  ∀ (s : State) (addr v : Word) (bytes : Nat), bytes ≠ 4 ∨ (addr - s.cfg.reBase).toNat % 4 ≠ 0 →
    handle (.portWrite addr bytes v) s = .refused .badAccess ∧ handle (.portRead addr bytes) s = .refused .badAccess

/-! ### `MEM` and `SYNC` -/

/-- 95 S5, R72: a pixel written and read back is the pixel written, and every other pixel of an image whose rows are
at most `2 * stride` wide keeps its value, the padding nibble of an odd row among them (R71). -/
def Obligations.PixelRoundTrip : Prop :=
  ∀ (m : Cells) (b stride x y : Nat) (v : Nibble), x < 2 * stride →
    pixRead (pixWrite m b stride x y v) b stride x y = v ∧
    ∀ x' y', x' < 2 * stride → (x', y') ≠ (x, y) →
      pixRead (pixWrite m b stride x y v) b stride x' y' = pixRead m b stride x' y'

/-- R96: with `CDC_LAG` a `SYNC` step copies an index to its view and nothing else; the full test looks at
`LAST_VIEW` and the empty test at `CUR_VIEW`; without it both look at the index itself (R95, R200). In a queue
in order a stale view can only make the producer see full, or the consumer see empty, when it is not. -/
def Obligations.SyncSteps : Prop :=
  (∀ (s : State) (q : Lane),
    (s.cfg.cdcLag = true →
      handle (.syncCur q) s = .next (setQueue q { getQueue q s with curView := (getQueue q s).cur } s) ∧
      handle (.syncLast q) s = .next (setQueue q { getQueue q s with lastView := (getQueue q s).last } s) ∧
      (queueFull s.cfg (getQueue q s) = true ↔
        ((getQueue q s).cur + 1) % s.cfg.qcap = (getQueue q s).lastView) ∧
      (queueEmpty s.cfg (getQueue q s) = true ↔ (getQueue q s).curView = (getQueue q s).last)) ∧
    (s.cfg.cdcLag = false →
      (queueFull s.cfg (getQueue q s) = true ↔
        ((getQueue q s).cur + 1) % s.cfg.qcap = (getQueue q s).last) ∧
      (queueEmpty s.cfg (getQueue q s) = true ↔ (getQueue q s).cur = (getQueue q s).last))) ∧
  ∀ (c : Config) (x : Queue), 2 ≤ c.qcap → QueueOk c x →
    (queueFull c x = false → queueCount c x < c.qcap - 1) ∧ (queueEmpty c x = false → 0 < queueCount c x)

/-- R87, R88, R264: an operation whose buffers overlap, leave the 32-bit address space or touch memory the platform
does not populate is refused: first what the check of a list of buffers answers, then, operation by operation, that
the operation is refused with that answer for its buffers (R84), which for `DIFF` are the whole images (R180). What
counts as a buffer and as an overlap, and the order of the three reasons, is the model's reading (log 13); that
buffers are checked where the operation accesses them, log 14; the populated addresses are a parameter (log 4). -/
def Obligations.BadBuffersRefused : Prop :=
  (∀ (s : State) (reads writes : List Span),
    ((∃ a, spansHold (reads ++ writes) a ∧ 2 ^ 32 ≤ a) → bufferRefusal s reads writes = some .bufferOutOfRange) ∧
    ((∀ a, spansHold (reads ++ writes) a → a < 2 ^ 32) →
      ((∃ a, spansHold (reads ++ writes) a ∧ ¬ populatedAt s.cfg a) →
        bufferRefusal s reads writes = some .unpopulated) ∧
      ((∀ a, spansHold (reads ++ writes) a → populatedAt s.cfg a) → bufferRefusal s reads writes = none)) ∧
    ((∃ a, (spansHold writes a ∧ spansHold reads a) ∨ (spansHold (reads ++ writes) a ∧
        s.operands.wfBase.toNat ≤ a ∧ a < s.operands.wfBase.toNat + 64 * s.phaseCount.toNat)) →
      twoBufferRefusal s reads writes = some .bufferOverlap) ∧
    ((¬ ∃ a, (spansHold writes a ∧ spansHold reads a) ∨ (spansHold (reads ++ writes) a ∧
        s.operands.wfBase.toNat ≤ a ∧ a < s.operands.wfBase.toNat + 64 * s.phaseCount.toNat)) →
      twoBufferRefusal s reads writes = bufferRefusal s reads writes)) ∧
  (∀ (s : State) (e : Refusal), hostIdle s →
    (∀ l, layoutUsesWaveform l = true → s.phase.toNat < s.phaseCount.toNat →
      bufferRefusal s [{ base := s.operands.wfBase.toNat + 64 * s.phase.toNat, len := 64 }] [] = some e →
      exec (lbOp l) s = .refused e) ∧
    (∀ l, twoBufferRefusal s
        [{ base := s.operands.lineIn.toNat, len := lineLength (layoutPacking l) s.operands.width.toNat }]
        [{ base := s.operands.lineOut.toNat, len := ceilDiv s.operands.width.toNat 4 }] = some e →
      exec (plOp l) s = .refused e) ∧
    (cropValid s = true →
      twoBufferRefusal s
        [{ base := s.operands.srcTo.toNat, len := ceilDiv s.cfg.width 2 * s.cfg.height },
         { base := s.operands.srcFrom.toNat, len := ceilDiv s.cfg.width 2 * s.cfg.height }]
        [{ base := s.operands.dstDiff.toNat, len := s.cfg.width * s.cfg.height }] = some e →
      exec .diff s = .refused e)) ∧
  (∀ (s : State) (q : Lane) (e : Refusal), s.seq = .idle → issuerHeld s = false →
    (s.issuer = .host ∨ s.issuer = lanePort q → mayProduce q s → queueFull s.cfg (getQueue q s) = false →
      bufferRefusal s [{ base := s.operands.lineIn.toNat, len := s.cfg.lineBytes }] [] = some e →
      exec (.lqWrite (laneUnit q)) s = .refused e) ∧
    (s.issuer = .host ∨ s.issuer = .feeder → mayConsume q s → queueEmpty s.cfg (getQueue q s) = false →
      bufferRefusal s [] [{ base := s.operands.lineOut.toNat, len := s.cfg.lineBytes }] = some e →
      exec (.lqRead (laneUnit q)) s = .refused e)) ∧
  (∀ (s : State) (l : Layout) (e : Refusal), selectLayout s.mode s.ctrl = .ok l →
    (s.issuer = .host → s.seq = .preparing → layoutUsesWaveform l = true →
      s.phase.toNat < s.phaseCount.toNat →
      bufferRefusal s [{ base := s.operands.wfBase.toNat + 64 * s.phase.toNat, len := 64 }] [] = some e →
      exec .prep s = .refused e) ∧
    (∀ (q : Lane) (rest : List Event), s.inbox = .produce q :: rest → (getLane q s).busy = true →
      s.fdone = false → queueFull s.cfg (getQueue q s) = false → rowActive s (getLane q s).row = true →
      bufferRefusal s (rowSpans s (layoutPacking l) (getLane q s).row) [] = some e →
      step s = .refused e))

/-! ### The LUT Builder -/

/-- R143: `LB.1P64K` writes the whole `LUT`; refused when `PHASE >= PHASE_COUNT` (R140). -/
def Obligations.Lb1P64KBuildsTable : Prop :=
  decodeWord 0x10000000#32 = .ok .lb1p64k ∧
  ∀ s : State, hostIdle s →
    (waveformReady s → ∃ lut, exec .lb1p64k s = .next { s with lut := lut, resHost := 0#32 } ∧
      ∀ d0 d1 : Byte, lutRead lut (d0.toNat + d1.toNat * 256) =
        some (quad 0#2 0#2 (phaseCode s (hi4 d0) (lo4 d0)) (phaseCode s (hi4 d1) (lo4 d1)))) ∧
    (s.phaseCount.toNat ≤ s.phase.toNat → exec .lb1p64k s = .refused .phaseOutOfRange)

/-- R144: `LB.1P1K` writes `LUT[0 .. 1023]` and leaves the rest. -/
def Obligations.Lb1P1KBuildsTable : Prop :=
  decodeWord 0x11000000#32 = .ok .lb1p1k ∧
  ∀ s : State, hostIdle s →
    (waveformReady s → ∃ lut, exec .lb1p1k s = .next { s with lut := lut, resHost := 0#32 } ∧
      (∀ p < 4, ∀ v : Byte, lutRead lut (256 * p + v.toNat) =
        some ((phaseCode s (hi4 v) (lo4 v)).setWidth 8 <<< (6 - 2 * p))) ∧
      ∀ i, 1024 ≤ i → lutRead lut i = lutRead s.lut i) ∧
    (s.phaseCount.toNat ≤ s.phase.toNat → exec .lb1p1k s = .refused .phaseOutOfRange)

/-- R146: `LB.2P64K F` writes the whole `LUT`, for every `F`. -/
def Obligations.Lb2P64KBuildsTable : Prop :=
  (∀ f : Nibble, decodeWord (0x12000000#32 ||| f.setWidth 32) = .ok (.lb2p64k f)) ∧
  ∀ (s : State) (f : Nibble), hostIdle s →
    (waveformReady s → ∃ lut, exec (.lb2p64k f) s = .next { s with lut := lut, resHost := 0#32 } ∧
      ∀ b0 b1 : Byte, lutRead lut (b0.toNat + b1.toNat * 256) =
        some (quad (phaseCode s (hi4 b0) f) (phaseCode s (lo4 b0) f)
          (phaseCode s (hi4 b1) f) (phaseCode s (lo4 b1) f))) ∧
    (s.phaseCount.toNat ≤ s.phase.toNat → exec (.lb2p64k f) s = .refused .phaseOutOfRange)

/-- R147: `LB.2P1K F` writes `LUT[0 .. 1023]` and leaves the rest: sub-tables 0 and 2 in the high nibble, 1 and 3 in
the low one. -/
def Obligations.Lb2P1KBuildsTable : Prop :=
  (∀ f : Nibble, decodeWord (0x13000000#32 ||| f.setWidth 32) = .ok (.lb2p1k f)) ∧
  ∀ (s : State) (f : Nibble), hostIdle s →
    (waveformReady s → ∃ lut, exec (.lb2p1k f) s = .next { s with lut := lut, resHost := 0#32 } ∧
      (∀ j < 4, ∀ b : Byte, lutRead lut (256 * j + b.toNat) =
        some (if j % 2 = 0 then quad (phaseCode s (hi4 b) f) (phaseCode s (lo4 b) f) 0#2 0#2
          else quad 0#2 0#2 (phaseCode s (hi4 b) f) (phaseCode s (lo4 b) f))) ∧
      ∀ i, 1024 ≤ i → lutRead lut i = lutRead s.lut i) ∧
    (s.phaseCount.toNat ≤ s.phase.toNat → exec (.lb2p1k f) s = .refused .phaseOutOfRange)

/-- R150, R151: `LB.8P FW` writes the fixed table from white or from black to `LUT[0 .. 255]` and leaves the rest,
whatever `PHASE` and `PHASE_COUNT`. -/
def Obligations.Lb8PWritesFixedTable : Prop :=
  (decodeWord 0x14000000#32 = .ok (.lb8p false) ∧ decodeWord 0x14000001#32 = .ok (.lb8p true)) ∧
  ∀ (s : State) (fw : Bool), hostIdle s →
    ∃ lut, exec (.lb8p fw) s = .next { s with lut := lut, resHost := 0#32 } ∧
      (∀ m : Byte, ∃ e, lutRead lut m.toNat = some e ∧ ∀ j < 4, pair e j =
        (match fw, m.getLsbD (7 - j) with
         | true, true => 0b00#2
         | true, false => s.cfg.codePushBlack
         | false, true => s.cfg.codePushWhite
         | false, false => 0b00#2)) ∧
      ∀ i, 256 ≤ i → lutRead lut i = lutRead s.lut i

/-- R141: `Select(MODE, CTRL)`, case by case. -/
def Obligations.SelectLayout : Prop :=
  ∀ mode ctrl : Word,
    ((bitAt (mode.getLsbD 6) 0 + bitAt (mode.getLsbD 7) 0 + bitAt (mode.getLsbD 8) 0 ≠ 1 →
      selectLayout mode ctrl = .error 0x001#32)) ∧
    (bitAt (mode.getLsbD 6) 0 + bitAt (mode.getLsbD 7) 0 + bitAt (mode.getLsbD 8) 0 = 1 →
      selectLayout mode ctrl =
        if mode.getLsbD 8 = true ∧ ctrl &&& 3#32 = 2#32 then .ok .l1p64k
        else if mode.getLsbD 8 = true ∧ ctrl &&& 3#32 = 1#32 then .ok .l1p1k
        else if mode.getLsbD 7 = true ∧ ctrl &&& 3#32 = 2#32 ∧ (mode.getLsbD 9 || mode.getLsbD 10) = true then
          .ok (.l2p64k (if mode.getLsbD 9 then 15#4 else 0#4))
        else if mode.getLsbD 7 = true ∧ ctrl &&& 3#32 = 1#32 ∧ (mode.getLsbD 9 || mode.getLsbD 10) = true then
          .ok (.l2p1k (if mode.getLsbD 9 then 15#4 else 0#4))
        else if mode.getLsbD 6 = true ∧ ctrl &&& 3#32 = 0#32 ∧ (mode.getLsbD 9 || mode.getLsbD 10) = true then
          .ok (.l8p (mode.getLsbD 9))
        else .error 0x002#32)

/-- R142: `LB.AUTO` flags and reports a failed selection and leaves the `LUT`; otherwise it performs the `LB`
operation of the selected layout. -/
def Obligations.LbAutoBuildsSelected : Prop :=
  decodeWord 0x1F000000#32 = .ok .lbAuto ∧
  ∀ s : State, hostIdle s →
    (∀ e, selectLayout s.mode s.ctrl = .error e →
      exec .lbAuto s = .next { s with error := s.error ||| e, resHost := e }) ∧
    (∀ l, selectLayout s.mode s.ctrl = .ok l → exec .lbAuto s = exec (lbOp l) s) ∧
    (∀ l, selectLayout s.mode s.ctrl = .ok l → buildRefusal s l = none → ∃ t, exec .lbAuto s = .next t)

/-- R145, R148: the 64 KB and the 1 KB tables built from one state agree on every action code. -/
def Obligations.LayoutsAgree : Prop :=
  ∀ s t u : State,
    (exec .lb1p64k s = .next t → exec .lb1p1k s = .next u → ∀ d x : Byte,
      ∃ e e', lutRead t.lut (d.toNat + x.toNat * 256) = some e ∧ lutRead t.lut (x.toNat + d.toNat * 256) = some e' ∧
        pair e 2 = phaseCode s (hi4 d) (lo4 d) ∧ pair e' 3 = phaseCode s (hi4 d) (lo4 d) ∧
        ∀ p < 4, ∃ b, lutRead u.lut (256 * p + d.toNat) = some b ∧ pair b p = phaseCode s (hi4 d) (lo4 d)) ∧
    (∀ f, exec (.lb2p64k f) s = .next t → exec (.lb2p1k f) s = .next u → ∀ b0 b1 : Byte, ∀ j, j = 0 ∨ j = 2 →
      ∃ e0 e1, lutRead u.lut (256 * j + b0.toNat) = some e0 ∧ lutRead u.lut (256 * (j + 1) + b1.toNat) = some e1 ∧
        lutRead t.lut (b0.toNat + b1.toNat * 256) = some (e0 ||| e1))

/-! ### The Pixel Lookup -/

/-- R164: `PL.1P64K`; an index whose `LUT` byte was never written is a fault. -/
def Obligations.Pl1P64KWritesRow : Prop :=
  decodeWord 0x20000000#32 = .ok .pl1p64k ∧
  ∀ s : State, hostIdle s → twoBufferRefusal s [lineInSpan s .diff1] [lineOutSpan s] = none →
    (∀ tab : Nat → Byte, lutHolds s.lut 65536 tab →
      ∃ m, exec .pl1p64k s = .next { s with mem := m, resHost := 0#32 } ∧
        rowIs m s.operands.lineOut.toNat s.operands.width.toNat (fun q =>
          lo4 (tab (lineByte s .diff1 (4 * q) + lineByte s .diff1 (4 * q + 1) * 256)) ++
            lo4 (tab (lineByte s .diff1 (4 * q + 2) + lineByte s .diff1 (4 * q + 3) * 256))) ∧
        keptOutside (lineOutSpan s) s.mem m) ∧
    (∀ q < ceilDiv s.operands.width.toNat 4,
      lutRead s.lut (lineByte s .diff1 (4 * q) + lineByte s .diff1 (4 * q + 1) * 256) = none ∨
        lutRead s.lut (lineByte s .diff1 (4 * q + 2) + lineByte s .diff1 (4 * q + 3) * 256) = none →
      exec .pl1p64k s = .fault .lutUnwritten)

/-- R165: `PL.1P1K`. -/
def Obligations.Pl1P1KWritesRow : Prop :=
  decodeWord 0x21000000#32 = .ok .pl1p1k ∧
  ∀ (s : State) (tab : Nat → Byte), hostIdle s → lutHolds s.lut 1024 tab →
    twoBufferRefusal s [lineInSpan s .diff1] [lineOutSpan s] = none →
    ∃ m, exec .pl1p1k s = .next { s with mem := m, resHost := 0#32 } ∧
      rowIs m s.operands.lineOut.toNat s.operands.width.toNat (fun q =>
        ((List.range 4).filter (fun p => decide (4 * q + p < s.operands.width.toNat))).foldl
          (fun out p => out ||| tab (256 * p + lineByte s .diff1 (4 * q + p))) 0x00#8) ∧
      keptOutside (lineOutSpan s) s.mem m

/-- R166: `PL.2P64K`. -/
def Obligations.Pl2P64KWritesRow : Prop :=
  decodeWord 0x22000000#32 = .ok .pl2p64k ∧
  ∀ (s : State) (tab : Nat → Byte), hostIdle s → lutHolds s.lut 65536 tab →
    twoBufferRefusal s [lineInSpan s .fb4] [lineOutSpan s] = none →
    ∃ m, exec .pl2p64k s = .next { s with mem := m, resHost := 0#32 } ∧
      rowIs m s.operands.lineOut.toNat s.operands.width.toNat (fun q =>
        tab (lineByte s .fb4 (2 * q) + lineByte s .fb4 (2 * q + 1) * 256)) ∧
      keptOutside (lineOutSpan s) s.mem m

/-- R167: `PL.2P1K`. -/
def Obligations.Pl2P1KWritesRow : Prop :=
  decodeWord 0x23000000#32 = .ok .pl2p1k ∧
  ∀ (s : State) (tab : Nat → Byte), hostIdle s → lutHolds s.lut 1024 tab →
    twoBufferRefusal s [lineInSpan s .fb4] [lineOutSpan s] = none →
    ∃ m, exec .pl2p1k s = .next { s with mem := m, resHost := 0#32 } ∧
      rowIs m s.operands.lineOut.toNat s.operands.width.toNat (fun q =>
        ([2 * q, 2 * q + 1].filter (fun i => decide (i < ceilDiv s.operands.width.toNat 2))).foldl
          (fun out i => out ||| tab (256 * (i % 4) + lineByte s .fb4 i)) 0x00#8) ∧
      keptOutside (lineOutSpan s) s.mem m

/-- R168: `PL.8P`. -/
def Obligations.Pl8PWritesRow : Prop :=
  decodeWord 0x24000000#32 = .ok .pl8p ∧
  ∀ (s : State) (tab : Nat → Byte), hostIdle s → lutHolds s.lut 256 tab →
    twoBufferRefusal s [lineInSpan s .mono8] [lineOutSpan s] = none →
    ∃ m, exec .pl8p s = .next { s with mem := m, resHost := 0#32 } ∧
      rowIs m s.operands.lineOut.toNat s.operands.width.toNat (fun q =>
        if q % 2 = 0 then tab (lineByte s .mono8 (q / 2)) else tab (lineByte s .mono8 (q / 2) * 16 % 256)) ∧
      keptOutside (lineOutSpan s) s.mem m

/-- R169: `PL.AUTO` flags and reports a failed selection and leaves `MEM`; otherwise it performs the `PL` operation
of the selected layout, on whatever the `LUT` holds. -/
def Obligations.PlAutoLooksUpSelected : Prop :=
  decodeWord 0x2F000000#32 = .ok .plAuto ∧
  ∀ s : State, hostIdle s →
    (∀ e, selectLayout s.mode s.ctrl = .error e →
      exec .plAuto s = .next { s with error := s.error ||| e, resHost := e }) ∧
    (∀ l, selectLayout s.mode s.ctrl = .ok l → exec .plAuto s = exec (plOp l) s) ∧
    (∀ (l : Layout) (tab : Nat → Byte), selectLayout s.mode s.ctrl = .ok l → lutHolds s.lut (layoutSize l) tab →
      twoBufferRefusal s [lineInSpan s (layoutPacking l)] [lineOutSpan s] = none → ∃ t, exec .plAuto s = .next t)

/-- R40, R264, R306: a lookup that needs a `LUT` byte never written since reset is a fault; `Pl1P64KWritesRow` says it of
`PL.1P64K`. -/
def Obligations.UnwrittenLutFaults : Prop :=
  ∀ (s : State) (q : Nat), hostIdle s → q < ceilDiv s.operands.width.toNat 4 →
    (twoBufferRefusal s [lineInSpan s .diff1] [lineOutSpan s] = none →
      ∀ p < 4, 4 * q + p < s.operands.width.toNat →
        lutRead s.lut (256 * p + lineByte s .diff1 (4 * q + p)) = none → exec .pl1p1k s = .fault .lutUnwritten) ∧
    (twoBufferRefusal s [lineInSpan s .fb4] [lineOutSpan s] = none →
      (lutRead s.lut (lineByte s .fb4 (2 * q) + lineByte s .fb4 (2 * q + 1) * 256) = none →
        exec .pl2p64k s = .fault .lutUnwritten) ∧
      (∀ i, i / 2 = q → i < ceilDiv s.operands.width.toNat 2 →
        lutRead s.lut (256 * (i % 4) + lineByte s .fb4 i) = none → exec .pl2p1k s = .fault .lutUnwritten)) ∧
    (twoBufferRefusal s [lineInSpan s .mono8] [lineOutSpan s] = none →
      lutRead s.lut (if q % 2 = 0 then lineByte s .mono8 (q / 2) else lineByte s .mono8 (q / 2) * 16 % 256) = none →
        exec .pl8p s = .fault .lutUnwritten)

/-- R170, R171: after `LB.<layout>` in state `s`, `PL.<layout>` in any state with that `LUT` gives every pixel `X` of
the line its own action code, from that pixel alone, and `00` beyond the width. -/
def Obligations.LookupGivesPixelCodes : Prop :=
  ∀ (s t u : State) (l : Layout), exec (lbOp l) s = .next t → u.lut = t.lut → hostIdle u →
    twoBufferRefusal u [lineInSpan u (layoutPacking l)] [lineOutSpan u] = none →
    ∃ m, exec (plOp l) u = .next { u with mem := m, resHost := 0#32 } ∧
      (∀ x < u.operands.width.toNat,
        pair (memRead m (u.operands.lineOut.toNat + x / 4)) (x % 4) =
          pixelCode s l (linePixel u (layoutPacking l) x)) ∧
      ∀ x, u.operands.width.toNat ≤ x → x < 4 * ceilDiv u.operands.width.toNat 4 →
        pair (memRead m (u.operands.lineOut.toNat + x / 4)) (x % 4) = 0b00#2

/-! ### `DIFF` -/

/-- R182: which crops are valid; on any other `DIFF` flags `INVALID_CROP`, reports it and changes nothing else. -/
def Obligations.DiffInvalidCrop : Prop :=
  ∀ s : State,
    (cropValid s = true ↔
      0 ≤ s.operands.dcropX.toInt ∧ 0 ≤ s.operands.dcropY.toInt ∧
      s.operands.dcropW.toNat ≤ 65535 ∧ s.operands.dcropH.toNat ≤ 65535 ∧
      s.operands.dcropX.toInt + s.operands.dcropW.toNat ≤ s.cfg.width ∧
      s.operands.dcropY.toInt + s.operands.dcropH.toNat ≤ s.cfg.height) ∧
    (hostIdle s → cropValid s = false →
      exec .diff s = .next { s with error := s.error ||| 0x040#32, resHost := 0x040#32 })

/-- R181, R183, R184, R185: what a valid `DIFF` whose images do not overlap writes (its buffers: log 13): the
transition byte of every pixel of the crop and no other byte of `MEM`, the dirty rows, the dirty columns with the
OR of `to ^ from`, and the uniformity flags. -/
def Obligations.DiffWrites : Prop :=
  decodeWord 0x30000000#32 = .ok .diff ∧
  ∀ s : State, hostIdle s → cropValid s = true → twoBufferRefusal s (diffReads s) (diffWrites s) = none →
    ∃ t, exec .diff s = .next t ∧
      t = { s with mem := t.mem, dirtyLines := t.dirtyLines, dirtyCols := t.dirtyCols, prevWhiteF := t.prevWhiteF,
                   prevBlackF := t.prevBlackF, rectX := t.rectX, rectY := t.rectY, rectW := t.rectW,
                   rectH := t.rectH, resHost := 0#32 } ∧
      (∀ x y, inCrop s x y →
        memRead t.mem (s.operands.dstDiff.toNat + y * s.cfg.width + x) = toPixel s x y ++ fromPixel s x y) ∧
      (∀ a, (∀ x y, inCrop s x y → a ≠ s.operands.dstDiff.toNat + y * s.cfg.width + x) →
        memRead t.mem a = memRead s.mem a) ∧
      (∀ y < s.cfg.height, lineDirty t.dirtyLines y = true ↔ ∃ x, inCrop s x y ∧ changed s x y) ∧
      (∀ x < s.cfg.width, ∀ i < 4, (nibbleOf (t.dirtyCols.getD (x / 2) 0#8) x).getLsbD i = true ↔
        ∃ y, inCrop s x y ∧ (toPixel s x y ^^^ fromPixel s x y).getLsbD i = true) ∧
      (t.prevWhiteF = true ↔ ∀ x y, inCrop s x y → fromPixel s x y = 15#4) ∧
      (t.prevBlackF = true ↔ ∀ x y, inCrop s x y → fromPixel s x y = 0#4)

/-- R186, R187: the rectangle of a valid `DIFF` is the least one that holds every changed pixel, and `{0, 0, 0, 0}`
when none changed. -/
def Obligations.DiffRectangle : Prop :=
  ∀ s : State, hostIdle s → cropValid s = true → twoBufferRefusal s (diffReads s) (diffWrites s) = none →
    ∃ t, exec .diff s = .next t ∧
      ((∀ x y, inCrop s x y → ¬ changed s x y) →
        t.rectX = 0#32 ∧ t.rectY = 0#32 ∧ t.rectW = 0#32 ∧ t.rectH = 0#32) ∧
      ((∃ x y, inCrop s x y ∧ changed s x y) →
        (∀ x y, inCrop s x y → changed s x y →
          t.rectX.toNat ≤ x ∧ x < t.rectX.toNat + t.rectW.toNat ∧
          t.rectY.toNat ≤ y ∧ y < t.rectY.toNat + t.rectH.toNat) ∧
        (∃ x y, inCrop s x y ∧ changed s x y ∧ x = t.rectX.toNat) ∧
        (∃ x y, inCrop s x y ∧ changed s x y ∧ x + 1 = t.rectX.toNat + t.rectW.toNat) ∧
        (∃ x y, inCrop s x y ∧ changed s x y ∧ y = t.rectY.toNat) ∧
        (∃ x y, inCrop s x y ∧ changed s x y ∧ y + 1 = t.rectY.toNat + t.rectH.toNat))

/-! ### The Line Queue -/

/-- R201: `LQ.CURRENT q` answers the writable slot's index, or `NOT_READY`, and changes nothing else. -/
def Obligations.LqCurrentAnswersSlot : Prop :=
  (∀ q : Lane, decodeWord (0x40000000#32 ||| (laneUnit q).setWidth 32 <<< 16) = .ok (.lqCurrent (laneUnit q))) ∧
  ∀ (s : State) (q : Lane), s.issuer = .host ∨ s.issuer = lanePort q → issuerHeld s = false → s.seq = .idle →
    exec (.lqCurrent (laneUnit q)) s = .next
      (setRes s.issuer
        (if queueFull s.cfg (getQueue q s) = true then 0xFFFFFFFF#32 else BitVec.ofNat 32 (getQueue q s).cur) s)

/-- R202: `LQ.WRITE q` fills the writable slot from `LINE_IN`, or answers `NOT_READY` and writes nothing. The
producer's marks are the model's (logs 15 and 22). -/
def Obligations.LqWriteFillsSlot : Prop :=
  (∀ q : Lane, decodeWord (0x41000000#32 ||| (laneUnit q).setWidth 32 <<< 16) = .ok (.lqWrite (laneUnit q))) ∧
  ∀ (s : State) (q : Lane), s.issuer = .host ∨ s.issuer = lanePort q → issuerHeld s = false → s.seq = .idle →
    mayProduce q s →
    (queueFull s.cfg (getQueue q s) = true →
      exec (.lqWrite (laneUnit q)) s = .next
        (setRes s.issuer 0xFFFFFFFF#32 (setQueue q { getQueue q s with producer := some s.issuer } s))) ∧
    (queueFull s.cfg (getQueue q s) = false → bufferRefusal s [queueInSpan s] [] = none →
      ∃ row : Row, row.length = s.cfg.lineBytes ∧
        (∀ i < s.cfg.lineBytes, row.getD i 0#8 = memRead s.mem (s.operands.lineIn.toNat + i)) ∧
        exec (.lqWrite (laneUnit q)) s = .next
          (setRes s.issuer 0#32 (setQueue q
            { getQueue q s with
              producer := some s.issuer, midSequence := true,
              slots := (getQueue q s).slots.set (getQueue q s).cur (some row) } s)))

/-- R203: `LQ.COMMIT q` ANDs `MASK` into the written slot and advances `Qq_CUR`; on a full queue it is refused, and
on a slot never written it is a fault (R264). The producer's marks are the model's (logs 15 and 22). -/
def Obligations.LqCommitMasksAndAdvances : Prop :=
  (∀ q : Lane, decodeWord (0x42000000#32 ||| (laneUnit q).setWidth 32 <<< 16) = .ok (.lqCommit (laneUnit q))) ∧
  ∀ (s : State) (q : Lane), s.issuer = .host ∨ s.issuer = lanePort q → issuerHeld s = false → s.seq = .idle →
    mayProduce q s →
    (queueFull s.cfg (getQueue q s) = true → exec (.lqCommit (laneUnit q)) s = .refused .commitOnFull) ∧
    (queueFull s.cfg (getQueue q s) = false → slotRead (getQueue q s) (getQueue q s).cur = none →
      exec (.lqCommit (laneUnit q)) s = .fault .slotUnwritten) ∧
    (∀ row : Row, queueFull s.cfg (getQueue q s) = false →
      slotRead (getQueue q s) (getQueue q s).cur = some row → row.length = s.cfg.lineBytes →
      s.mask.length = s.cfg.lineBytes →
      ∃ masked : Row, masked.length = s.cfg.lineBytes ∧
        (∀ i < s.cfg.lineBytes, masked.getD i 0#8 = row.getD i 0#8 &&& s.mask.getD i 0#8) ∧
        exec (.lqCommit (laneUnit q)) s = .next
          (setRes s.issuer 0#32 (setQueue q
            { getQueue q s with
              producer := some s.issuer, midSequence := false,
              slots := (getQueue q s).slots.set (getQueue q s).cur (some masked),
              cur := ((getQueue q s).cur + 1) % s.cfg.qcap } s)))

/-- R204: `LQ.READ q` copies the oldest committed row to `LINE_OUT`, writes no other byte and advances `Qq_LAST`, or
answers `EMPTY` and moves nothing. The consumer's mark is the model's (log 15). -/
def Obligations.LqReadCopiesOldest : Prop :=
  (∀ q : Lane, decodeWord (0x43000000#32 ||| (laneUnit q).setWidth 32 <<< 16) = .ok (.lqRead (laneUnit q))) ∧
  ∀ (s : State) (q : Lane), s.issuer = .host ∨ s.issuer = .feeder → s.seq = .idle → mayConsume q s →
    (queueEmpty s.cfg (getQueue q s) = true →
      exec (.lqRead (laneUnit q)) s = .next
        (setRes s.issuer 1#32 (setQueue q { getQueue q s with consumer := some s.issuer } s))) ∧
    (∀ row : Row, queueEmpty s.cfg (getQueue q s) = false → bufferRefusal s [] [queueOutSpan s] = none →
      slotRead (getQueue q s) (getQueue q s).last = some row → row.length = s.cfg.lineBytes →
      ∃ m, exec (.lqRead (laneUnit q)) s = .next
          (setRes s.issuer 0#32 (setQueue q
            { getQueue q s with
              consumer := some s.issuer, last := ((getQueue q s).last + 1) % s.cfg.qcap } { s with mem := m })) ∧
        (∀ i < s.cfg.lineBytes, memRead m (s.operands.lineOut.toNat + i) = row.getD i 0#8) ∧
        keptOutside (queueOutSpan s) s.mem m)

/-- R205: `LQ.RESET q` sets both indices and both views of queue `q` to 0 and keeps the slots; with a stand-alone
producer in mid-sequence it is refused (R304(c)). What mid-sequence is, between `LQ.WRITE q` and its `LQ.COMMIT q`, is
the model's reading (log 22); that a reset frees both ends for another agent is R307's (log 15). -/
def Obligations.LqResetEmptiesQueue : Prop :=
  (∀ q : Lane, decodeWord (0x44000000#32 ||| (laneUnit q).setWidth 32 <<< 16) = .ok (.lqReset (laneUnit q))) ∧
  ∀ (s : State) (q : Lane), hostIdle s →
    ((getQueue q s).midSequence = false →
      exec (.lqReset (laneUnit q)) s = .next
        (setRes .host 0#32 (setQueue q
          { getQueue q s with
            cur := 0, last := 0, curView := 0, lastView := 0, producer := none, consumer := none,
            midSequence := false } s))) ∧
    ((getQueue q s).midSequence = true → exec (.lqReset (laneUnit q)) s = .refused .queueInUse)

/-- R208: rows leave in the order they were committed, with the mask of their commit: `LQ.COMMIT` and the produce
step append the row ANDed with `MASK` to the committed rows of their queue, `LQ.READ` and `FEED` take the oldest away
and copy its bytes to `LINE_OUT` or, in bus order, to the trace, and `LQ.WRITE`, an empty `LQ.READ` and a `FEED` that
delivers no row of the queue change none of them. That the bytes of the trace are claimed of the records after a
starved one of the same phase too is the model's (log 17). -/
def Obligations.QueueFirstInFirstOut : Prop :=
  ∀ (s t : State) (q : Lane), 2 ≤ s.cfg.qcap → QueueOk s.cfg (getQueue q s) → QueueSized s.cfg (getQueue q s) →
    s.mask.length = s.cfg.lineBytes →
    (exec (.lqCommit (laneUnit q)) s = .next t →
      ∃ row masked : Row, slotRead (getQueue q s) (getQueue q s).cur = some row ∧
        (∀ i < s.cfg.lineBytes, masked.getD i 0#8 = row.getD i 0#8 &&& s.mask.getD i 0#8) ∧
        committedRows t.cfg (getQueue q t) = committedRows s.cfg (getQueue q s) ++ [some masked]) ∧
    (∀ rest, s.inbox = .produce q :: rest → (getLane q s).busy = true → s.fdone = false →
      queueFull s.cfg (getQueue q s) = false → step s = .next t →
      ∃ row masked : Row, (∀ k : Row → Out, renderRow s (getLane q s).row k = k row) ∧
        (∀ i < s.cfg.lineBytes, masked.getD i 0#8 = row.getD i 0#8 &&& s.mask.getD i 0#8) ∧
        committedRows t.cfg (getQueue q t) = committedRows s.cfg (getQueue q s) ++ [some masked]) ∧
    (exec (.lqRead (laneUnit q)) s = .next t →
      (queueEmpty s.cfg (getQueue q s) = false →
        ∃ row : Row, committedRows s.cfg (getQueue q s) = some row :: committedRows t.cfg (getQueue q t) ∧
          ∀ i < s.cfg.lineBytes, memRead t.mem (s.operands.lineOut.toNat + i) = row.getD i 0#8) ∧
      (queueEmpty s.cfg (getQueue q s) = true →
        committedRows t.cfg (getQueue q t) = committedRows s.cfg (getQueue q s))) ∧
    (exec .feed s = .next t →
      (s.linesConsumed < s.cfg.height ∧ s.linesConsumed < s.lineNext ∧
          s.lineThreads[s.linesConsumed]? = some (some q) ∧ queueEmpty s.cfg (getQueue q s) = false →
        ∃ row : Row, committedRows s.cfg (getQueue q s) = some row :: committedRows t.cfg (getQueue q t) ∧
          t.busOut = s.busOut ++ [{ phase := s.phase, row := s.linesConsumed, starved := false,
                                    bytes := reorder s.cfg row }]) ∧
      (¬ (s.linesConsumed < s.cfg.height ∧ s.linesConsumed < s.lineNext ∧
          s.lineThreads[s.linesConsumed]? = some (some q) ∧ queueEmpty s.cfg (getQueue q s) = false) →
        committedRows t.cfg (getQueue q t) = committedRows s.cfg (getQueue q s))) ∧
    (exec (.lqWrite (laneUnit q)) s = .next t →
      committedRows t.cfg (getQueue q t) = committedRows s.cfg (getQueue q s))

/-- R207, `CDC_LAG = false`: from an empty queue, `n` pushes succeed for every `n` up to `QCAP - 1` and leave `n` rows;
`LQ.CURRENT` then gives the slot's index below that and `NOT_READY` at it; after one `LQ.READ` of the full queue it
gives the slot again. -/
def Obligations.QueueCapacity : Prop :=
  ∀ (s : State) (q : Lane) (n : Nat), hostIdle s → s.cfg.cdcLag = false → 2 ≤ s.cfg.qcap → n < s.cfg.qcap →
    QueueSized s.cfg (getQueue q s) → (getQueue q s).cur < s.cfg.qcap →
    (getQueue q s).last = (getQueue q s).cur → (getQueue q s).producer = none → (getQueue q s).consumer = none →
    bufferRefusal s [queueInSpan s] [] = none → bufferRefusal s [] [queueOutSpan s] = none →
    ∃ t, pushRows q n s = .next t ∧ queueCount t.cfg (getQueue q t) = n ∧
      exec (.lqCurrent (laneUnit q)) t = .next (setRes .host
        (if n = s.cfg.qcap - 1 then 0xFFFFFFFF#32 else BitVec.ofNat 32 (getQueue q t).cur) t) ∧
      (n = s.cfg.qcap - 1 → ∃ u, exec (.lqRead (laneUnit q)) t = .next u ∧
        queueCount u.cfg (getQueue q u) = s.cfg.qcap - 2 ∧
        exec (.lqCurrent (laneUnit q)) u =
          .next (setRes .host (BitVec.ofNat 32 (getQueue q u).cur) u))

/-- R307: an operation of a second producer, or of a second consumer, on one queue is refused. Which operations count
is the model's reading (log 15). -/
def Obligations.OneProducerOneConsumer : Prop :=
  ∀ (s : State) (q : Lane) (p : Port), issuerHeld s = false → p ≠ s.issuer →
    ((getQueue q s).producer = some p →
      (s.seq = .idle → s.issuer = .host ∨ s.issuer = lanePort q →
        exec (.lqWrite (laneUnit q)) s = .refused .twoProducers ∧
        exec (.lqCommit (laneUnit q)) s = .refused .twoProducers) ∧
      (s.seq = .transmitting → s.issuer = lanePort q →
        exec (.fetch (laneUnit q)) s = .refused .twoProducers)) ∧
    ((getQueue q s).consumer = some p → s.seq = .idle → s.issuer = .host ∨ s.issuer = .feeder →
      exec (.lqRead (laneUnit q)) s = .refused .twoConsumers) ∧
    ((getQueue q s).consumer = some p → s.seq = .transmitting → s.issuer = .feeder →
      s.linesConsumed < s.cfg.height → exec .feed s = .refused .twoConsumers)

/-! ### The fetch lanes and the feeder -/

/-- R220: `NOP` writes its issuer's result register and nothing else, on every port in every sequencer state. -/
def Obligations.NopWritesResultOnly : Prop :=
  decodeWord 0x00000000#32 = .ok .nop ∧
  ∀ s : State, issuerHeld s = false → exec .nop s = .next (setRes s.issuer 0#32 s)

/-- R221: `MASK.BUILD` gives every byte of `MASK` the pair `11` for a dirty column of the display and `00` otherwise,
or 0xFF throughout when `DIRTY_EN` is 0. -/
def Obligations.MaskBuildKeepsDirtyColumns : Prop :=
  decodeWord 0x52000000#32 = .ok .maskBuild ∧
  ∀ s : State, hostIdle s →
    ∃ m, exec .maskBuild s = .next { s with mask := m, resHost := 0#32 } ∧ m.length = s.cfg.lineBytes ∧
      ∀ i < s.cfg.lineBytes, ∀ p < 4, pair (m.getD i 0#8) p =
        if s.ctrl.getLsbD 2 = false ∨ (4 * i + p < s.cfg.width ∧ colDirty s.dirtyCols (4 * i + p) = true) then 0b11#2
        else 0b00#2

/-- R225: the claim step of `FETCH l`: the next row is claimed with its lane recorded, or, when none is left, the
lane is done with `NO_ROW` and the phase advance is tried; and what the phase advance does (R240). -/
def Obligations.FetchClaimsRow : Prop :=
  (∀ l : Lane, decodeWord (0x50000000#32 ||| (laneUnit l).setWidth 32 <<< 16) = .ok (.fetch (laneUnit l))) ∧
  (∀ (s : State) (l : Lane), s.issuer = lanePort l → (getLane l s).busy = false → s.seq = .transmitting →
    mayProduce l s →
    (s.lineNext < s.cfg.height →
      exec (.fetch (laneUnit l)) s = .next (setLane l
        { getLane l s with
          row := s.lineNext, busy := true, queue := { getQueue l s with producer := some s.issuer } }
        { s with lineNext := s.lineNext + 1, lineThreads := s.lineThreads.set s.lineNext (some l) })) ∧
    (s.cfg.height ≤ s.lineNext →
      exec (.fetch (laneUnit l)) s = .next (tryAdvance (setLane l
        { getLane l s with
          done := true, res := 1#32, queue := { getQueue l s with producer := some s.issuer } } s)).1)) ∧
  ∀ s : State,
    (¬ (s.seq = .transmitting ∧ s.fdone = true ∧ s.lane0.done = true ∧ s.lane1.done = true) →
      tryAdvance s = (s, 0#32)) ∧
    (s.seq = .transmitting → s.fdone = true → s.lane0.done = true → s.lane1.done = true →
      (s.error ≠ 0#32 → tryAdvance s = ({ s with seq := .done }, 2#32)) ∧
      (s.error = 0#32 → s.phase.toNat + 1 < s.phaseCount.toNat →
        tryAdvance s = ({ s with phase := s.phase + 1#32, seq := .preparing }, 1#32)) ∧
      (s.error = 0#32 → s.phaseCount.toNat ≤ s.phase.toNat + 1 → tryAdvance s = ({ s with seq := .done }, 2#32)))

/-- R226, R229, R230: the produce step of a lane with an active row and a free slot, the `LUT` holding the selected
layout's table as built in state `k`: the slot receives, for every covered display column, the action code of its
image pixel, `00` for every other, ANDed with `MASK`; the index advances and the `FETCH` is complete. The bytes whose
presence is checked are the model's reading (log 13), and so is it that `LANE_ROW` keeps the row (log 28); where `GeomOK` fails, which no good state meets, a negative
image coordinate counts as 0 (log 19). -/
def Obligations.ProduceRendersActiveRow : Prop :=
  ∀ (s k : State) (q : Lane) (rest : List Event) (l : Layout), s.inbox = .produce q :: rest →
    (getLane q s).busy = true → s.fdone = false → queueFull s.cfg (getQueue q s) = false →
    rowActive s (getLane q s).row = true → selectLayout s.mode s.ctrl = .ok l →
    lutHolds s.lut (layoutSize l) (layoutEntry k l) → s.mask.length = s.cfg.lineBytes →
    bufferRefusal s (rowSpans s (layoutPacking l) (getLane q s).row) [] = none →
    ∃ row : Row, row.length = s.cfg.lineBytes ∧
      step s = .next (setLane q
        { getLane q s with
          busy := false, res := 0#32,
          queue := { getQueue q s with
            slots := (getQueue q s).slots.set (getQueue q s).cur (some row),
            cur := ((getQueue q s).cur + 1) % s.cfg.qcap } } { s with inbox := rest }) ∧
      ∀ x < 4 * s.cfg.lineBytes, pair (row.getD (x / 4) 0#8) (x % 4) =
        (if x < s.cfg.width ∧ colCovered s x = true then
          pixelCode k l (imagePixel s (layoutPacking l) (getLane q s).row x)
         else 0b00#2) &&& pair (s.mask.getD (x / 4) 0#8) (x % 4)

/-- R226, R229: the produce step of a row that is not covered, or not dirty with `DIRTY_EN`, commits the no-op row
without reading `MEM` or the `LUT`; after the frame is done the row is dropped and no slot is written; and while the
queue is full and the frame is not done the lane holds. That a scheduled lane that holds changes nothing is the
model's (log 7), and so is it that `LANE_ROW` keeps the row of a lane no longer busy (log 28). -/
def Obligations.ProduceOtherRows : Prop :=
  ∀ (s : State) (q : Lane) (rest : List Event), s.inbox = .produce q :: rest → (getLane q s).busy = true →
    (s.fdone = false → queueFull s.cfg (getQueue q s) = false → rowActive s (getLane q s).row = false →
      s.mask.length = s.cfg.lineBytes →
      step s = .next (setLane q
        { getLane q s with
          busy := false, res := 0#32,
          queue := { getQueue q s with
            slots := (getQueue q s).slots.set (getQueue q s).cur (some (List.replicate s.cfg.lineBytes 0x00#8)),
            cur := ((getQueue q s).cur + 1) % s.cfg.qcap } } { s with inbox := rest })) ∧
    (s.fdone = true → step s = .next
      (setLane q { getLane q s with busy := false, res := 0#32 } { s with inbox := rest })) ∧
    (s.fdone = false → queueFull s.cfg (getQueue q s) = true → step s = .next { s with inbox := rest })

/-- R222: which rows and columns of the display the area covers (the crop's size where there is a
crop, the image's where there is none), and which pixel of the image a covered one shows, always inside the image. -/
def Obligations.GeometryOfUpdate : Prop :=
  ∀ s : State,
    (0 < s.operands.cropW.toNat ∧ 0 < s.operands.cropH.toNat →
      (∀ r : Nat, rowCovered s r = true ↔ s.operands.areaY.toInt ≤ (r : Int) ∧
        (r : Int) < s.operands.areaY.toInt + s.operands.cropH.toNat) ∧
      (∀ x : Nat, colCovered s x = true ↔ s.operands.areaX.toInt ≤ (x : Int) ∧
        (x : Int) < s.operands.areaX.toInt + s.operands.cropW.toNat) ∧
      (geomOk s = true →
        (∀ r : Nat, rowCovered s r = true →
          (imgY s r : Int) = s.operands.cropY.toInt + (r - s.operands.areaY.toInt) ∧
            imgY s r < s.operands.areaH.toNat) ∧
        (∀ x : Nat, colCovered s x = true →
          (imgX s x : Int) = s.operands.cropX.toInt + (x - s.operands.areaX.toInt) ∧
            imgX s x < s.operands.areaW.toNat))) ∧
    (¬ (0 < s.operands.cropW.toNat ∧ 0 < s.operands.cropH.toNat) →
      (∀ r : Nat, rowCovered s r = true ↔ s.operands.areaY.toInt ≤ (r : Int) ∧
        (r : Int) < s.operands.areaY.toInt + s.operands.areaH.toNat) ∧
      (∀ x : Nat, colCovered s x = true ↔ s.operands.areaX.toInt ≤ (x : Int) ∧
        (x : Int) < s.operands.areaX.toInt + s.operands.areaW.toNat) ∧
      (∀ r : Nat, rowCovered s r = true →
        (imgY s r : Int) = r - s.operands.areaY.toInt ∧ imgY s r < s.operands.areaH.toNat) ∧
      (∀ x : Nat, colCovered s x = true →
        (imgX s x : Int) = x - s.operands.areaX.toInt ∧ imgX s x < s.operands.areaW.toNat))

/-- R227: `FEED` answers `NO_LINE` when all rows are delivered; else it delivers the oldest row of the claiming lane's
queue in bus order, or a no-op row with the starvation flag when the row is not claimed or its queue is empty. The
feeder's mark on both queues is the model's (log 15), and so is it that the bytes are claimed of the records after a
starved one of the same phase too (log 17). -/
def Obligations.FeedDeliversRow : Prop :=
  decodeWord 0x51000000#32 = .ok .feed ∧
  ∀ s : State, s.issuer = .feeder → s.seq = .transmitting →
    (s.cfg.height ≤ s.linesConsumed → exec .feed s = .next { s with resFeeder := 2#32 }) ∧
    (s.linesConsumed < s.cfg.height → mayConsume .zero s → mayConsume .one s →
      (s.lineNext ≤ s.linesConsumed ∨
        (∃ q, s.lineThreads[s.linesConsumed]? = some (some q) ∧ queueEmpty s.cfg (getQueue q s) = true) →
        exec .feed s = .next
          { setQueue .one { getQueue .one s with consumer := some .feeder }
              (setQueue .zero { getQueue .zero s with consumer := some .feeder } s) with
            linesConsumed := s.linesConsumed + 1, error := s.error ||| 0x400#32, resFeeder := 1#32,
            busOut := s.busOut ++ [{ phase := s.phase, row := s.linesConsumed, starved := true,
                                     bytes := reorder s.cfg (List.replicate s.cfg.lineBytes 0x00#8) }] }) ∧
      (∀ (q : Lane) (row : Row), s.linesConsumed < s.lineNext → s.lineThreads[s.linesConsumed]? = some (some q) →
        queueEmpty s.cfg (getQueue q s) = false → slotRead (getQueue q s) (getQueue q s).last = some row →
        exec .feed s = .next
          (let u := setQueue .one { getQueue .one s with consumer := some .feeder }
              (setQueue .zero { getQueue .zero s with consumer := some .feeder } s)
           { setQueue q { getQueue q u with last := ((getQueue q s).last + 1) % s.cfg.qcap } u with
            linesConsumed := s.linesConsumed + 1, resFeeder := 0#32,
            busOut := s.busOut ++ [{ phase := s.phase, row := s.linesConsumed, starved := false,
                                     bytes := reorder s.cfg row }] })))

/-- R79: the bus-order pass, group by group. -/
def Obligations.BusOrderPermutesGroups : Prop :=
  ∀ (c : Config) (row : Row) (g i : Nat), c.Valid → row.length = c.lineBytes → g < c.lineBytes / c.busGroup →
    i < c.busGroup → (reorder c row).length = c.lineBytes ∧
      (reorder c row).getD (g * c.busGroup + i) 0#8 = row.getD (g * c.busGroup + c.busPerm.getD i 0) 0#8

/-! ### The phase sequencer -/

/-- R233, R222: `UPD.START`: every failing check is flagged and ends the update at once; an update of no phases ends
at once without error; otherwise the mask is built and the sequencer prepares phase 0. -/
def Obligations.UpdStartChecksAndPrepares : Prop :=
  decodeWord 0x60000000#32 = .ok .updStart ∧
  ∀ (s : State) (e : Word), hostIdle s →
    e = (match selectLayout s.mode s.ctrl with
         | .error f => f
         | .ok _ => 0#32) |||
        (if s.operands.areaW.toNat ≤ 65535 ∧ s.operands.areaH.toNat ≤ 65535 ∧
            s.operands.cropW.toNat ≤ 65535 ∧ s.operands.cropH.toNat ≤ 65535 ∧
            (¬ (0 < s.operands.cropW.toNat ∧ 0 < s.operands.cropH.toNat) ∨
              (0 ≤ s.operands.cropX.toInt ∧ 0 ≤ s.operands.cropY.toInt ∧
                s.operands.cropX.toInt + s.operands.cropW.toNat ≤ (s.operands.areaW.toNat : Int) ∧
                s.operands.cropY.toInt + s.operands.cropH.toNat ≤ (s.operands.areaH.toNat : Int)))
         then 0#32 else 0x040#32) →
    exec .updStart s = .next
      { s with
        error := e, phase := 0#32, fdone := false, resHost := e,
        lane0 := { s.lane0 with done := false, busy := false },
        lane1 := { s.lane1 with done := false, busy := false },
        mask := if e ≠ 0#32 ∨ s.phaseCount = 0#32 then s.mask else buildMask s,
        seq := if e ≠ 0#32 ∨ s.phaseCount = 0#32 then .done else .preparing }

/-- R236: `PREP` writes the `LUT` as the `LB` operation of the selected layout does, clears the counters, the progress
bits and both queues' positions, and starts the transmission; slots, `MASK`, the dirty arrays, `LINE_THREADS` and
`ERROR` are as before. The model's readings: `PREP` frees both ends of the queues (log 15), it ends what mid-sequence
there is (log 22), and `LANE_ROW0` and `LANE_ROW1` keep their rows (log 28). -/
def Obligations.PrepStartsPhase : Prop :=
  decodeWord 0x61000000#32 = .ok .prep ∧
  ∀ (s : State) (l : Layout), s.issuer = .host → s.seq = .preparing → selectLayout s.mode s.ctrl = .ok l →
    buildRefusal s l = none →
    ∃ t, exec (lbOp l) { s with seq := .idle } = .next t ∧
      exec .prep s = .next
        { s with
          lut := t.lut, lineNext := 0, linesConsumed := 0, fdone := false, seq := .transmitting, resHost := 0#32,
          lane0 := { s.lane0 with
            done := false, busy := false,
            queue := { s.lane0.queue with
              cur := 0, last := 0, curView := 0, lastView := 0, producer := none, consumer := none,
              midSequence := false } },
          lane1 := { s.lane1 with
            done := false, busy := false,
            queue := { s.lane1.queue with
              cur := 0, last := 0, curView := 0, lastView := 0, producer := none, consumer := none,
              midSequence := false } } }

/-- R239: `FRAME.DONE` is refused before all rows are delivered and a second time in a phase; otherwise it sets
`FDONE`, and with both lanes done the phase ends: to `DONE` on an error or after the last phase, else to the next
phase (R240). -/
def Obligations.FrameDoneEndsFrame : Prop :=
  decodeWord 0x62000000#32 = .ok .frameDone ∧
  ∀ s : State, s.issuer = .feeder → s.seq = .transmitting →
    (s.linesConsumed ≠ s.cfg.height → exec .frameDone s = .refused .frameNotDelivered) ∧
    (s.linesConsumed = s.cfg.height → s.fdone = true → exec .frameDone s = .refused .frameAlreadyDone) ∧
    (s.linesConsumed = s.cfg.height → s.fdone = false →
      exec .frameDone s = .next
        (if s.lane0.done = true ∧ s.lane1.done = true then
          if s.error = 0#32 ∧ s.phase.toNat + 1 < s.phaseCount.toNat then
            { s with fdone := true, phase := s.phase + 1#32, seq := .preparing, resFeeder := 1#32 }
          else { s with fdone := true, seq := .done, resFeeder := 2#32 }
         else { s with fdone := true, resFeeder := 0#32 }))

/-- R242: `UPD.ACK` returns the sequencer to `IDLE` and keeps everything else. -/
def Obligations.UpdAckReturnsToIdle : Prop :=
  decodeWord 0x63000000#32 = .ok .updAck ∧
  ∀ s : State, s.issuer = .host → s.seq = .done →
    exec .updAck s = .next { s with seq := .idle, resHost := 0#32 }

/-- R232: whatever a step does, the sequencer state changes only along the table's transitions, each by its operation
and under its condition. -/
def Obligations.SequencerTransitions : Prop :=
  ∀ s t : State, step s = .next t → t.seq = s.seq ∨
    (∃ rest, s.inbox = .reset :: rest ∧ t.seq = .idle) ∨
    (∃ (p : Port) (addr w : Word) (rest : List Event) (i : Instr), s.inbox = .portWrite addr 4 w :: rest ∧
      commandPort (regOffset s.cfg addr) = some p ∧ decodeWord w = .ok i ∧
      ((i = .updStart ∧ s.seq = .idle ∧ t.phase = 0#32 ∧
          ((t.seq = .preparing ∧ t.error = 0#32 ∧ s.phaseCount ≠ 0#32) ∨
           (t.seq = .done ∧ (t.error ≠ 0#32 ∨ s.phaseCount = 0#32)))) ∨
        (i = .prep ∧ s.seq = .preparing ∧ t.seq = .transmitting) ∨
        ((i = .frameDone ∨ ∃ u, i = .fetch u) ∧ s.seq = .transmitting ∧ t.fdone = true ∧
          t.lane0.done = true ∧ t.lane1.done = true ∧
          ((t.seq = .preparing ∧ t.error = 0#32 ∧ s.phase.toNat + 1 < s.phaseCount.toNat ∧
              t.phase = s.phase + 1#32) ∨
           (t.seq = .done ∧ t.phase = s.phase ∧
              (t.error ≠ 0#32 ∨ s.phaseCount.toNat ≤ s.phase.toNat + 1)))) ∨
        (i = .updAck ∧ s.seq = .done ∧ t.seq = .idle)))

/-! ### Who writes what -/

/-- R22, R40, R44, R52, R84: no operation writes an operand register, `MODE`, `CTRL`, `PHASE_COUNT` or a parameter;
only the `LB` operations and `PREP` write the `LUT`; only `MASK.BUILD` and `UPD.START` write `MASK`; only the `PL`
operations, `DIFF` and `LQ.READ` write `MEM`; only `FEED` appends to the trace; only `DIFF` writes the dirty arrays,
the rectangle and the uniformity flags. R23: an operation writes no result register but its issuer's. -/
def Obligations.WhoWrites : Prop :=
  ∀ (i : Instr) (s t : State), exec i s = .next t →
    t.operands = s.operands ∧ t.mode = s.mode ∧ t.ctrl = s.ctrl ∧ t.phaseCount = s.phaseCount ∧ t.cfg = s.cfg ∧
    (t.lut ≠ s.lut → i = .lbAuto ∨ i = .prep ∨ ∃ l, i = lbOp l) ∧
    (t.mask ≠ s.mask → i = .maskBuild ∨ i = .updStart) ∧
    ((∃ a, memRead t.mem a ≠ memRead s.mem a) → i = .plAuto ∨ i = .diff ∨ (∃ l, i = plOp l) ∨ ∃ u, i = .lqRead u) ∧
    (t.busOut ≠ s.busOut → i = .feed) ∧
    ((t.dirtyLines ≠ s.dirtyLines ∨ t.dirtyCols ≠ s.dirtyCols ∨ t.rectX ≠ s.rectX ∨ t.rectY ≠ s.rectY ∨
      t.rectW ≠ s.rectW ∨ t.rectH ≠ s.rectH ∨ t.prevWhiteF ≠ s.prevWhiteF ∨ t.prevBlackF ≠ s.prevBlackF) → i = .diff) ∧
    (∀ p, p ≠ s.issuer → getRes p t = getRes p s)

/-! ### Invariants -/

/-- `MEM` and the `LUT` keep their canonical form in every step (the rows in the slots being `LINE_BYTES` long), and
two memories in that form that read alike everywhere are equal data (R52; the form is the model's). -/
def Obligations.CanonicalFormKept : Prop :=
  (∀ s t : State, Sized s → Canonical s → step s = .next t → Canonical t) ∧
  ∀ m n : Cells, Memory.wf m → Memory.wf n → (∀ a, memRead m a = memRead n a) → m = n

/-- R28, R29, R32, R45, R91 to R93, R206, R228, R236, R240 and the reserved bits of R21: every step takes a good state
to a good state. -/
def Obligations.InvariantKept : Prop :=
  ∀ s t : State, Inv s → step s = .next t → Inv t

/-- R228, R236, R306: in a good state neither `FEED` nor the produce step of a lane faults, and the selection of the
produce step does not fail. -/
def Obligations.NoFaultInUpdate : Prop :=
  ∀ s : State, Inv s →
    (∀ f, exec .feed s ≠ .fault f) ∧ (∀ l f, scheduleLane l s ≠ .fault f) ∧
    (∀ l, scheduleLane l s ≠ .refused .noLayout) ∧ exec .prep s ≠ .refused .noLayout

end
end

