-- ==== Sys2Proof/Laws/Bits.lean ====
section
/-! SUPPORT. Bit fields, rows and masks: what each is, pair by pair. -/

namespace Sys2Proof.Machine

theorem pair_quad_zero (p0 p1 p2 p3 : Code) : pair (quad p0 p1 p2 p3) 0 = p0 := by
  revert p0 p1 p2 p3; decide

theorem pair_quad_one (p0 p1 p2 p3 : Code) : pair (quad p0 p1 p2 p3) 1 = p1 := by
  revert p0 p1 p2 p3; decide

theorem pair_quad_two (p0 p1 p2 p3 : Code) : pair (quad p0 p1 p2 p3) 2 = p2 := by
  revert p0 p1 p2 p3; decide

theorem pair_quad_three (p0 p1 p2 p3 : Code) : pair (quad p0 p1 p2 p3) 3 = p3 := by
  revert p0 p1 p2 p3; decide

/-- The pairs of a byte are ANDed one by one. -/
theorem pair_and (a b : Byte) (i : Nat) : pair (a &&& b) i = pair a i &&& pair b i := by
  ext j hj
  simp [pair]

/-- The pairs of a byte are ORed one by one. -/
theorem pair_or (a b : Byte) (i : Nat) : pair (a ||| b) i = pair a i ||| pair b i := by
  ext j hj
  simp [pair]

/-- A byte is its four pairs. -/
theorem quad_pairs (b : Byte) : quad (pair b 0) (pair b 1) (pair b 2) (pair b 3) = b := by
  revert b; decide

/-- Two bytes with equal pairs are equal. -/
theorem byte_ext_pairs {a b : Byte} (h : ∀ i < 4, pair a i = pair b i) : a = b := by
  rw [← quad_pairs a, ← quad_pairs b, h 0 (by decide), h 1 (by decide), h 2 (by decide), h 3 (by decide)]

/-- A mask keeps the pairs of the columns that `keep` holds of, and clears the others. -/
theorem pair_pairMask (keep : Nat → Bool) (q i : Nat) (hi : i < 4) :
    pair (pairMask keep q) i = if keep (4 * q + i) then 0b11#2 else 0b00#2 := by
  have : i = 0 ∨ i = 1 ∨ i = 2 ∨ i = 3 := by omega
  unfold pairMask
  rcases this with rfl | rfl | rfl | rfl
  · exact pair_quad_zero _ _ _ _
  · exact pair_quad_one _ _ _ _
  · exact pair_quad_two _ _ _ _
  · exact pair_quad_three _ _ _ _

theorem pair_and_pairMask (b : Byte) (keep : Nat → Bool) (q i : Nat) (hi : i < 4) :
    pair (b &&& pairMask keep q) i = if keep (4 * q + i) then pair b i else 0b00#2 := by
  rw [pair_and, pair_pairMask _ _ _ hi]
  split
  · generalize pair b i = c
    revert c; decide
  · generalize pair b i = c
    revert c; decide

@[simp] theorem maskRow_length (keep : Nat → Bool) (n : Nat) : (maskRow keep n).length = n := by
  simp [maskRow]

theorem maskRow_getD (keep : Nat → Bool) (n q : Nat) (h : q < n) : (maskRow keep n).getD q 0#8 = pairMask keep q := by
  simp [maskRow, h]

@[simp] theorem andRow_length (row mask : List Byte) : (andRow row mask).length = min row.length mask.length := by
  simp [andRow]

theorem andRow_getD (row mask : List Byte) (q : Nat) (h : q < row.length) (h' : q < mask.length) :
    (andRow row mask).getD q 0#8 = row.getD q 0#8 &&& mask.getD q 0#8 := by
  simp [andRow, h, h']

/-- ANDing a row with a mask of columns, byte by byte. -/
theorem andRow_maskRow_getD (row : List Byte) (keep : Nat → Bool) (q : Nat) (h : q < row.length) :
    (andRow row (maskRow keep row.length)).getD q 0#8 = row.getD q 0#8 &&& pairMask keep q := by
  rw [andRow_getD _ _ _ h (by simpa using h), maskRow_getD _ _ _ h]

theorem hi4_append (a b : Nibble) : hi4 (a ++ b) = a := by
  revert a b; decide

theorem lo4_append (a b : Nibble) : lo4 (a ++ b) = b := by
  revert a b; decide

theorem hi4_append_lo4 (b : Byte) : hi4 b ++ lo4 b = b := by
  revert b; decide

/-- Every value is there exactly when the list of options is the list of the values. -/
theorem allSome_eq_some {α : Type} {os : List (Option α)} {xs : List α} :
    allSome os = some xs ↔ os = xs.map some := by
  induction os generalizing xs with
  | nil =>
    cases xs <;> simp [allSome]
  | cons o rest ih =>
    cases o with
    | none => cases xs <;> simp [allSome]
    | some x =>
      cases xs with
      | nil => simp [allSome]
      | cons y ys => simp [allSome, Option.map_eq_some_iff, ih, and_comm]

theorem allSome_length {α : Type} {os : List (Option α)} {xs : List α} (h : allSome os = some xs) :
    xs.length = os.length := by
  rw [allSome_eq_some.mp h]; simp

/-- A lookup whose every byte is there answers those bytes, cleared beyond the width. -/
theorem lookRow_of_all (w : Nat) (byte : Nat → Option Byte) (f : Nat → Byte)
    (h : ∀ q < ceilDiv w 4, byte q = some (f q)) :
    lookRow w byte = some (clearBeyond ((List.range (ceilDiv w 4)).map f) w) := by
  unfold lookRow
  have : allSome ((List.range (ceilDiv w 4)).map byte) = some ((List.range (ceilDiv w 4)).map f) := by
    rw [allSome_eq_some, List.map_map]
    apply List.map_congr_left
    intro q hq
    simpa using h q (List.mem_range.mp hq)
  rw [this]; rfl

@[simp] theorem clearBeyond_length (out : List Byte) (w : Nat) : (clearBeyond out w).length = out.length := by
  simp [clearBeyond]

/-- Every lookup answers `ceil(w/4)` bytes. -/
theorem lookRow_length {w : Nat} {byte : Nat → Option Byte} {row : Row} (h : lookRow w byte = some row) :
    row.length = ceilDiv w 4 := by
  unfold lookRow at h
  obtain ⟨out, ho, rfl⟩ := Option.map_eq_some_iff.mp h
  have := allSome_length ho
  simpa using this

/-- What a lookup answers, byte by byte (R162). -/
theorem lookRow_eq_some {w : Nat} {byte : Nat → Option Byte} {row : Row} (h : lookRow w byte = some row) :
    ∀ q < ceilDiv w 4, ∃ b, byte q = some b ∧ row.getD q 0#8 = b &&& pairMask (fun x => decide (x < w)) q := by
  unfold lookRow at h
  obtain ⟨out, ho, rfl⟩ := Option.map_eq_some_iff.mp h
  have hl : out.length = ceilDiv w 4 := by simpa using allSome_length ho
  intro q hq
  have hq' : q < out.length := by omega
  refine ⟨out.getD q 0#8, ?_, ?_⟩
  · have h2 := congrArg (fun l => l[q]?) (allSome_eq_some.mp ho)
    simpa [hq, hq'] using h2
  · exact andRow_maskRow_getD out _ q hq'

/-- The lookup of any layout answers `ceil(w/4)` bytes. -/
theorem lookLayout_length {l : Layout} {lut : Cells} {inp : List Byte} {w : Nat} {row : Row}
    (h : lookLayout l lut inp w = some row) : row.length = ceilDiv w 4 := by
  cases l <;> exact lookRow_length h

end Sys2Proof.Machine
end

