-- ==== Sys2Proof/Laws/Memory.lean ====
section
/-! SUPPORT. Read after write for `MEM` and the `LUT`, and that every operation keeps their canonical form. -/

namespace Sys2Proof.Machine

/-! ### Bytes by index -/

theorem cellGet_cellPut (m : Cells) (a : Nat) (b : Byte) (i : Nat) :
    cellGet (cellPut m a b) i = if i = a then some b else cellGet m i := by
  induction m with
  | nil => simp [cellPut, cellGet, eq_comm]
  | cons c rest ih =>
    obtain ⟨k, x⟩ := c
    unfold cellPut
    split
    · simp [cellGet, eq_comm]
    · split
      · rename_i h
        subst h
        by_cases h : i = a
        · simp [cellGet, h]
        · simp [cellGet, h, Ne.symm h]
      · rename_i h1 h2
        by_cases h : k = i
        · subst h
          simp [cellGet, Ne.symm h2]
        · simp [cellGet, h, ih]

theorem cellGet_cellDrop (m : Cells) (a i : Nat) :
    cellGet (cellDrop m a) i = if i = a then none else cellGet m i := by
  induction m with
  | nil => simp [cellDrop, cellGet]
  | cons c rest ih =>
    obtain ⟨k, x⟩ := c
    simp only [cellDrop, List.filter_cons] at ih ⊢
    by_cases hk : k = a
    · subst hk
      by_cases hi : i = k
      · simpa [hi, cellGet] using ih
      · simpa [hi, cellGet, Ne.symm hi] using ih
    · by_cases hi : k = i
      · subst hi
        simp [hk, cellGet]
      · simpa [hk, cellGet, hi] using ih

theorem cellGet_append (m n : Cells) (i : Nat) : cellGet (m ++ n) i = (cellGet m i).or (cellGet n i) := by
  induction m with
  | nil => simp [cellGet]
  | cons c rest ih =>
    obtain ⟨k, x⟩ := c
    by_cases h : k = i <;> simp [cellGet, h, ih]

theorem cellGet_filter_le (m : Cells) (n i : Nat) :
    cellGet (m.filter (fun c => decide (n ≤ c.1))) i = if n ≤ i then cellGet m i else none := by
  induction m with
  | nil => simp [cellGet]
  | cons c rest ih =>
    obtain ⟨k, x⟩ := c
    by_cases hk : n ≤ k
    · by_cases h : k = i
      · subst h
        simp [cellGet, hk]
      · simp [cellGet, hk, h, ih]
    · by_cases h : k = i
      · subst h
        simpa [cellGet, hk] using ih
      · simp [cellGet, hk, h, ih]

/-! ### `MEM` -/

/-- A byte reads as it was last written, and a write leaves every other byte alone. -/
theorem memRead_memWrite (m : Cells) (a : Nat) (b : Byte) (i : Nat) :
    memRead (memWrite m a b) i = if i = a then b else memRead m i := by
  unfold memRead memWrite
  split
  · rename_i h
    rw [cellGet_cellDrop]
    by_cases hi : i = a <;> simp [hi, h]
  · rw [cellGet_cellPut]
    by_cases hi : i = a <;> simp [hi]

@[simp] theorem memRead_memWrite_same (m : Cells) (a : Nat) (b : Byte) : memRead (memWrite m a b) a = b := by
  simp [memRead_memWrite]

theorem memRead_memWrite_other {a i : Nat} (h : i ≠ a) (m : Cells) (b : Byte) :
    memRead (memWrite m a b) i = memRead m i := by
  simp [memRead_memWrite, h]

/-- A run of bytes reads as written, and every byte outside it as before. -/
theorem memRead_memWriteRun (m : Cells) (a : Nat) (bs : List Byte) (i : Nat) :
    memRead (memWriteRun m a bs) i =
      if a ≤ i ∧ i < a + bs.length then bs.getD (i - a) 0#8 else memRead m i := by
  induction bs generalizing m a with
  | nil => simp [memWriteRun]
  | cons b rest ih =>
    rw [memWriteRun, ih]
    by_cases h1 : a + 1 ≤ i ∧ i < a + 1 + rest.length
    · have h2 : a ≤ i ∧ i < a + (b :: rest).length := by simp; omega
      rw [if_pos h1, if_pos h2]
      obtain ⟨k, hk⟩ : ∃ k, i - a = k + 1 := ⟨i - a - 1, by omega⟩
      have : i - (a + 1) = k := by omega
      simp [hk, this]
    · rw [if_neg h1, memRead_memWrite]
      by_cases h3 : i = a
      · subst h3
        simp
      · have h2 : ¬ (a ≤ i ∧ i < a + (b :: rest).length) := by simp; omega
        rw [if_neg h3, if_neg h2]

@[simp] theorem memReadRun_length (m : Cells) (a n : Nat) : (memReadRun m a n).length = n := by
  simp [memReadRun]

theorem memReadRun_getD (m : Cells) (a n i : Nat) (h : i < n) : (memReadRun m a n).getD i 0#8 = memRead m (a + i) := by
  simp [memReadRun, h]

theorem cellPut_keys_mem (m : Cells) (a : Nat) (b : Byte) (c : Host.Cell) (h : c ∈ cellPut m a b) :
    c = (a, b) ∨ c ∈ m := by
  induction m with
  | nil => simpa [cellPut] using h
  | cons d rest ih =>
    obtain ⟨k, x⟩ := d
    unfold cellPut at h
    split at h
    · simpa using h
    · split at h
      · simp only [List.mem_cons] at h ⊢
        tauto
      · simp only [List.mem_cons] at h ⊢
        rcases h with h | h
        · exact .inr (.inl h)
        · rcases ih h with h | h
          · exact .inl h
          · exact .inr (.inr h)

theorem cellPut_sorted (m : Cells) (a : Nat) (b : Byte) (h : (m.map Prod.fst).Pairwise (· < ·)) :
    ((cellPut m a b).map Prod.fst).Pairwise (· < ·) := by
  induction m with
  | nil => simp [cellPut]
  | cons d rest ih =>
    obtain ⟨k, x⟩ := d
    simp only [List.map_cons, List.pairwise_cons] at h
    unfold cellPut
    split
    · rename_i hlt
      simp only [List.map_cons, List.pairwise_cons]
      refine ⟨?_, h⟩
      intro i hi
      rcases List.mem_cons.mp hi with rfl | hi
      · exact hlt
      · exact Nat.lt_trans hlt (h.1 i hi)
    · split
      · rename_i _ heq
        subst heq
        simpa using h
      · rename_i h1 h2
        simp only [List.map_cons, List.pairwise_cons]
        refine ⟨?_, ih h.2⟩
        intro i hi
        obtain ⟨c, hc, rfl⟩ := List.mem_map.mp hi
        rcases cellPut_keys_mem rest a b c hc with rfl | hc
        · simp only; omega
        · exact h.1 _ (List.mem_map_of_mem hc)

/-- A write inside the address space keeps the canonical form. -/
theorem memWrite_wf {m : Cells} {a : Nat} (h : Memory.wf m) (ha : a < 2 ^ 32) (b : Byte) :
    Memory.wf (memWrite m a b) := by
  unfold memWrite
  split
  · refine ⟨?_, ?_⟩
    · unfold cellDrop
      exact h.1.sublist (List.Sublist.map _ List.filter_sublist)
    · intro c hc
      exact h.2 c (List.mem_of_mem_filter hc)
  · rename_i hb
    refine ⟨cellPut_sorted m a b h.1, ?_⟩
    intro c hc
    rcases cellPut_keys_mem m a b c hc with rfl | hc
    · exact ⟨hb, ha⟩
    · exact h.2 c hc

/-- A run of writes inside the address space keeps the canonical form. -/
theorem memWriteRun_wf {m : Cells} (h : Memory.wf m) (a : Nat) (bs : List Byte) (ha : bs = [] ∨ a + bs.length ≤ 2 ^ 32) :
    Memory.wf (memWriteRun m a bs) := by
  induction bs generalizing m a with
  | nil => exact h
  | cons b rest ih =>
    have hl : a + (rest.length + 1) ≤ 2 ^ 32 := by simpa using ha
    refine ih (memWrite_wf h (by omega) b) (a + 1) ?_
    exact .inr (by omega)

/-- Writing one pixel keeps the canonical form. -/
theorem pixWrite_wf {m : Cells} {b s x y : Nat} (h : Memory.wf m) (ha : b + y * s + x / 2 < 2 ^ 32) (v : Nibble) :
    Memory.wf (pixWrite m b s x y v) :=
  memWrite_wf h ha _

/-- The memory of `State.reset` is in canonical form. -/
theorem reset_memory_wf : Memory.wf State.reset.mem := by
  decide

/-! ### The `LUT` -/

theorem cellGet_lutTable (size : Nat) (f : Nat → Byte) (n i : Nat) (hn : n ≤ size) :
    cellGet (lutTable size f n) i = if size - n ≤ i ∧ i < size then some (f i) else none := by
  induction n with
  | zero =>
    simp [lutTable, cellGet]
  | succ n ih =>
    rw [lutTable, cellGet, ih (by omega)]
    by_cases h : size - (n + 1) = i
    · have h2 : size - (n + 1) ≤ i ∧ i < size := by omega
      rw [if_pos h, if_pos h2, h]
    · rw [if_neg h]
      by_cases h2 : size - n ≤ i ∧ i < size
      · have h3 : size - (n + 1) ≤ i ∧ i < size := by omega
        rw [if_pos h2, if_pos h3]
      · have h3 : ¬ (size - (n + 1) ≤ i ∧ i < size) := by omega
        rw [if_neg h2, if_neg h3]

/-- A build writes its own part of the `LUT` and leaves the rest alone (R40). -/
theorem lutRead_lutLoad (lut : Cells) (size : Nat) (f : Nat → Byte) (i : Nat) :
    lutRead (lutLoad lut size f) i = if i < size then some (f i) else lutRead lut i := by
  unfold lutRead lutLoad
  rw [cellGet_append, cellGet_lutTable _ _ _ _ (Nat.le_refl _), cellGet_filter_le]
  by_cases h : i < size
  · simp [h]
  · have h2 : size ≤ i := by omega
    simp [h, h2]

theorem lutTable_keys (size : Nat) (f : Nat → Byte) (n : Nat) (hn : n ≤ size) (c : Host.Cell)
    (h : c ∈ lutTable size f n) : size - n ≤ c.1 ∧ c.1 < size := by
  induction n with
  | zero => simp [lutTable] at h
  | succ n ih =>
    rcases List.mem_cons.mp h with rfl | h
    · simp only; omega
    · have := ih (by omega) h
      omega

theorem lutTable_sorted (size : Nat) (f : Nat → Byte) (n : Nat) (hn : n ≤ size) :
    ((lutTable size f n).map Prod.fst).Pairwise (· < ·) := by
  induction n with
  | zero => simp [lutTable]
  | succ n ih =>
    rw [lutTable, List.map_cons, List.pairwise_cons]
    refine ⟨?_, ih (by omega)⟩
    intro i hi
    obtain ⟨c, hc, rfl⟩ := List.mem_map.mp hi
    have := lutTable_keys size f n (by omega) c hc
    simp only; omega

/-- A build keeps the `LUT` in canonical form. -/
theorem lutLoad_wf {lut : Cells} (h : Lut.wf lut) {size : Nat} (hs : size ≤ 65536) (f : Nat → Byte) :
    Lut.wf (lutLoad lut size f) := by
  refine ⟨?_, ?_⟩
  · unfold lutLoad
    rw [List.map_append, List.pairwise_append]
    refine ⟨lutTable_sorted _ _ _ (Nat.le_refl _),
      h.1.sublist (List.Sublist.map _ List.filter_sublist), ?_⟩
    intro i hi j hj
    obtain ⟨c, hc, rfl⟩ := List.mem_map.mp hi
    obtain ⟨d, hd, rfl⟩ := List.mem_map.mp hj
    have h1 := lutTable_keys _ _ _ (Nat.le_refl _) c hc
    have h2 := (List.mem_filter.mp hd).2
    simp only [decide_eq_true_eq] at h2
    omega
  · intro c hc
    rcases List.mem_append.mp hc with hc | hc
    · have := lutTable_keys _ _ _ (Nat.le_refl _) c hc
      omega
    · exact h.2 c (List.mem_of_mem_filter hc)

end Sys2Proof.Machine
end

