-- ==== Sys2Proof/Laws/State.lean ====
section
/-! SUPPORT. One lemma per field per named update of the state: what the update leaves alone, and what it writes. -/

namespace Sys2Proof.Machine

/-! ### `setLane`, `setQueue` -/

@[simp] theorem setLane_cfg (l : Lane) (x : LaneState) (s : State) : (setLane l x s).cfg = s.cfg := by
  cases l <;> rfl

@[simp] theorem setLane_operands (l : Lane) (x : LaneState) (s : State) : (setLane l x s).operands = s.operands := by
  cases l <;> rfl

@[simp] theorem setLane_mode (l : Lane) (x : LaneState) (s : State) : (setLane l x s).mode = s.mode := by
  cases l <;> rfl

@[simp] theorem setLane_ctrl (l : Lane) (x : LaneState) (s : State) : (setLane l x s).ctrl = s.ctrl := by
  cases l <;> rfl

@[simp] theorem setLane_phase (l : Lane) (x : LaneState) (s : State) : (setLane l x s).phase = s.phase := by
  cases l <;> rfl

@[simp] theorem setLane_phaseCount (l : Lane) (x : LaneState) (s : State) : (setLane l x s).phaseCount = s.phaseCount := by
  cases l <;> rfl

@[simp] theorem setLane_lineNext (l : Lane) (x : LaneState) (s : State) : (setLane l x s).lineNext = s.lineNext := by
  cases l <;> rfl

@[simp] theorem setLane_linesConsumed (l : Lane) (x : LaneState) (s : State) : (setLane l x s).linesConsumed = s.linesConsumed := by
  cases l <;> rfl

@[simp] theorem setLane_error (l : Lane) (x : LaneState) (s : State) : (setLane l x s).error = s.error := by
  cases l <;> rfl

@[simp] theorem setLane_seq (l : Lane) (x : LaneState) (s : State) : (setLane l x s).seq = s.seq := by
  cases l <;> rfl

@[simp] theorem setLane_fdone (l : Lane) (x : LaneState) (s : State) : (setLane l x s).fdone = s.fdone := by
  cases l <;> rfl

@[simp] theorem setLane_rectX (l : Lane) (x : LaneState) (s : State) : (setLane l x s).rectX = s.rectX := by
  cases l <;> rfl

@[simp] theorem setLane_rectY (l : Lane) (x : LaneState) (s : State) : (setLane l x s).rectY = s.rectY := by
  cases l <;> rfl

@[simp] theorem setLane_rectW (l : Lane) (x : LaneState) (s : State) : (setLane l x s).rectW = s.rectW := by
  cases l <;> rfl

@[simp] theorem setLane_rectH (l : Lane) (x : LaneState) (s : State) : (setLane l x s).rectH = s.rectH := by
  cases l <;> rfl

@[simp] theorem setLane_prevWhiteF (l : Lane) (x : LaneState) (s : State) : (setLane l x s).prevWhiteF = s.prevWhiteF := by
  cases l <;> rfl

@[simp] theorem setLane_prevBlackF (l : Lane) (x : LaneState) (s : State) : (setLane l x s).prevBlackF = s.prevBlackF := by
  cases l <;> rfl

@[simp] theorem setLane_resHost (l : Lane) (x : LaneState) (s : State) : (setLane l x s).resHost = s.resHost := by
  cases l <;> rfl

@[simp] theorem setLane_resFeeder (l : Lane) (x : LaneState) (s : State) : (setLane l x s).resFeeder = s.resFeeder := by
  cases l <;> rfl

@[simp] theorem setLane_lut (l : Lane) (x : LaneState) (s : State) : (setLane l x s).lut = s.lut := by
  cases l <;> rfl

@[simp] theorem setLane_dirtyLines (l : Lane) (x : LaneState) (s : State) : (setLane l x s).dirtyLines = s.dirtyLines := by
  cases l <;> rfl

@[simp] theorem setLane_dirtyCols (l : Lane) (x : LaneState) (s : State) : (setLane l x s).dirtyCols = s.dirtyCols := by
  cases l <;> rfl

@[simp] theorem setLane_lineThreads (l : Lane) (x : LaneState) (s : State) : (setLane l x s).lineThreads = s.lineThreads := by
  cases l <;> rfl

@[simp] theorem setLane_mask (l : Lane) (x : LaneState) (s : State) : (setLane l x s).mask = s.mask := by
  cases l <;> rfl

@[simp] theorem setLane_busOut (l : Lane) (x : LaneState) (s : State) : (setLane l x s).busOut = s.busOut := by
  cases l <;> rfl

@[simp] theorem setLane_mem (l : Lane) (x : LaneState) (s : State) : (setLane l x s).mem = s.mem := by
  cases l <;> rfl

@[simp] theorem setLane_issuer (l : Lane) (x : LaneState) (s : State) : (setLane l x s).issuer = s.issuer := by
  cases l <;> rfl

@[simp] theorem setLane_inbox (l : Lane) (x : LaneState) (s : State) : (setLane l x s).inbox = s.inbox := by
  cases l <;> rfl

@[simp] theorem setLane_readData (l : Lane) (x : LaneState) (s : State) : (setLane l x s).readData = s.readData := by
  cases l <;> rfl

@[simp] theorem setLane_freeIdx (l : Lane) (x : LaneState) (s : State) : (setLane l x s).freeIdx = s.freeIdx := by
  cases l <;> rfl

@[simp] theorem getLane_setLane_same (l : Lane) (x : LaneState) (s : State) : getLane l (setLane l x s) = x := by
  cases l <;> rfl

theorem getLane_setLane_other {l k : Lane} (h : k ≠ l) (x : LaneState) (s : State) :
    getLane k (setLane l x s) = getLane k s := by
  cases l <;> cases k <;> first | rfl | exact absurd rfl h

@[simp] theorem setLane_zero (x : LaneState) (s : State) : setLane .zero x s = { s with lane0 := x } := rfl

@[simp] theorem setLane_one (x : LaneState) (s : State) : setLane .one x s = { s with lane1 := x } := rfl

@[simp] theorem getLane_zero (s : State) : getLane .zero s = s.lane0 := rfl

@[simp] theorem getLane_one (s : State) : getLane .one s = s.lane1 := rfl

@[simp] theorem setQueue_cfg (q : Lane) (x : Queue) (s : State) : (setQueue q x s).cfg = s.cfg := by
  cases q <;> rfl

@[simp] theorem setQueue_operands (q : Lane) (x : Queue) (s : State) : (setQueue q x s).operands = s.operands := by
  cases q <;> rfl

@[simp] theorem setQueue_mode (q : Lane) (x : Queue) (s : State) : (setQueue q x s).mode = s.mode := by
  cases q <;> rfl

@[simp] theorem setQueue_ctrl (q : Lane) (x : Queue) (s : State) : (setQueue q x s).ctrl = s.ctrl := by
  cases q <;> rfl

@[simp] theorem setQueue_phase (q : Lane) (x : Queue) (s : State) : (setQueue q x s).phase = s.phase := by
  cases q <;> rfl

@[simp] theorem setQueue_phaseCount (q : Lane) (x : Queue) (s : State) : (setQueue q x s).phaseCount = s.phaseCount := by
  cases q <;> rfl

@[simp] theorem setQueue_lineNext (q : Lane) (x : Queue) (s : State) : (setQueue q x s).lineNext = s.lineNext := by
  cases q <;> rfl

@[simp] theorem setQueue_linesConsumed (q : Lane) (x : Queue) (s : State) : (setQueue q x s).linesConsumed = s.linesConsumed := by
  cases q <;> rfl

@[simp] theorem setQueue_error (q : Lane) (x : Queue) (s : State) : (setQueue q x s).error = s.error := by
  cases q <;> rfl

@[simp] theorem setQueue_seq (q : Lane) (x : Queue) (s : State) : (setQueue q x s).seq = s.seq := by
  cases q <;> rfl

@[simp] theorem setQueue_fdone (q : Lane) (x : Queue) (s : State) : (setQueue q x s).fdone = s.fdone := by
  cases q <;> rfl

@[simp] theorem setQueue_rectX (q : Lane) (x : Queue) (s : State) : (setQueue q x s).rectX = s.rectX := by
  cases q <;> rfl

@[simp] theorem setQueue_rectY (q : Lane) (x : Queue) (s : State) : (setQueue q x s).rectY = s.rectY := by
  cases q <;> rfl

@[simp] theorem setQueue_rectW (q : Lane) (x : Queue) (s : State) : (setQueue q x s).rectW = s.rectW := by
  cases q <;> rfl

@[simp] theorem setQueue_rectH (q : Lane) (x : Queue) (s : State) : (setQueue q x s).rectH = s.rectH := by
  cases q <;> rfl

@[simp] theorem setQueue_prevWhiteF (q : Lane) (x : Queue) (s : State) : (setQueue q x s).prevWhiteF = s.prevWhiteF := by
  cases q <;> rfl

@[simp] theorem setQueue_prevBlackF (q : Lane) (x : Queue) (s : State) : (setQueue q x s).prevBlackF = s.prevBlackF := by
  cases q <;> rfl

@[simp] theorem setQueue_resHost (q : Lane) (x : Queue) (s : State) : (setQueue q x s).resHost = s.resHost := by
  cases q <;> rfl

@[simp] theorem setQueue_resFeeder (q : Lane) (x : Queue) (s : State) : (setQueue q x s).resFeeder = s.resFeeder := by
  cases q <;> rfl

@[simp] theorem setQueue_lut (q : Lane) (x : Queue) (s : State) : (setQueue q x s).lut = s.lut := by
  cases q <;> rfl

@[simp] theorem setQueue_dirtyLines (q : Lane) (x : Queue) (s : State) : (setQueue q x s).dirtyLines = s.dirtyLines := by
  cases q <;> rfl

@[simp] theorem setQueue_dirtyCols (q : Lane) (x : Queue) (s : State) : (setQueue q x s).dirtyCols = s.dirtyCols := by
  cases q <;> rfl

@[simp] theorem setQueue_lineThreads (q : Lane) (x : Queue) (s : State) : (setQueue q x s).lineThreads = s.lineThreads := by
  cases q <;> rfl

@[simp] theorem setQueue_mask (q : Lane) (x : Queue) (s : State) : (setQueue q x s).mask = s.mask := by
  cases q <;> rfl

@[simp] theorem setQueue_busOut (q : Lane) (x : Queue) (s : State) : (setQueue q x s).busOut = s.busOut := by
  cases q <;> rfl

@[simp] theorem setQueue_mem (q : Lane) (x : Queue) (s : State) : (setQueue q x s).mem = s.mem := by
  cases q <;> rfl

@[simp] theorem setQueue_issuer (q : Lane) (x : Queue) (s : State) : (setQueue q x s).issuer = s.issuer := by
  cases q <;> rfl

@[simp] theorem setQueue_inbox (q : Lane) (x : Queue) (s : State) : (setQueue q x s).inbox = s.inbox := by
  cases q <;> rfl

@[simp] theorem setQueue_readData (q : Lane) (x : Queue) (s : State) : (setQueue q x s).readData = s.readData := by
  cases q <;> rfl

@[simp] theorem setQueue_freeIdx (q : Lane) (x : Queue) (s : State) : (setQueue q x s).freeIdx = s.freeIdx := by
  cases q <;> rfl

@[simp] theorem getQueue_setQueue_same (q : Lane) (x : Queue) (s : State) : getQueue q (setQueue q x s) = x := by
  cases q <;> rfl

theorem getQueue_setQueue_other {q k : Lane} (h : k ≠ q) (x : Queue) (s : State) :
    getQueue k (setQueue q x s) = getQueue k s := by
  cases q <;> cases k <;> first | rfl | exact absurd rfl h

@[simp] theorem getLane_setQueue_row (k q : Lane) (x : Queue) (s : State) :
    (getLane k (setQueue q x s)).row = (getLane k s).row := by
  cases q <;> cases k <;> rfl

@[simp] theorem getLane_setQueue_busy (k q : Lane) (x : Queue) (s : State) :
    (getLane k (setQueue q x s)).busy = (getLane k s).busy := by
  cases q <;> cases k <;> rfl

@[simp] theorem getLane_setQueue_done (k q : Lane) (x : Queue) (s : State) :
    (getLane k (setQueue q x s)).done = (getLane k s).done := by
  cases q <;> cases k <;> rfl

@[simp] theorem getLane_setQueue_res (k q : Lane) (x : Queue) (s : State) :
    (getLane k (setQueue q x s)).res = (getLane k s).res := by
  cases q <;> cases k <;> rfl

/-- Writing back what a queue holds changes nothing. -/
@[simp] theorem setQueue_self (q : Lane) (s : State) : setQueue q (getQueue q s) s = s := by
  cases q <;> rfl

/-! ### `setRes`, `result` -/

@[simp] theorem setRes_cfg (p : Port) (v : Word) (s : State) : (setRes p v s).cfg = s.cfg := by
  cases p <;> rfl

@[simp] theorem setRes_operands (p : Port) (v : Word) (s : State) : (setRes p v s).operands = s.operands := by
  cases p <;> rfl

@[simp] theorem setRes_mode (p : Port) (v : Word) (s : State) : (setRes p v s).mode = s.mode := by
  cases p <;> rfl

@[simp] theorem setRes_ctrl (p : Port) (v : Word) (s : State) : (setRes p v s).ctrl = s.ctrl := by
  cases p <;> rfl

@[simp] theorem setRes_phase (p : Port) (v : Word) (s : State) : (setRes p v s).phase = s.phase := by
  cases p <;> rfl

@[simp] theorem setRes_phaseCount (p : Port) (v : Word) (s : State) : (setRes p v s).phaseCount = s.phaseCount := by
  cases p <;> rfl

@[simp] theorem setRes_lineNext (p : Port) (v : Word) (s : State) : (setRes p v s).lineNext = s.lineNext := by
  cases p <;> rfl

@[simp] theorem setRes_linesConsumed (p : Port) (v : Word) (s : State) : (setRes p v s).linesConsumed = s.linesConsumed := by
  cases p <;> rfl

@[simp] theorem setRes_error (p : Port) (v : Word) (s : State) : (setRes p v s).error = s.error := by
  cases p <;> rfl

@[simp] theorem setRes_seq (p : Port) (v : Word) (s : State) : (setRes p v s).seq = s.seq := by
  cases p <;> rfl

@[simp] theorem setRes_fdone (p : Port) (v : Word) (s : State) : (setRes p v s).fdone = s.fdone := by
  cases p <;> rfl

@[simp] theorem setRes_rectX (p : Port) (v : Word) (s : State) : (setRes p v s).rectX = s.rectX := by
  cases p <;> rfl

@[simp] theorem setRes_rectY (p : Port) (v : Word) (s : State) : (setRes p v s).rectY = s.rectY := by
  cases p <;> rfl

@[simp] theorem setRes_rectW (p : Port) (v : Word) (s : State) : (setRes p v s).rectW = s.rectW := by
  cases p <;> rfl

@[simp] theorem setRes_rectH (p : Port) (v : Word) (s : State) : (setRes p v s).rectH = s.rectH := by
  cases p <;> rfl

@[simp] theorem setRes_prevWhiteF (p : Port) (v : Word) (s : State) : (setRes p v s).prevWhiteF = s.prevWhiteF := by
  cases p <;> rfl

@[simp] theorem setRes_prevBlackF (p : Port) (v : Word) (s : State) : (setRes p v s).prevBlackF = s.prevBlackF := by
  cases p <;> rfl

@[simp] theorem setRes_lut (p : Port) (v : Word) (s : State) : (setRes p v s).lut = s.lut := by
  cases p <;> rfl

@[simp] theorem setRes_dirtyLines (p : Port) (v : Word) (s : State) : (setRes p v s).dirtyLines = s.dirtyLines := by
  cases p <;> rfl

@[simp] theorem setRes_dirtyCols (p : Port) (v : Word) (s : State) : (setRes p v s).dirtyCols = s.dirtyCols := by
  cases p <;> rfl

@[simp] theorem setRes_lineThreads (p : Port) (v : Word) (s : State) : (setRes p v s).lineThreads = s.lineThreads := by
  cases p <;> rfl

@[simp] theorem setRes_mask (p : Port) (v : Word) (s : State) : (setRes p v s).mask = s.mask := by
  cases p <;> rfl

@[simp] theorem setRes_busOut (p : Port) (v : Word) (s : State) : (setRes p v s).busOut = s.busOut := by
  cases p <;> rfl

@[simp] theorem setRes_mem (p : Port) (v : Word) (s : State) : (setRes p v s).mem = s.mem := by
  cases p <;> rfl

@[simp] theorem setRes_issuer (p : Port) (v : Word) (s : State) : (setRes p v s).issuer = s.issuer := by
  cases p <;> rfl

@[simp] theorem setRes_inbox (p : Port) (v : Word) (s : State) : (setRes p v s).inbox = s.inbox := by
  cases p <;> rfl

@[simp] theorem setRes_readData (p : Port) (v : Word) (s : State) : (setRes p v s).readData = s.readData := by
  cases p <;> rfl

@[simp] theorem setRes_freeIdx (p : Port) (v : Word) (s : State) : (setRes p v s).freeIdx = s.freeIdx := by
  cases p <;> rfl

@[simp] theorem getRes_setRes_same (p : Port) (v : Word) (s : State) : getRes p (setRes p v s) = v := by
  cases p <;> rfl

theorem getRes_setRes_other {p r : Port} (h : r ≠ p) (v : Word) (s : State) :
    getRes r (setRes p v s) = getRes r s := by
  cases p <;> cases r <;> first | rfl | exact absurd rfl h

@[simp] theorem getQueue_setRes (q : Lane) (p : Port) (v : Word) (s : State) :
    getQueue q (setRes p v s) = getQueue q s := by
  cases p <;> cases q <;> rfl

@[simp] theorem getLane_setRes_row (l : Lane) (p : Port) (v : Word) (s : State) :
    (getLane l (setRes p v s)).row = (getLane l s).row := by
  cases p <;> cases l <;> rfl

@[simp] theorem getLane_setRes_busy (l : Lane) (p : Port) (v : Word) (s : State) :
    (getLane l (setRes p v s)).busy = (getLane l s).busy := by
  cases p <;> cases l <;> rfl

@[simp] theorem getLane_setRes_done (l : Lane) (p : Port) (v : Word) (s : State) :
    (getLane l (setRes p v s)).done = (getLane l s).done := by
  cases p <;> cases l <;> rfl

@[simp] theorem result_cfg (v : Word) (s : State) : (result v s).cfg = s.cfg :=
  setRes_cfg _ _ _

@[simp] theorem result_operands (v : Word) (s : State) : (result v s).operands = s.operands :=
  setRes_operands _ _ _

@[simp] theorem result_mode (v : Word) (s : State) : (result v s).mode = s.mode :=
  setRes_mode _ _ _

@[simp] theorem result_ctrl (v : Word) (s : State) : (result v s).ctrl = s.ctrl :=
  setRes_ctrl _ _ _

@[simp] theorem result_phase (v : Word) (s : State) : (result v s).phase = s.phase :=
  setRes_phase _ _ _

@[simp] theorem result_phaseCount (v : Word) (s : State) : (result v s).phaseCount = s.phaseCount :=
  setRes_phaseCount _ _ _

@[simp] theorem result_lineNext (v : Word) (s : State) : (result v s).lineNext = s.lineNext :=
  setRes_lineNext _ _ _

@[simp] theorem result_linesConsumed (v : Word) (s : State) : (result v s).linesConsumed = s.linesConsumed :=
  setRes_linesConsumed _ _ _

@[simp] theorem result_error (v : Word) (s : State) : (result v s).error = s.error :=
  setRes_error _ _ _

@[simp] theorem result_seq (v : Word) (s : State) : (result v s).seq = s.seq :=
  setRes_seq _ _ _

@[simp] theorem result_fdone (v : Word) (s : State) : (result v s).fdone = s.fdone :=
  setRes_fdone _ _ _

@[simp] theorem result_rectX (v : Word) (s : State) : (result v s).rectX = s.rectX :=
  setRes_rectX _ _ _

@[simp] theorem result_rectY (v : Word) (s : State) : (result v s).rectY = s.rectY :=
  setRes_rectY _ _ _

@[simp] theorem result_rectW (v : Word) (s : State) : (result v s).rectW = s.rectW :=
  setRes_rectW _ _ _

@[simp] theorem result_rectH (v : Word) (s : State) : (result v s).rectH = s.rectH :=
  setRes_rectH _ _ _

@[simp] theorem result_prevWhiteF (v : Word) (s : State) : (result v s).prevWhiteF = s.prevWhiteF :=
  setRes_prevWhiteF _ _ _

@[simp] theorem result_prevBlackF (v : Word) (s : State) : (result v s).prevBlackF = s.prevBlackF :=
  setRes_prevBlackF _ _ _

@[simp] theorem result_lut (v : Word) (s : State) : (result v s).lut = s.lut :=
  setRes_lut _ _ _

@[simp] theorem result_dirtyLines (v : Word) (s : State) : (result v s).dirtyLines = s.dirtyLines :=
  setRes_dirtyLines _ _ _

@[simp] theorem result_dirtyCols (v : Word) (s : State) : (result v s).dirtyCols = s.dirtyCols :=
  setRes_dirtyCols _ _ _

@[simp] theorem result_lineThreads (v : Word) (s : State) : (result v s).lineThreads = s.lineThreads :=
  setRes_lineThreads _ _ _

@[simp] theorem result_mask (v : Word) (s : State) : (result v s).mask = s.mask :=
  setRes_mask _ _ _

@[simp] theorem result_busOut (v : Word) (s : State) : (result v s).busOut = s.busOut :=
  setRes_busOut _ _ _

@[simp] theorem result_mem (v : Word) (s : State) : (result v s).mem = s.mem :=
  setRes_mem _ _ _

@[simp] theorem result_issuer (v : Word) (s : State) : (result v s).issuer = s.issuer :=
  setRes_issuer _ _ _

@[simp] theorem result_inbox (v : Word) (s : State) : (result v s).inbox = s.inbox :=
  setRes_inbox _ _ _

@[simp] theorem result_readData (v : Word) (s : State) : (result v s).readData = s.readData :=
  setRes_readData _ _ _

@[simp] theorem result_freeIdx (v : Word) (s : State) : (result v s).freeIdx = s.freeIdx :=
  setRes_freeIdx _ _ _

@[simp] theorem getRes_result (v : Word) (s : State) : getRes s.issuer (result v s) = v :=
  getRes_setRes_same _ _ _

@[simp] theorem getQueue_result (q : Lane) (v : Word) (s : State) : getQueue q (result v s) = getQueue q s :=
  getQueue_setRes _ _ _ _

@[simp] theorem getLane_result_row (l : Lane) (v : Word) (s : State) :
    (getLane l (result v s)).row = (getLane l s).row := getLane_setRes_row _ _ _ _

@[simp] theorem getLane_result_busy (l : Lane) (v : Word) (s : State) :
    (getLane l (result v s)).busy = (getLane l s).busy := getLane_setRes_busy _ _ _ _

@[simp] theorem getLane_result_done (l : Lane) (v : Word) (s : State) :
    (getLane l (result v s)).done = (getLane l s).done := getLane_setRes_done _ _ _ _

/-- A command of the host writes `RES_HOST` and nothing else. -/
theorem result_of_host {s : State} (h : s.issuer = .host) (v : Word) : result v s = { s with resHost := v } := by
  simp [result, h, setRes]

/-- A command of the feeder writes `RES_FEEDER` and nothing else. -/
theorem result_of_feeder {s : State} (h : s.issuer = .feeder) (v : Word) :
    result v s = { s with resFeeder := v } := by
  simp [result, h, setRes]

/-! ### `flagError` -/

@[simp] theorem flagError_cfg (v : Word) (s : State) : (flagError v s).cfg = s.cfg := rfl

@[simp] theorem flagError_operands (v : Word) (s : State) : (flagError v s).operands = s.operands := rfl

@[simp] theorem flagError_mode (v : Word) (s : State) : (flagError v s).mode = s.mode := rfl

@[simp] theorem flagError_ctrl (v : Word) (s : State) : (flagError v s).ctrl = s.ctrl := rfl

@[simp] theorem flagError_phase (v : Word) (s : State) : (flagError v s).phase = s.phase := rfl

@[simp] theorem flagError_phaseCount (v : Word) (s : State) : (flagError v s).phaseCount = s.phaseCount := rfl

@[simp] theorem flagError_lineNext (v : Word) (s : State) : (flagError v s).lineNext = s.lineNext := rfl

@[simp] theorem flagError_linesConsumed (v : Word) (s : State) : (flagError v s).linesConsumed = s.linesConsumed := rfl

@[simp] theorem flagError_error (v : Word) (s : State) : (flagError v s).error = s.error ||| v := rfl

@[simp] theorem flagError_seq (v : Word) (s : State) : (flagError v s).seq = s.seq := rfl

@[simp] theorem flagError_fdone (v : Word) (s : State) : (flagError v s).fdone = s.fdone := rfl

@[simp] theorem flagError_lane0 (v : Word) (s : State) : (flagError v s).lane0 = s.lane0 := rfl

@[simp] theorem flagError_lane1 (v : Word) (s : State) : (flagError v s).lane1 = s.lane1 := rfl

@[simp] theorem flagError_rectX (v : Word) (s : State) : (flagError v s).rectX = s.rectX := rfl

@[simp] theorem flagError_rectY (v : Word) (s : State) : (flagError v s).rectY = s.rectY := rfl

@[simp] theorem flagError_rectW (v : Word) (s : State) : (flagError v s).rectW = s.rectW := rfl

@[simp] theorem flagError_rectH (v : Word) (s : State) : (flagError v s).rectH = s.rectH := rfl

@[simp] theorem flagError_prevWhiteF (v : Word) (s : State) : (flagError v s).prevWhiteF = s.prevWhiteF := rfl

@[simp] theorem flagError_prevBlackF (v : Word) (s : State) : (flagError v s).prevBlackF = s.prevBlackF := rfl

@[simp] theorem flagError_resHost (v : Word) (s : State) : (flagError v s).resHost = s.resHost := rfl

@[simp] theorem flagError_resFeeder (v : Word) (s : State) : (flagError v s).resFeeder = s.resFeeder := rfl

@[simp] theorem flagError_lut (v : Word) (s : State) : (flagError v s).lut = s.lut := rfl

@[simp] theorem flagError_dirtyLines (v : Word) (s : State) : (flagError v s).dirtyLines = s.dirtyLines := rfl

@[simp] theorem flagError_dirtyCols (v : Word) (s : State) : (flagError v s).dirtyCols = s.dirtyCols := rfl

@[simp] theorem flagError_lineThreads (v : Word) (s : State) : (flagError v s).lineThreads = s.lineThreads := rfl

@[simp] theorem flagError_mask (v : Word) (s : State) : (flagError v s).mask = s.mask := rfl

@[simp] theorem flagError_busOut (v : Word) (s : State) : (flagError v s).busOut = s.busOut := rfl

@[simp] theorem flagError_mem (v : Word) (s : State) : (flagError v s).mem = s.mem := rfl

@[simp] theorem flagError_issuer (v : Word) (s : State) : (flagError v s).issuer = s.issuer := rfl

@[simp] theorem flagError_inbox (v : Word) (s : State) : (flagError v s).inbox = s.inbox := rfl

@[simp] theorem flagError_readData (v : Word) (s : State) : (flagError v s).readData = s.readData := rfl

@[simp] theorem flagError_freeIdx (v : Word) (s : State) : (flagError v s).freeIdx = s.freeIdx := rfl

@[simp] theorem getLane_flagError (l : Lane) (v : Word) (s : State) : getLane l (flagError v s) = getLane l s := by
  cases l <;> rfl

@[simp] theorem getQueue_flagError (q : Lane) (v : Word) (s : State) : getQueue q (flagError v s) = getQueue q s := by
  cases q <;> rfl

/-! ### The inputs and the issuer: no lane or queue depends on them -/

@[simp] theorem getLane_with_inbox (l : Lane) (es : List Event) (s : State) :
    getLane l { s with inbox := es } = getLane l s := by
  cases l <;> rfl

@[simp] theorem getQueue_with_inbox (q : Lane) (es : List Event) (s : State) :
    getQueue q { s with inbox := es } = getQueue q s := by
  cases q <;> rfl

@[simp] theorem getLane_with_issuer (l : Lane) (p : Port) (s : State) :
    getLane l { s with issuer := p } = getLane l s := by
  cases l <;> rfl

@[simp] theorem getQueue_with_issuer (q : Lane) (p : Port) (s : State) :
    getQueue q { s with issuer := p } = getQueue q s := by
  cases q <;> rfl

@[simp] theorem getLane_with_mem (l : Lane) (m : Cells) (s : State) :
    getLane l { s with mem := m } = getLane l s := by
  cases l <;> rfl

@[simp] theorem getQueue_with_mem (q : Lane) (m : Cells) (s : State) :
    getQueue q { s with mem := m } = getQueue q s := by
  cases q <;> rfl

@[simp] theorem setQueue_setQueue (q : Lane) (x y : Queue) (s : State) :
    setQueue q x (setQueue q y s) = setQueue q x s := by
  cases q <;> rfl

end Sys2Proof.Machine
end

