-- ==== Sys2Proof/Laws/Ops.lean ====
section
/-! SUPPORT. For each shared operation, once: what it can do when it answers a next state, and when it answers
one. -/

namespace Sys2Proof.Machine

/-! ### Conditions -/

theorem require_eq_next {c : Bool} {r : Refusal} {k : Out} {t : State} :
    require c r k = .next t ↔ c = true ∧ k = .next t := by
  cases c <;> simp [require]

@[simp] theorem require_true (r : Refusal) (k : Out) : require true r k = k := rfl

@[simp] theorem require_false (r : Refusal) (k : Out) : require false r k = .refused r := rfl

theorem unlessRefused_eq_next {r : Option Refusal} {k : Out} {t : State} :
    unlessRefused r k = .next t ↔ r = none ∧ k = .next t := by
  cases r <;> simp [unlessRefused]

@[simp] theorem unlessRefused_none (k : Out) : unlessRefused none k = k := rfl

theorem need_eq_next {α : Type} {o : Option α} {f : Fault} {k : α → Out} {t : State} :
    need o f k = .next t ↔ ∃ x, o = some x ∧ k x = .next t := by
  cases o <;> simp [need]

@[simp] theorem need_some {α : Type} (x : α) (f : Fault) (k : α → Out) : need (some x) f k = k x := rfl

@[simp] theorem need_none {α : Type} (f : Fault) (k : α → Out) : need none f k = .fault f := rfl

/-! ### Buffers (R87, R88) -/

theorem spanHas_eq_true {p : Span} {a : Nat} : spanHas p a = true ↔ p.base ≤ a ∧ a < p.base + p.len := by
  simp [spanHas]

/-- Two runs overlap where one address lies in both (R87). -/
theorem spansOverlap_eq_true {p q : Span} :
    spansOverlap p q = true ↔ ∃ a, spanHas p a = true ∧ spanHas q a = true := by
  simp only [spansOverlap, spanHas_eq_true, Bool.and_eq_true, decide_eq_true_eq]
  constructor
  · intro h
    exact ⟨max p.base q.base, by omega⟩
  · rintro ⟨a, h⟩
    omega

/-- Fewer elements meet a stronger condition that one of those meeting the weaker fails. -/
theorem countP_lt_countP {α : Type} {p q : α → Bool} {x : α} :
    ∀ {l : List α}, x ∈ l → q x = true → p x = false → (∀ y, p y = true → q y = true) → l.countP p < l.countP q
  | [], hx, _, _, _ => by cases hx
  | y :: l, hx, hq, hp, h => by
    rw [List.countP_cons, List.countP_cons]
    have hle : l.countP p ≤ l.countP q := List.countP_mono_left (fun y _ => h y)
    rcases List.mem_cons.mp hx with rfl | hx
    · rw [hq, hp]
      simp only [Bool.false_eq_true, if_false, if_true]
      omega
    · have := countP_lt_countP hx hq hp h
      cases hy : p y
      · simp only [Bool.false_eq_true, if_false]
        omega
      · simp only [h y hy, if_true]
        omega

/-- The ranges are followed to the end of the run, if they are as many as the fuel allows. -/
theorem coveredFrom_eq_true {ranges : List (Nat × Nat)} {fuel base stop : Nat}
    (h : ranges.countP (fun r => decide (base < r.1 + r.2)) ≤ fuel) :
    coveredFrom ranges fuel base stop = true ↔
      ∀ a, base ≤ a → a < stop → ∃ r ∈ ranges, r.1 ≤ a ∧ a < r.1 + r.2 := by
  induction fuel generalizing base with
  | zero =>
    simp only [coveredFrom, decide_eq_true_eq]
    refine ⟨fun hs a h1 h2 => by omega, fun hc => ?_⟩
    by_contra hlt
    obtain ⟨r, hr, h1, h2⟩ := hc base (Nat.le_refl _) (by omega)
    exact absurd (List.countP_eq_zero.mp (Nat.le_zero.mp h) r hr) (by simpa using h2)
  | succ n ih =>
    simp only [coveredFrom, Bool.or_eq_true, decide_eq_true_eq]
    by_cases hs : stop ≤ base
    · exact ⟨fun _ a h1 h2 => by omega, fun _ => .inl hs⟩
    · simp only [hs, false_or]
      cases hf : ranges.find? (fun r => decide (r.1 ≤ base) && decide (base < r.1 + r.2)) with
      | none =>
        refine ⟨fun hx => by simp at hx, fun hc => ?_⟩
        obtain ⟨r, hr, h1, h2⟩ := hc base (Nat.le_refl _) (by omega)
        exact absurd (List.find?_eq_none.mp hf r hr) (by simp [h1, h2])
      | some r =>
        have hp := List.find?_some hf
        have hm := List.mem_of_find?_eq_some hf
        simp only [Bool.and_eq_true, decide_eq_true_eq] at hp
        have hlt : ranges.countP (fun q => decide (r.1 + r.2 < q.1 + q.2)) <
            ranges.countP (fun q => decide (base < q.1 + q.2)) :=
          countP_lt_countP hm (by simpa using hp.2) (by simp) (fun q hq => by
            simp only [decide_eq_true_eq] at hq ⊢
            omega)
        simp only
        rw [ih (by omega)]
        constructor
        · intro hc a h1 h2
          by_cases ha : a < r.1 + r.2
          · exact ⟨r, hm, by omega, ha⟩
          · exact hc a (by omega) h2
        · intro hc a h1 h2
          exact hc a (by omega) h2

/-- Every byte of the run is populated (R88, log 4). -/
theorem spanPopulated_eq_true {c : Config} {p : Span} :
    spanPopulated c p = true ↔ ∀ a, spanHas p a = true → ∃ r ∈ c.populated, r.1 ≤ a ∧ a < r.1 + r.2 := by
  unfold spanPopulated
  rw [coveredFrom_eq_true List.countP_le_length]
  simp only [spanHas_eq_true, and_imp]

/-! ### Legality (R120, R224) -/

/-- An operation that answers a next state was issued on one of its ports, by no lane whose `FETCH` is in
progress. -/
theorem onPorts_eq_next {ports : List Port} {s : State} {k : Out} {t : State} :
    onPorts ports s k = .next t ↔ s.issuer ∈ ports ∧ issuerHeld s = false ∧ k = .next t := by
  simp [onPorts, require_eq_next]

/-- Moreover the sequencer was in the state it needs. -/
theorem allowed_eq_next {ports : List Port} {q : Seq} {s : State} {k : Out} {t : State} :
    allowed ports q s k = .next t ↔ s.issuer ∈ ports ∧ issuerHeld s = false ∧ s.seq = q ∧ k = .next t := by
  simp [allowed, onPorts_eq_next, require_eq_next]

/-- Where an operation is legal its legality check is no more to be seen. -/
theorem allowed_of {ports : List Port} {q : Seq} {s : State} (hp : s.issuer ∈ ports) (hh : issuerHeld s = false)
    (hq : s.seq = q) (k : Out) : allowed ports q s k = k := by
  simp [allowed, onPorts, hp, hh, hq]

theorem onPorts_of {ports : List Port} {s : State} (hp : s.issuer ∈ ports) (hh : issuerHeld s = false) (k : Out) :
    onPorts ports s k = k := by
  simp [onPorts, hp, hh]

@[simp] theorem issuerHeld_of_host {s : State} (h : s.issuer = .host) : issuerHeld s = false := by
  simp [issuerHeld, h]

@[simp] theorem issuerHeld_of_feeder {s : State} (h : s.issuer = .feeder) : issuerHeld s = false := by
  simp [issuerHeld, h]

theorem issuerHeld_of_lane {s : State} {l : Lane} (h : s.issuer = lanePort l) :
    issuerHeld s = (getLane l s).busy := by
  cases l <;> simp [issuerHeld, h, lanePort, getLane]

/-- A host operation in its state runs. -/
theorem allowed_host {q : Seq} {s : State} (hp : s.issuer = .host) (hq : s.seq = q) (k : Out) :
    allowed [.host] q s k = k :=
  allowed_of (by simp [hp]) (issuerHeld_of_host hp) hq k

/-! ### Units (R110, R119) -/

@[simp] theorem laneOf_laneUnit (l : Lane) : laneOf (laneUnit l) = some l := by
  cases l <;> rfl

@[simp] theorem withUnit_laneUnit (l : Lane) (k : Lane → Out) : withUnit (laneUnit l) k = k l := by
  simp [withUnit]

theorem laneOf_eq_some {u : BitVec 8} {l : Lane} : laneOf u = some l ↔ u = laneUnit l := by
  cases l <;> revert u <;> decide

/-- A well-formed unit is a lane's number. -/
theorem unitOk_iff {u : BitVec 8} : unitOk u ↔ ∃ l, u = laneUnit l := by
  constructor
  · intro h
    by_cases h0 : u = 0#8
    · exact ⟨.zero, h0⟩
    · refine ⟨.one, ?_⟩
      unfold unitOk numLanes at h
      have : u.toNat ≠ 0 := fun h1 => h0 (BitVec.eq_of_toNat_eq (by simpa using h1))
      exact BitVec.eq_of_toNat_eq (by simp [laneUnit]; omega)
  · rintro ⟨l, rfl⟩
    cases l <;> decide

theorem withUnit_eq_next {u : BitVec 8} {k : Lane → Out} {t : State} :
    withUnit u k = .next t ↔ ∃ l, u = laneUnit l ∧ k l = .next t := by
  unfold withUnit
  constructor
  · intro h
    split at h
    · rename_i l hl
      exact ⟨l, laneOf_eq_some.mp hl, h⟩
    · cases h
  · rintro ⟨l, rfl, h⟩
    simpa using h

/-! ### Queue ownership (R307) -/

/-- The producer side of queue `q` after the issuing port has used it. -/
def withProducer (q : Lane) (s : State) : State :=
  setQueue q { getQueue q s with producer := some s.issuer } s

/-- The consumer side of queue `q` after the issuing port has used it. -/
def withConsumer (q : Lane) (s : State) : State :=
  setQueue q { getQueue q s with consumer := some s.issuer } s

/-- Where the issuing port may produce, the operation goes on as the queue's producer. -/
theorem asProducer_of {q : Lane} {s : State}
    (h : (getQueue q s).producer = none ∨ (getQueue q s).producer = some s.issuer) (k : State → Out) :
    asProducer q s k = k (withProducer q s) := by
  rcases h with h | h
  · simp [asProducer, h, withProducer]
  · have : withProducer q s = s := by
      unfold withProducer
      rw [← h]
      exact setQueue_self q s
    simp [asProducer, h, this]

theorem asProducer_eq_next {q : Lane} {s : State} {k : State → Out} {t : State} (h : asProducer q s k = .next t) :
    ((getQueue q s).producer = none ∨ (getQueue q s).producer = some s.issuer) ∧
      k (withProducer q s) = .next t := by
  have hp : (getQueue q s).producer = none ∨ (getQueue q s).producer = some s.issuer := by
    unfold asProducer at h
    split at h
    · rename_i h'; exact .inl h'
    · rename_i p h'
      have := (require_eq_next.mp h).1
      simp only [beq_iff_eq] at this
      exact .inr (by rw [h', this])
  exact ⟨hp, by rwa [asProducer_of hp] at h⟩

theorem asConsumer_of {q : Lane} {s : State}
    (h : (getQueue q s).consumer = none ∨ (getQueue q s).consumer = some s.issuer) (k : State → Out) :
    asConsumer q s k = k (withConsumer q s) := by
  rcases h with h | h
  · simp [asConsumer, h, withConsumer]
  · have : withConsumer q s = s := by
      unfold withConsumer
      rw [← h]
      exact setQueue_self q s
    simp [asConsumer, h, this]

theorem asConsumer_eq_next {q : Lane} {s : State} {k : State → Out} {t : State} (h : asConsumer q s k = .next t) :
    ((getQueue q s).consumer = none ∨ (getQueue q s).consumer = some s.issuer) ∧
      k (withConsumer q s) = .next t := by
  have hp : (getQueue q s).consumer = none ∨ (getQueue q s).consumer = some s.issuer := by
    unfold asConsumer at h
    split at h
    · rename_i h'; exact .inl h'
    · rename_i p h'
      have := (require_eq_next.mp h).1
      simp only [beq_iff_eq] at this
      exact .inr (by rw [h', this])
  exact ⟨hp, by rwa [asConsumer_of hp] at h⟩

/-! ### The phase advance (R240) -/

/-- What `TryAdvance` can do: nothing, end the update, or go to the next phase. -/
theorem tryAdvance_cases (s : State) :
    tryAdvance s = (s, 0#32) ∨
    (s.seq = .transmitting ∧ tryAdvance s = ({ s with seq := .done }, 2#32) ∧
      (s.error ≠ 0#32 ∨ ¬ s.phase.toNat + 1 < s.phaseCount.toNat)) ∨
    (s.seq = .transmitting ∧ s.error = 0#32 ∧ s.phase.toNat + 1 < s.phaseCount.toNat ∧
      tryAdvance s = ({ s with phase := s.phase + 1#32, seq := .preparing }, 1#32)) := by
  unfold tryAdvance
  split
  · rename_i h
    split
    · rename_i he; exact .inr (.inl ⟨h.1, rfl, .inl he⟩)
    · rename_i he
      split
      · rename_i hp; exact .inr (.inr ⟨h.1, by simpa using he, hp, rfl⟩)
      · rename_i hp; exact .inr (.inl ⟨h.1, rfl, .inr hp⟩)
  · exact .inl rfl

/-! ### Buffers (R87, R88) -/

theorem bufferRefusal_eq_none {s : State} {reads writes : List Span} :
    bufferRefusal s reads writes = none ↔
      (∀ p ∈ reads ++ writes, spanInRange p = true) ∧ (∀ p ∈ reads ++ writes, spanPopulated s.cfg p = true) := by
  unfold bufferRefusal
  split
  · rename_i h
    split
    · rename_i h2
      simp only [List.all_eq_true] at h h2
      simp only [true_iff]
      exact ⟨h, h2⟩
    · rename_i h2
      simp only [List.all_eq_true] at h2
      simp only [reduceCtorEq, false_iff, not_and]
      exact fun _ => h2
  · rename_i h
    simp only [List.all_eq_true] at h
    simp only [reduceCtorEq, false_iff, not_and]
    exact fun h1 => absurd h1 h

/-- A build that is not refused (R140). -/
theorem buildRefusal_eq_none {s : State} {l : Layout} :
    buildRefusal s l = none ↔
      (layoutUsesWaveform l = true →
        s.phase.toNat < s.phaseCount.toNat ∧ bufferRefusal s [phaseSpan s] [] = none) := by
  unfold buildRefusal
  split
  · rename_i h
    split
    · rename_i h2; simp [h, h2]
    · rename_i h2; simp [h, h2]
  · rename_i h; simp [h]

theorem buildLayout_eq_next {l : Layout} {s : State} {k : State → Out} {t : State} :
    buildLayout l s k = .next t ↔ buildRefusal s l = none ∧ k { s with lut := builtLut s l } = .next t :=
  unlessRefused_eq_next

/-- What a build leaves in the `LUT` (R40). -/
theorem lutRead_builtLut (s : State) (l : Layout) (i : Nat) :
    lutRead (builtLut s l) i = if i < layoutSize l then some (layoutEntry s l i) else lutRead s.lut i :=
  lutRead_lutLoad _ _ _ _

theorem layoutSize_le (l : Layout) : layoutSize l ≤ 65536 := by
  cases l <;> simp [layoutSize]

theorem builtLut_wf {s : State} (h : Lut.wf s.lut) (l : Layout) : Lut.wf (builtLut s l) :=
  lutLoad_wf h (layoutSize_le l) _

/-- What a direct `LB` operation does (R140). -/
theorem lutBuild_eq_next {l : Layout} {s t : State} :
    lutBuild l s = .next t ↔
      s.issuer = .host ∧ s.seq = .idle ∧ buildRefusal s l = none ∧
        t = { s with lut := builtLut s l, resHost := 0#32 } := by
  unfold lutBuild
  rw [allowed_eq_next, buildLayout_eq_next]
  constructor
  · rintro ⟨hp, -, hq, hb, ht⟩
    have hp' : s.issuer = .host := by simpa using hp
    refine ⟨hp', hq, hb, ?_⟩
    rw [result_of_host (by exact hp')] at ht
    simpa [eq_comm] using ht
  · rintro ⟨hp, hq, hb, rfl⟩
    refine ⟨by simp [hp], issuerHeld_of_host hp, hq, hb, ?_⟩
    rw [result_of_host (by exact hp)]

/-- What a stand-alone lookup does (R160, R161). -/
theorem pixelLookup_eq_next {p : Packing} {look : Cells → List Byte → Nat → Option Row} {s t : State} :
    pixelLookup p look s = .next t ↔
      twoBufferRefusal s [lineInSpan s p] [lineOutSpan s] = none ∧
        ∃ row, look s.lut (lineIn s p) s.operands.width.toNat = some row ∧
          t = result 0#32 { s with mem := memWriteRun s.mem s.operands.lineOut.toNat row } := by
  unfold pixelLookup
  rw [unlessRefused_eq_next, need_eq_next]
  simp [eq_comm]

/-! ### The lanes and the feeder -/

/-- What the claim step can do: claim row `LINE_NEXT`, or find none left (R225). -/
theorem claimStep_cases (l : Lane) (s : State) :
    (s.lineNext < s.cfg.height ∧ claimStep l s = claimRow l s) ∨
      (s.cfg.height ≤ s.lineNext ∧ claimStep l s = noRowLeft l s) := by
  unfold claimStep
  split
  · rename_i h; exact .inl ⟨h, rfl⟩
  · rename_i h; exact .inr ⟨by omega, rfl⟩

/-- What rendering can go on with: the no-op row, or the active row of the selected layout (R229). -/
theorem renderRow_eq_next {s : State} {r : Nat} {k : Row → Out} {t : State} (h : renderRow s r k = .next t) :
    (rowActive s r = false ∧ k (noopRow s.cfg) = .next t) ∨
      (rowActive s r = true ∧ ∃ l row, selectLayout s.mode s.ctrl = .ok l ∧
        bufferRefusal s (rowSpans s (layoutPacking l) r) [] = none ∧ renderActive s l r = some row ∧
        k row = .next t) := by
  unfold renderRow at h
  split at h
  · rename_i ha
    split at h
    · cases h
    · rename_i l hl
      rw [unlessRefused_eq_next, need_eq_next] at h
      obtain ⟨hb, row, hr, hk⟩ := h
      exact .inr ⟨ha, l, row, hl, hb, hr, hk⟩
  · rename_i ha
    exact .inl ⟨by simpa using ha, h⟩

/-- A rendered row has `LINE_BYTES` bytes (R77). -/
theorem renderActive_length {s : State} {l : Layout} {r : Nat} {row : Row} (h : renderActive s l r = some row) :
    row.length = s.cfg.lineBytes := by
  unfold renderActive at h
  obtain ⟨out, ho, rfl⟩ := Option.map_eq_some_iff.mp h
  simp [lookLayout_length ho]

@[simp] theorem noopRow_length (c : Config) : (noopRow c).length = c.lineBytes := by
  simp [noopRow]

/-- The state after a produced row: masked, committed, the lane free (R226). -/
def produced (l : Lane) (row : Row) (s : State) : State :=
  fetchComplete l (setQueue l (advanceCur s.cfg (putCurrent (andRow row s.mask) (getQueue l s))) s)

/-- What the produce step can do: drop the row, or commit a row of `LINE_BYTES` bytes (R226). -/
theorem produceStep_eq_next {l : Lane} {s t : State} (h : produceStep l s = .next t) :
    (s.fdone = true ∧ t = fetchComplete l s) ∨
      (s.fdone = false ∧ ∃ row : Row, row.length = s.cfg.lineBytes ∧ t = produced l row s) := by
  unfold produceStep at h
  split at h
  · rename_i hf
    exact .inl ⟨hf, by simpa [eq_comm] using h⟩
  · rename_i hf
    refine .inr ⟨by simpa using hf, ?_⟩
    rcases renderRow_eq_next h with ⟨-, hk⟩ | ⟨-, l', row, -, -, hr, hk⟩
    · exact ⟨noopRow s.cfg, noopRow_length _, by simpa [eq_comm, produced] using hk⟩
    · exact ⟨row, renderActive_length hr, by simpa [eq_comm, produced] using hk⟩

/-- What one `FEED` with a row still to deliver can do: deliver the oldest row of the claiming lane's queue, or a
no-op row with the starvation error (R227). -/
theorem feedStep_eq_next {s t : State} (h : feedStep s = .next t) :
    t = deliverStarved s ∨
      ∃ q row, s.linesConsumed < s.lineNext ∧ (s.lineThreads[s.linesConsumed]?).join = some q ∧
        queueEmpty s.cfg (getQueue q s) = false ∧
        slotRead (getQueue q s) (getQueue q s).last = some row ∧
        t = deliver row false (setQueue q (advanceLast s.cfg (getQueue q s)) s) := by
  unfold feedStep at h
  split at h
  · rename_i hc
    obtain ⟨q, hq, h⟩ := need_eq_next.mp h
    split at h
    · exact .inl (by simpa [eq_comm] using h)
    · rename_i he
      unfold deliverFrom at h
      obtain ⟨row, hr, h⟩ := need_eq_next.mp h
      exact .inr ⟨q, row, hc, hq, by simpa using he, hr, by simpa [eq_comm] using h⟩
  · exact .inl (by simpa [eq_comm] using h)

/-! ### The register port -/

/-- A locked register takes no write (R21, R305). -/
theorem idleWrite_eq_next {s t u : State} :
    idleWrite s t = .next u ↔ (s.seq = .idle ∨ s.seq = .done) ∧ u = t := by
  unfold idleWrite
  rw [require_eq_next]
  simp [writable, @eq_comm _ t u]

/-- A whole aligned word (R21, R80). -/
theorem wordAccess_eq_true {off bytes : Nat} : wordAccess off bytes = true ↔ bytes = 4 ∧ off % 4 = 0 := by
  simp [wordAccess]

theorem inWindow_eq_true {base n off : Nat} : inWindow base n off = true ↔ base ≤ off ∧ (off - base) / 4 < n := by
  simp [inWindow]

/-- Which array element stands at an offset (R41 to R44, log 10). -/
theorem elementAt_eq_some {c : Config} {off : Nat} {e : Element} (h : elementAt c off = some e) :
    match e with
    | .dirtyLine y => 0x20000 ≤ off ∧ y = (off - 0x20000) / 4 ∧ y < c.height
    | .dirtyCol j => 0x30000 ≤ off ∧ j = (off - 0x30000) / 4 ∧ j < c.colBytes
    | .lineThread r => 0x40000 ≤ off ∧ r = (off - 0x40000) / 4 ∧ r < c.height
    | .mask i => 0x50000 ≤ off ∧ i = (off - 0x50000) / 4 ∧ i < c.lineBytes := by
  have key : ∀ {base n : Nat}, inWindow base n off = true →
      base ≤ off ∧ (off - base) / 4 = (off - base) / 4 ∧ (off - base) / 4 < n :=
    fun hw => ⟨(inWindow_eq_true.mp hw).1, rfl, (inWindow_eq_true.mp hw).2⟩
  unfold elementAt at h
  split at h
  · cases h; exact key ‹_›
  split at h
  · cases h; exact key ‹_›
  split at h
  · cases h; exact key ‹_›
  split at h
  · cases h; exact key ‹_›
  · cases h

/-- The offset of a command port's address is the port's (R36), whatever `RE_BASE`. -/
theorem regOffset_portAddr (c : Config) (p : Port) : regOffset c (portAddr c p) = portOffset p := by
  unfold regOffset portAddr
  rw [BitVec.add_comm, BitVec.add_sub_cancel]
  cases p <;> decide

@[simp] theorem commandPort_portOffset (p : Port) : commandPort (portOffset p) = some p := by
  cases p <;> decide

/-- A command word written to a command port is issued there. -/
theorem portWrite_portAddr (p : Port) (w : Word) (s : State) :
    portWrite (portAddr s.cfg p) 4 w s = issueCommand p w s := by
  unfold portWrite
  have : wordAccess (portOffset p) 4 = true := by cases p <;> decide
  simp [regOffset_portAddr, this]

end Sys2Proof.Machine
end

