-- ==== Sys2Proof/Laws/Exec.lean ====
section
/-! SUPPORT. For each operation, once: what it can do when it answers a next state. -/

namespace Sys2Proof.Machine

theorem exec_nop_eq_next {s t : State} (h : exec .nop s = .next t) : issuerHeld s = false ∧ t = result 0#32 s := by
  obtain ⟨-, hh, ht⟩ := onPorts_eq_next.mp h
  exact ⟨hh, by simpa [eq_comm] using ht⟩

/-- The five direct builds (R140). -/
theorem exec_lb_eq_next {l : Layout} {i : Instr} (hi : i = .lb1p64k ∧ l = .l1p64k ∨ i = .lb1p1k ∧ l = .l1p1k ∨
    (∃ f, i = .lb2p64k f ∧ l = .l2p64k f) ∨ (∃ f, i = .lb2p1k f ∧ l = .l2p1k f) ∨ ∃ fw, i = .lb8p fw ∧ l = .l8p fw)
    {s t : State} : exec i s = .next t ↔ s.issuer = .host ∧ s.seq = .idle ∧ buildRefusal s l = none ∧
      t = { s with lut := builtLut s l, resHost := 0#32 } := by
  rcases hi with ⟨rfl, rfl⟩ | ⟨rfl, rfl⟩ | ⟨f, rfl, rfl⟩ | ⟨f, rfl, rfl⟩ | ⟨fw, rfl, rfl⟩ <;> exact lutBuild_eq_next

/-- `LB.AUTO`: the errors of the selection, or the build of the layout (R142). -/
theorem exec_lbAuto_eq_next {s t : State} (h : exec .lbAuto s = .next t) : s.issuer = .host ∧ s.seq = .idle ∧
    ((∃ e, selectLayout s.mode s.ctrl = .error e ∧ t = { s with error := s.error ||| e, resHost := e }) ∨
      ∃ l, selectLayout s.mode s.ctrl = .ok l ∧ buildRefusal s l = none ∧
        t = { s with lut := builtLut s l, resHost := 0#32 }) := by
  obtain ⟨hp, -, hq, h⟩ := allowed_eq_next.mp h
  have hp : s.issuer = .host := by simpa using hp
  refine ⟨hp, hq, ?_⟩
  split at h
  · rename_i e he
    refine .inl ⟨e, he, ?_⟩
    rw [result_of_host (by exact hp)] at h
    simpa [eq_comm, flagError] using h
  · rename_i l hl
    obtain ⟨hb, h⟩ := buildLayout_eq_next.mp h
    refine .inr ⟨l, hl, hb, ?_⟩
    rw [result_of_host (by exact hp)] at h
    simpa [eq_comm] using h

/-- The lookups with a layout (R160, R161). -/
theorem pixelLookup_layout_eq_next {l : Layout} {s t : State}
    (h : allowed [.host] .idle s (pixelLookup (layoutPacking l) (lookLayout l) s) = .next t) :
    s.issuer = .host ∧ s.seq = .idle ∧
      twoBufferRefusal s [lineInSpan s (layoutPacking l)] [lineOutSpan s] = none ∧
      ∃ row : Row, lookLayout l s.lut (lineIn s (layoutPacking l)) s.operands.width.toNat = some row ∧
        row.length = ceilDiv s.operands.width.toNat 4 ∧
        t = { s with mem := memWriteRun s.mem s.operands.lineOut.toNat row, resHost := 0#32 } := by
  obtain ⟨hp, -, hq, h⟩ := allowed_eq_next.mp h
  have hp : s.issuer = .host := by simpa using hp
  obtain ⟨hb, row, hr, ht⟩ := pixelLookup_eq_next.mp h
  rw [result_of_host (by exact hp)] at ht
  exact ⟨hp, hq, hb, row, hr, lookLayout_length hr, ht⟩

/-- The five direct lookups. -/
theorem exec_pl_eq_next {l : Layout} {i : Instr} (hi : i = .pl1p64k ∧ l = .l1p64k ∨ i = .pl1p1k ∧ l = .l1p1k ∨
    (i = .pl2p64k ∧ l = .l2p64k 0#4) ∨ (i = .pl2p1k ∧ l = .l2p1k 0#4) ∨ (i = .pl8p ∧ l = .l8p false))
    {s t : State} (h : exec i s = .next t) : s.issuer = .host ∧ s.seq = .idle ∧
      twoBufferRefusal s [lineInSpan s (layoutPacking l)] [lineOutSpan s] = none ∧
      ∃ row : Row, lookLayout l s.lut (lineIn s (layoutPacking l)) s.operands.width.toNat = some row ∧
        row.length = ceilDiv s.operands.width.toNat 4 ∧
        t = { s with mem := memWriteRun s.mem s.operands.lineOut.toNat row, resHost := 0#32 } := by
  rcases hi with ⟨rfl, rfl⟩ | ⟨rfl, rfl⟩ | ⟨rfl, rfl⟩ | ⟨rfl, rfl⟩ | ⟨rfl, rfl⟩ <;>
    exact pixelLookup_layout_eq_next h

/-- `PL.AUTO`: the errors of the selection, or the lookup of the layout (R169). -/
theorem exec_plAuto_eq_next {s t : State} (h : exec .plAuto s = .next t) : s.issuer = .host ∧ s.seq = .idle ∧
    ((∃ e, selectLayout s.mode s.ctrl = .error e ∧ t = { s with error := s.error ||| e, resHost := e }) ∨
      ∃ l, selectLayout s.mode s.ctrl = .ok l ∧
        twoBufferRefusal s [lineInSpan s (layoutPacking l)] [lineOutSpan s] = none ∧
        ∃ row : Row, lookLayout l s.lut (lineIn s (layoutPacking l)) s.operands.width.toNat = some row ∧
          row.length = ceilDiv s.operands.width.toNat 4 ∧
          t = { s with mem := memWriteRun s.mem s.operands.lineOut.toNat row, resHost := 0#32 }) := by
  obtain ⟨hp, hh, hq, h⟩ := allowed_eq_next.mp h
  refine ⟨by simpa using hp, hq, ?_⟩
  split at h
  · rename_i e he
    refine .inl ⟨e, he, ?_⟩
    rw [result_of_host (by simpa using hp)] at h
    simpa [eq_comm, flagError] using h
  · rename_i l hl
    obtain ⟨-, -, hb, hr⟩ := pixelLookup_layout_eq_next (allowed_eq_next.mpr ⟨hp, hh, hq, h⟩)
    exact .inr ⟨l, hl, hb, hr⟩

/-- `DIFF`: an invalid crop, or the comparison (R181). -/
theorem exec_diff_eq_next {s t : State} (h : exec .diff s = .next t) : s.issuer = .host ∧ s.seq = .idle ∧
    ((cropValid s = false ∧ t = { s with error := s.error ||| errInvalidCrop, resHost := errInvalidCrop }) ∨
      (cropValid s = true ∧ twoBufferRefusal s (diffReads s) (diffWrites s) = none ∧
        t = { diffed s with resHost := 0#32 })) := by
  obtain ⟨hp, -, hq, h⟩ := allowed_eq_next.mp h
  have hp : s.issuer = .host := by simpa using hp
  refine ⟨hp, hq, ?_⟩
  split at h
  · rename_i hc
    obtain ⟨hb, h⟩ := unlessRefused_eq_next.mp h
    rw [result_of_host (by exact hp)] at h
    exact .inr ⟨hc, hb, by simpa [eq_comm] using h⟩
  · rename_i hc
    rw [result_of_host (by exact hp)] at h
    exact .inl ⟨by simpa using hc, by simpa [eq_comm, flagError] using h⟩

/-! ### The Line Queue -/

theorem exec_lqCurrent_eq_next {u : BitVec 8} {s t : State} (h : exec (.lqCurrent u) s = .next t) :
    ∃ q v, u = laneUnit q ∧ s.seq = .idle ∧ t = result v s := by
  obtain ⟨q, hu, h⟩ := withUnit_eq_next.mp h
  obtain ⟨-, -, hq, h⟩ := allowed_eq_next.mp h
  split at h
  · exact ⟨q, notReady, hu, hq, by simpa [eq_comm] using h⟩
  · exact ⟨q, _, hu, hq, by simpa [eq_comm] using h⟩

theorem exec_lqWrite_eq_next {u : BitVec 8} {s t : State} (h : exec (.lqWrite u) s = .next t) :
    ∃ q, u = laneUnit q ∧ s.seq = .idle ∧ mayProduce q s ∧
      ((queueFull s.cfg (getQueue q s) = true ∧ t = result notReady (withProducer q s)) ∨
        (queueFull s.cfg (getQueue q s) = false ∧ bufferRefusal s [queueInSpan s] [] = none ∧
          t = result 0#32 (setQueue q
            { putCurrent (memReadRun s.mem s.operands.lineIn.toNat s.cfg.lineBytes) (getQueue q (withProducer q s)) with
              midSequence := true }
            (withProducer q s)))) := by
  obtain ⟨q, hu, h⟩ := withUnit_eq_next.mp h
  obtain ⟨-, -, hq, h⟩ := allowed_eq_next.mp h
  obtain ⟨hp, h⟩ := asProducer_eq_next h
  refine ⟨q, hu, hq, hp, ?_⟩
  have hc : (withProducer q s).cfg = s.cfg := setQueue_cfg _ _ _
  have hf : queueFull (withProducer q s).cfg (getQueue q (withProducer q s)) = queueFull s.cfg (getQueue q s) := by
    cases q <;> rfl
  split at h
  · rename_i hx
    exact .inl ⟨hf ▸ hx, by simpa [eq_comm] using h⟩
  · rename_i hx
    obtain ⟨hb, h⟩ := unlessRefused_eq_next.mp h
    refine .inr ⟨by simpa [hf] using hx, ?_, ?_⟩
    · cases q <;> exact hb
    · cases q <;> exact (Host.Outcome.next.inj h).symm

theorem exec_lqCommit_eq_next {u : BitVec 8} {s t : State} (h : exec (.lqCommit u) s = .next t) :
    ∃ q row, u = laneUnit q ∧ s.seq = .idle ∧ mayProduce q s ∧ queueFull s.cfg (getQueue q s) = false ∧
      slotRead (getQueue q s) (getQueue q s).cur = some row ∧
      t = result 0#32 (setQueue q
        { advanceCur s.cfg (putCurrent (andRow row s.mask) (getQueue q (withProducer q s))) with midSequence := false }
        (withProducer q s)) := by
  obtain ⟨q, hu, h⟩ := withUnit_eq_next.mp h
  obtain ⟨-, -, hq, h⟩ := allowed_eq_next.mp h
  obtain ⟨hp, h⟩ := asProducer_eq_next h
  obtain ⟨hf, h⟩ := require_eq_next.mp h
  obtain ⟨row, hr, h⟩ := need_eq_next.mp h
  have hf' : queueFull (withProducer q s).cfg (getQueue q (withProducer q s)) = queueFull s.cfg (getQueue q s) := by
    cases q <;> rfl
  refine ⟨q, row, hu, hq, hp, by simpa [hf'] using hf, ?_, ?_⟩
  · cases q <;> exact hr
  · cases q <;> exact (Host.Outcome.next.inj h).symm

theorem exec_lqRead_eq_next {u : BitVec 8} {s t : State} (h : exec (.lqRead u) s = .next t) :
    ∃ q, u = laneUnit q ∧ s.seq = .idle ∧ mayConsume q s ∧
      ((queueEmpty s.cfg (getQueue q s) = true ∧ t = result 1#32 (withConsumer q s)) ∨
        ∃ row, queueEmpty s.cfg (getQueue q s) = false ∧ bufferRefusal s [] [queueOutSpan s] = none ∧
          slotRead (getQueue q s) (getQueue q s).last = some row ∧
          t = result 0#32 (setQueue q (advanceLast s.cfg (getQueue q (withConsumer q s)))
            { withConsumer q s with mem := memWriteRun s.mem s.operands.lineOut.toNat row })) := by
  obtain ⟨q, hu, h⟩ := withUnit_eq_next.mp h
  obtain ⟨-, -, hq, h⟩ := allowed_eq_next.mp h
  obtain ⟨hp, h⟩ := asConsumer_eq_next h
  refine ⟨q, hu, hq, hp, ?_⟩
  have hf : queueEmpty (withConsumer q s).cfg (getQueue q (withConsumer q s)) = queueEmpty s.cfg (getQueue q s) := by
    cases q <;> rfl
  split at h
  · rename_i hx
    exact .inl ⟨hf ▸ hx, by simpa [eq_comm] using h⟩
  · rename_i hx
    obtain ⟨hb, h⟩ := unlessRefused_eq_next.mp h
    obtain ⟨row, hr, h⟩ := need_eq_next.mp h
    refine .inr ⟨row, by simpa [hf] using hx, ?_, ?_, ?_⟩
    · cases q <;> exact hb
    · cases q <;> exact hr
    · cases q <;> exact (Host.Outcome.next.inj h).symm

theorem exec_lqReset_eq_next {u : BitVec 8} {s t : State} (h : exec (.lqReset u) s = .next t) :
    ∃ q, u = laneUnit q ∧ s.issuer = .host ∧ s.seq = .idle ∧ (getQueue q s).midSequence = false ∧
      t = { setQueue q (emptyQueue (getQueue q s)) s with resHost := 0#32 } := by
  obtain ⟨q, hu, h⟩ := withUnit_eq_next.mp h
  obtain ⟨hp, -, hq, h⟩ := allowed_eq_next.mp h
  have hp : s.issuer = .host := by simpa using hp
  obtain ⟨hm, h⟩ := require_eq_next.mp h
  rw [result_of_host (by rw [setQueue_issuer]; exact hp)] at h
  exact ⟨q, hu, hp, hq, by simpa using hm, (Host.Outcome.next.inj h).symm⟩

/-! ### Fetch, feed and the sequencer -/

theorem exec_fetch_eq_next {u : BitVec 8} {s t : State} (h : exec (.fetch u) s = .next t) :
    ∃ l, u = laneUnit l ∧ s.issuer = lanePort l ∧ (getLane l s).busy = false ∧ s.seq = .transmitting ∧
      mayProduce l s ∧ t = claimStep l (withProducer l s) := by
  obtain ⟨l, hu, h⟩ := withUnit_eq_next.mp h
  obtain ⟨hp, hh, hq, h⟩ := allowed_eq_next.mp h
  have hp : s.issuer = lanePort l := by simpa using hp
  obtain ⟨hm, h⟩ := asProducer_eq_next h
  exact ⟨l, hu, hp, by rw [← issuerHeld_of_lane hp, hh], hq, hm, (Host.Outcome.next.inj h).symm⟩

theorem exec_feed_eq_next {s t : State} (h : exec .feed s = .next t) :
    s.issuer = .feeder ∧ s.seq = .transmitting ∧
      ((s.cfg.height ≤ s.linesConsumed ∧ t = { s with resFeeder := 2#32 }) ∨
        (s.linesConsumed < s.cfg.height ∧ mayConsume .zero s ∧ mayConsume .one s ∧
          feedStep (withConsumer .one (withConsumer .zero s)) = .next t)) := by
  obtain ⟨hp, -, hq, h⟩ := allowed_eq_next.mp h
  have hp : s.issuer = .feeder := by simpa using hp
  refine ⟨hp, hq, ?_⟩
  split at h
  · rename_i hc
    rw [result_of_feeder hp] at h
    exact .inl ⟨hc, (Host.Outcome.next.inj h).symm⟩
  · rename_i hc
    obtain ⟨h0, h⟩ := asConsumer_eq_next h
    obtain ⟨h1, h⟩ := asConsumer_eq_next h
    exact .inr ⟨by omega, h0, h1, h⟩

theorem exec_maskBuild_eq_next {s t : State} (h : exec .maskBuild s = .next t) :
    s.issuer = .host ∧ s.seq = .idle ∧ t = { s with mask := buildMask s, resHost := 0#32 } := by
  obtain ⟨hp, -, hq, h⟩ := allowed_eq_next.mp h
  have hp : s.issuer = .host := by simpa using hp
  rw [result_of_host (by exact hp)] at h
  exact ⟨hp, hq, (Host.Outcome.next.inj h).symm⟩

theorem exec_updStart_eq_next {s t : State} (h : exec .updStart s = .next t) :
    s.issuer = .host ∧ s.seq = .idle ∧
      (((startErrors s ≠ 0#32 ∨ s.phaseCount = 0#32) ∧
          t = { startClear s with seq := .done, resHost := startErrors s }) ∨
        (startErrors s = 0#32 ∧ s.phaseCount ≠ 0#32 ∧
          t = { startClear s with mask := buildMask s, seq := .preparing, resHost := 0#32 })) := by
  obtain ⟨hp, -, hq, h⟩ := allowed_eq_next.mp h
  have hp : s.issuer = .host := by simpa using hp
  refine ⟨hp, hq, ?_⟩
  have h := Host.Outcome.next.inj h
  split at h
  · rename_i he
    rw [result_of_host (by exact hp)] at h
    exact .inl ⟨.inl he, h.symm⟩
  · rename_i he
    have he : startErrors s = 0#32 := by simpa using he
    split at h
    · rename_i hc
      rw [result_of_host (by exact hp)] at h
      exact .inl ⟨.inr hc, h.symm⟩
    · rename_i hc
      rw [result_of_host (by exact hp), he] at h
      exact .inr ⟨he, hc, h.symm⟩

theorem exec_prep_eq_next {s t : State} (h : exec .prep s = .next t) :
    s.issuer = .host ∧ s.seq = .preparing ∧ ∃ l, selectLayout s.mode s.ctrl = .ok l ∧ buildRefusal s l = none ∧
      t = { prepared { s with lut := builtLut s l } with resHost := 0#32 } := by
  obtain ⟨hp, -, hq, h⟩ := allowed_eq_next.mp h
  have hp : s.issuer = .host := by simpa using hp
  refine ⟨hp, hq, ?_⟩
  split at h
  · cases h
  · rename_i l hl
    obtain ⟨hb, h⟩ := buildLayout_eq_next.mp h
    rw [result_of_host (by exact hp)] at h
    exact ⟨l, hl, hb, (Host.Outcome.next.inj h).symm⟩

theorem exec_frameDone_eq_next {s t : State} (h : exec .frameDone s = .next t) :
    s.issuer = .feeder ∧ s.seq = .transmitting ∧ s.linesConsumed = s.cfg.height ∧ s.fdone = false ∧
      t = result (frameDoneStep s).2 (frameDoneStep s).1 := by
  obtain ⟨hp, -, hq, h⟩ := allowed_eq_next.mp h
  obtain ⟨hc, h⟩ := require_eq_next.mp h
  obtain ⟨hf, h⟩ := require_eq_next.mp h
  exact ⟨by simpa using hp, hq, by simpa using hc, by simpa using hf, (Host.Outcome.next.inj h).symm⟩

theorem exec_updAck_eq_next {s t : State} (h : exec .updAck s = .next t) :
    s.issuer = .host ∧ s.seq = .done ∧ t = { s with seq := .idle, resHost := 0#32 } := by
  obtain ⟨hp, -, hq, h⟩ := allowed_eq_next.mp h
  have hp : s.issuer = .host := by simpa using hp
  rw [result_of_host (by exact hp)] at h
  exact ⟨hp, hq, (Host.Outcome.next.inj h).symm⟩

end Sys2Proof.Machine
end

