-- ==== Sys2Proof/Laws/PerInstr.lean ====
section
/-! SUPPORT. Per-instruction laws of the encoding: every operation's word carries the fixed bits of its row of
spec/opcode_table.json, and names a lane where it carries a unit (30_encoding.md R110 to R112). -/

namespace Sys2Proof.Laws

/-- The fixed bits of an operation's row (R112). -/
def rowMask (i : Instr) : Word :=
  match i with
  | .nop => 0xFFFFFFFF#32
  | .lb1p64k => 0xFFFFFFFF#32
  | .lb1p1k => 0xFFFFFFFF#32
  | .lb2p64k _ => 0xFFFFFFF0#32
  | .lb2p1k _ => 0xFFFFFFF0#32
  | .lb8p _ => 0xFFFFFFFE#32
  | .lbAuto => 0xFFFFFFFF#32
  | .pl1p64k => 0xFFFFFFFF#32
  | .pl1p1k => 0xFFFFFFFF#32
  | .pl2p64k => 0xFFFFFFFF#32
  | .pl2p1k => 0xFFFFFFFF#32
  | .pl8p => 0xFFFFFFFF#32
  | .plAuto => 0xFFFFFFFF#32
  | .diff => 0xFFFFFFFF#32
  | .lqCurrent _ => 0xFF00FFFF#32
  | .lqWrite _ => 0xFF00FFFF#32
  | .lqCommit _ => 0xFF00FFFF#32
  | .lqRead _ => 0xFF00FFFF#32
  | .lqReset _ => 0xFF00FFFF#32
  | .fetch _ => 0xFF00FFFF#32
  | .feed => 0xFFFFFFFF#32
  | .maskBuild => 0xFFFFFFFF#32
  | .updStart => 0xFFFFFFFF#32
  | .prep => 0xFFFFFFFF#32
  | .frameDone => 0xFFFFFFFF#32
  | .updAck => 0xFFFFFFFF#32

/-- Their values (R112). -/
def rowMatch (i : Instr) : Word :=
  match i with
  | .nop => 0x00000000#32
  | .lb1p64k => 0x10000000#32
  | .lb1p1k => 0x11000000#32
  | .lb2p64k _ => 0x12000000#32
  | .lb2p1k _ => 0x13000000#32
  | .lb8p _ => 0x14000000#32
  | .lbAuto => 0x1F000000#32
  | .pl1p64k => 0x20000000#32
  | .pl1p1k => 0x21000000#32
  | .pl2p64k => 0x22000000#32
  | .pl2p1k => 0x23000000#32
  | .pl8p => 0x24000000#32
  | .plAuto => 0x2F000000#32
  | .diff => 0x30000000#32
  | .lqCurrent _ => 0x40000000#32
  | .lqWrite _ => 0x41000000#32
  | .lqCommit _ => 0x42000000#32
  | .lqRead _ => 0x43000000#32
  | .lqReset _ => 0x44000000#32
  | .fetch _ => 0x50000000#32
  | .feed => 0x51000000#32
  | .maskBuild => 0x52000000#32
  | .updStart => 0x60000000#32
  | .prep => 0x61000000#32
  | .frameDone => 0x62000000#32
  | .updAck => 0x63000000#32

/-- The word of a well-formed operation carries its row's fixed bits, and a unit below `NLANES`. -/
def EncodingFields.Statement (i : Instr) : Prop :=
  i.WellFormed → encode i &&& rowMask i = rowMatch i ∧ (unitField (encode i)).toNat < numLanes

theorem EncodingFields.nop : EncodingFields.Statement .nop := by
  intro _; decide

theorem EncodingFields.lb1p64k : EncodingFields.Statement .lb1p64k := by
  intro _; decide

theorem EncodingFields.lb1p1k : EncodingFields.Statement .lb1p1k := by
  intro _; decide

theorem EncodingFields.lb2p64k (f : Nibble) : EncodingFields.Statement (.lb2p64k f) := by
  intro _; revert f; decide

theorem EncodingFields.lb2p1k (f : Nibble) : EncodingFields.Statement (.lb2p1k f) := by
  intro _; revert f; decide

theorem EncodingFields.lb8p (fw : Bool) : EncodingFields.Statement (.lb8p fw) := by
  intro _; revert fw; decide

theorem EncodingFields.lbAuto : EncodingFields.Statement .lbAuto := by
  intro _; decide

theorem EncodingFields.pl1p64k : EncodingFields.Statement .pl1p64k := by
  intro _; decide

theorem EncodingFields.pl1p1k : EncodingFields.Statement .pl1p1k := by
  intro _; decide

theorem EncodingFields.pl2p64k : EncodingFields.Statement .pl2p64k := by
  intro _; decide

theorem EncodingFields.pl2p1k : EncodingFields.Statement .pl2p1k := by
  intro _; decide

theorem EncodingFields.pl8p : EncodingFields.Statement .pl8p := by
  intro _; decide

theorem EncodingFields.plAuto : EncodingFields.Statement .plAuto := by
  intro _; decide

theorem EncodingFields.diff : EncodingFields.Statement .diff := by
  intro _; decide

theorem EncodingFields.lqCurrent (unit : BitVec 8) : EncodingFields.Statement (.lqCurrent unit) :=
  fun h => ⟨by revert unit; decide, by revert unit; decide⟩

theorem EncodingFields.lqWrite (unit : BitVec 8) : EncodingFields.Statement (.lqWrite unit) :=
  fun h => ⟨by revert unit; decide, by revert unit; decide⟩

theorem EncodingFields.lqCommit (unit : BitVec 8) : EncodingFields.Statement (.lqCommit unit) :=
  fun h => ⟨by revert unit; decide, by revert unit; decide⟩

theorem EncodingFields.lqRead (unit : BitVec 8) : EncodingFields.Statement (.lqRead unit) :=
  fun h => ⟨by revert unit; decide, by revert unit; decide⟩

theorem EncodingFields.lqReset (unit : BitVec 8) : EncodingFields.Statement (.lqReset unit) :=
  fun h => ⟨by revert unit; decide, by revert unit; decide⟩

theorem EncodingFields.fetch (unit : BitVec 8) : EncodingFields.Statement (.fetch unit) :=
  fun h => ⟨by revert unit; decide, by revert unit; decide⟩

theorem EncodingFields.feed : EncodingFields.Statement .feed := by
  intro _; decide

theorem EncodingFields.maskBuild : EncodingFields.Statement .maskBuild := by
  intro _; decide

theorem EncodingFields.updStart : EncodingFields.Statement .updStart := by
  intro _; decide

theorem EncodingFields.prep : EncodingFields.Statement .prep := by
  intro _; decide

theorem EncodingFields.frameDone : EncodingFields.Statement .frameDone := by
  intro _; decide

theorem EncodingFields.updAck : EncodingFields.Statement .updAck := by
  intro _; decide

end Sys2Proof.Laws
end

