-- ==== Sys2Proof/Laws/Step.lean ====
section
/-! SUPPORT. What one step can do when it answers a next state, input by input. -/

namespace Sys2Proof.Machine

/-- A register-port read changes nothing but the word it returns and the count of free values (R21). -/
theorem readOffset_eq_next {off : Nat} {s t : State} (h : readOffset off s = .next t) :
    t = { s with readData := t.readData, freeIdx := t.freeIdx } := by
  have answer_eq : ∀ {v : Word} {s t : State}, answer v s = .next t →
      t = { s with readData := t.readData, freeIdx := t.freeIdx } := by
    intro v s t h
    have h := Host.Outcome.next.inj h
    subst h
    rfl
  have slot_eq : ∀ {q : Lane} {i j : Nat}, slotWindow q i j s = .next t →
      t = { s with readData := t.readData, freeIdx := t.freeIdx } := by
    intro q i j h
    unfold slotWindow at h
    split at h
    · obtain ⟨row, -, h⟩ := need_eq_next.mp h
      split at h
      · have h := Host.Outcome.next.inj h
        subst h
        rfl
      · exact answer_eq h
    · exact answer_eq h
  unfold readOffset at h
  split at h; exact answer_eq h
  split at h
  · obtain ⟨b, -, h⟩ := need_eq_next.mp h
    exact answer_eq h
  split at h
  · split at h
    · unfold readElement at h
      split at h
      · exact answer_eq h
      · exact answer_eq h
      · obtain ⟨l, -, h⟩ := need_eq_next.mp h
        exact answer_eq h
      · exact answer_eq h
    · exact answer_eq h
  split at h; exact slot_eq h
  split at h; exact slot_eq h
  exact answer_eq h

/-- What a register-port write that is no command can do (R21, R22 to R27, R30, R41, R42). -/
theorem writeOffset_eq_next {off : Nat} {v : Word} {s t : State} (h : writeOffset off v s = .next t) :
    t = s ∨ t = flagError (v &&& errWritable) s ∨
      ((s.seq = .idle ∨ s.seq = .done) ∧
        ((∃ o, t = { s with operands := o }) ∨ t = { s with mode := v &&& 0x7FF#32 } ∨
          t = { s with ctrl := v &&& 0x7#32 } ∨ t = { s with phase := v &&& 0xFFFF#32 } ∨
          t = { s with phaseCount := v &&& 0xFFFF#32 } ∨
          (∃ y b, t = { s with dirtyLines := s.dirtyLines.set y b }) ∨
          ∃ j b, t = { s with dirtyCols := s.dirtyCols.set j b })) := by
  unfold writeOffset at h
  split at h
  · obtain ⟨hs, h⟩ := idleWrite_eq_next.mp h
    exact .inr (.inr ⟨hs, .inl ⟨_, h⟩⟩)
  split at h
  · obtain ⟨hs, h⟩ := idleWrite_eq_next.mp h
    exact .inr (.inr ⟨hs, .inr (.inl h)⟩)
  split at h
  · obtain ⟨hs, h⟩ := idleWrite_eq_next.mp h
    exact .inr (.inr ⟨hs, .inr (.inr (.inl h))⟩)
  split at h
  · obtain ⟨hs, h⟩ := idleWrite_eq_next.mp h
    exact .inr (.inr ⟨hs, .inr (.inr (.inr (.inl h)))⟩)
  split at h
  · obtain ⟨hs, h⟩ := idleWrite_eq_next.mp h
    exact .inr (.inr ⟨hs, .inr (.inr (.inr (.inr (.inl h))))⟩)
  split at h
  · exact .inr (.inl (Host.Outcome.next.inj h).symm)
  split at h
  · split at h
    · unfold writeElement at h
      split at h
      · obtain ⟨hs, h⟩ := idleWrite_eq_next.mp h
        exact .inr (.inr ⟨hs, .inr (.inr (.inr (.inr (.inr (.inl ⟨_, _, h⟩)))))⟩)
      · obtain ⟨hs, h⟩ := idleWrite_eq_next.mp h
        exact .inr (.inr ⟨hs, .inr (.inr (.inr (.inr (.inr (.inr ⟨_, _, h⟩)))))⟩)
      · exact .inl (Host.Outcome.next.inj h).symm
      · exact .inl (Host.Outcome.next.inj h).symm
    · exact .inl (Host.Outcome.next.inj h).symm
  exact .inl (Host.Outcome.next.inj h).symm

/-- A write answers a next state where it issues an operation on a command port, or writes a register. -/
theorem portWrite_eq_next {addr : Word} {bytes : Nat} {v : Word} {s t : State}
    (h : portWrite addr bytes v s = .next t) :
    bytes = 4 ∧
      ((∃ p i, commandPort (regOffset s.cfg addr) = some p ∧ decodeWord v = .ok i ∧
          exec i { s with issuer := p } = .next t) ∨
        (commandPort (regOffset s.cfg addr) = none ∧ writeOffset (regOffset s.cfg addr) v s = .next t)) := by
  obtain ⟨ha, h⟩ := require_eq_next.mp h
  refine ⟨(wordAccess_eq_true.mp ha).1, ?_⟩
  split at h
  · rename_i p hp
    unfold issueCommand at h
    split at h
    · cases h
    · rename_i i hi
      exact .inl ⟨p, i, hp, hi, h⟩
  · rename_i hp
    exact .inr ⟨hp, h⟩

/-- A scheduled lane takes its produce step, or holds (R226). -/
theorem scheduleLane_eq_next {l : Lane} {s t : State} (h : scheduleLane l s = .next t) :
    (produceEnabled l s = true ∧ produceStep l s = .next t) ∨ (produceEnabled l s = false ∧ t = s) := by
  unfold scheduleLane at h
  split at h
  · rename_i he
    exact .inl ⟨he, h⟩
  · rename_i he
    exact .inr ⟨by simpa using he, (Host.Outcome.next.inj h).symm⟩

/-- What a quiet step can do (log 6). -/
theorem quietStep_eq_next {s t : State} (h : quietStep s = .next t) :
    (∃ l, produceEnabled l s = true ∧ produceStep l s = .next t) ∨ t = s := by
  unfold quietStep at h
  split at h
  · rename_i he
    exact .inl ⟨.zero, he, h⟩
  split at h
  · rename_i he
    exact .inl ⟨.one, he, h⟩
  exact .inr (Host.Outcome.next.inj h).symm

/-- What one step can do. -/
theorem step_eq_next {s t : State} (h : step s = .next t) :
    (s.inbox = [] ∧ quietStep s = .next t) ∨
    ∃ e rest, s.inbox = e :: rest ∧ handle e { s with inbox := rest } = .next t := by
  unfold step at h
  split at h
  · rename_i he
    exact .inl ⟨he, h⟩
  · rename_i e rest he
    exact .inr ⟨e, rest, he, h⟩

end Sys2Proof.Machine
end

