-- ==== Sys2Proof/Tests/Slice0.lean ====
section
/-! SUPPORT. Tests: ill-formed operations, decoded words, one or two small steps per operation with the results of
spec/95_test_vectors.md, and for each statement with hypotheses a state that meets them. -/

namespace Sys2Proof.Machine

/-! ### Well-formedness: one ill-formed operation for each check -/

theorem test_wf_lqCurrent_unit : ¬ (Instr.lqCurrent 2#8).WellFormed := by decide
theorem test_wf_lqWrite_unit : ¬ (Instr.lqWrite 2#8).WellFormed := by decide
theorem test_wf_lqCommit_unit : ¬ (Instr.lqCommit 255#8).WellFormed := by decide
theorem test_wf_lqRead_unit : ¬ (Instr.lqRead 2#8).WellFormed := by decide
theorem test_wf_lqReset_unit : ¬ (Instr.lqReset 2#8).WellFormed := by decide
theorem test_wf_fetch_unit : ¬ (Instr.fetch 2#8).WellFormed ∧ (Instr.fetch 1#8).WellFormed := by decide

/-! ### Decoding: the words of R112, written out bit by bit -/

theorem test_decode_sequencer :
    decodeWord 0b00000000000000000000000000000000#32 = .ok .nop ∧
    decodeWord 0b01100000000000000000000000000000#32 = .ok .updStart ∧
    decodeWord 0b01100001000000000000000000000000#32 = .ok .prep ∧
    decodeWord 0b01100010000000000000000000000000#32 = .ok .frameDone ∧
    decodeWord 0b01100011000000000000000000000000#32 = .ok .updAck := by decide

theorem test_decode_builder :
    decodeWord 0b00010000000000000000000000000000#32 = .ok .lb1p64k ∧
    decodeWord 0b00010001000000000000000000000000#32 = .ok .lb1p1k ∧
    decodeWord 0b00010010000000000000000000001111#32 = .ok (.lb2p64k 15#4) ∧
    decodeWord 0b00010011000000000000000000000101#32 = .ok (.lb2p1k 5#4) ∧
    decodeWord 0b00010100000000000000000000000001#32 = .ok (.lb8p true) ∧
    decodeWord 0b00011111000000000000000000000000#32 = .ok .lbAuto := by decide

theorem test_decode_lookup :
    decodeWord 0b00100000000000000000000000000000#32 = .ok .pl1p64k ∧
    decodeWord 0b00100001000000000000000000000000#32 = .ok .pl1p1k ∧
    decodeWord 0b00100010000000000000000000000000#32 = .ok .pl2p64k ∧
    decodeWord 0b00100011000000000000000000000000#32 = .ok .pl2p1k ∧
    decodeWord 0b00100100000000000000000000000000#32 = .ok .pl8p ∧
    decodeWord 0b00101111000000000000000000000000#32 = .ok .plAuto := by decide

theorem test_decode_diff : decodeWord 0b00110000000000000000000000000000#32 = .ok .diff := by decide

theorem test_decode_queue :
    decodeWord 0b01000000000000010000000000000000#32 = .ok (.lqCurrent 1#8) ∧
    decodeWord 0b01000001000000010000000000000000#32 = .ok (.lqWrite 1#8) ∧
    decodeWord 0b01000010000000000000000000000000#32 = .ok (.lqCommit 0#8) ∧
    decodeWord 0b01000011000000010000000000000000#32 = .ok (.lqRead 1#8) ∧
    decodeWord 0b01000100000000000000000000000000#32 = .ok (.lqReset 0#8) := by decide

theorem test_decode_fetch_feed :
    decodeWord 0b01010000000000010000000000000000#32 = .ok (.fetch 1#8) ∧
    decodeWord 0b01010001000000000000000000000000#32 = .ok .feed ∧
    decodeWord 0b01010010000000000000000000000000#32 = .ok .maskBuild := by decide

/-- 95 X-k. -/
theorem test_decode_reserved :
    decodeWord 0x10010000#32 = .error .unitNotZero ∧ decodeWord 0x50020000#32 = .error .unitOutOfRange ∧
    decodeWord 0x12000010#32 = .error .argNotZero ∧ decodeWord 0x70000000#32 = .error .unknownOpcode := by decide

/-! ### Small states -/

/-- What a field of the next state is, if there is one. -/
def after {α : Type} (o : Out) (f : State → α) : Option α :=
  match o with
  | .next t => some (f t)
  | .fault _ => none
  | .refused _ => none

/-- The reset state with its operand registers changed. -/
def withOperands (f : Operands → Operands) (s : State) : State := { s with operands := f s.operands }

/-- `MEM` with bytes at an address. -/
def withBytes (a : Nat) (bs : List Byte) (s : State) : State := { s with mem := memWriteRun s.mem a bs }

/-- Phase 0 of the waveform TW of 95_test_vectors.md, by target. -/
def twPhase0 : List Byte :=
  [0x15, 0x55, 0x55, 0x55, 0x85, 0x55, 0x55, 0x55, 0xA1, 0x55, 0x55, 0x55, 0xA8, 0x55, 0x55, 0x55,
   0xAA, 0x15, 0x55, 0x55, 0xAA, 0x85, 0x55, 0x55, 0xAA, 0xA1, 0x55, 0x55, 0xAA, 0xA8, 0x55, 0x55,
   0xAA, 0xAA, 0x15, 0x55, 0xAA, 0xAA, 0x85, 0x55, 0xAA, 0xAA, 0xA1, 0x55, 0xAA, 0xAA, 0xA8, 0x55,
   0xAA, 0xAA, 0xAA, 0x15, 0xAA, 0xAA, 0xAA, 0x85, 0xAA, 0xAA, 0xAA, 0xA1, 0xAA, 0xAA, 0xAA, 0xA8]

/-- TW at 0x1000, one phase. -/
def tw : State :=
  { withBytes 0x1000 twPhase0 (withOperands (fun o => { o with wfBase := 0x1000#32 }) State.reset) with
    phaseCount := 1#32 }

/-- A line at 0x2000 for a lookup of `w` pixels into 0x3000, with a few `LUT` bytes. -/
def line (bs : List Byte) (w : Word) (lut : Cells) : State :=
  { withBytes 0x2000 bs (withOperands
      (fun o => { o with lineIn := 0x2000#32, lineOut := 0x3000#32, width := w }) State.reset) with lut := lut }

/-- The row a lookup wrote. -/
def rowAt (n : Nat) (t : State) : List Byte := memReadRun t.mem 0x3000 n

/-- A build of `LB` on TW is not refused. -/
theorem tw_ready : waveformReady tw := by decide +kernel

/-- An entry of the table a build leaves, if the build runs. -/
theorem built_entry {s : State} {l : Layout} {i : Nat} {b : Byte} (h : hostIdle s) (hb : buildRefusal s l = none)
    (hi : i < layoutSize l) (he : layoutEntry s l i = b) :
    ∃ t, lutBuild l s = .next t ∧ lutRead t.lut i = some b :=
  ⟨_, lutBuild_eq_next.mpr ⟨h.1, h.2, hb, rfl⟩, by
    show lutRead (builtLut s l) i = some b
    rw [lutRead_builtLut, if_pos hi, he]⟩

/-! ### One step per operation -/

theorem test_nop : after (exec .nop { State.reset with issuer := .feeder, resFeeder := 7#32 }) (·.resFeeder) =
    some 0#32 := by decide

/-- 95 section 3.1. -/
theorem test_lb1p64k : ∃ t, exec .lb1p64k tw = .next t ∧ lutRead t.lut 0xF00F = some 0x06#8 :=
  built_entry (s := tw) (l := .l1p64k) (i := 0xF00F) (b := 0x06#8) ⟨rfl, rfl⟩ (by decide +kernel) (by decide)
    (by decide +kernel)

theorem test_lb1p1k : ∃ t, exec .lb1p1k tw = .next t ∧ lutRead t.lut 0x20F = some 0x04#8 :=
  built_entry (s := tw) (l := .l1p1k) (i := 0x20F) (b := 0x04#8) ⟨rfl, rfl⟩ (by decide +kernel) (by decide)
    (by decide +kernel)

theorem test_lb2p64k : ∃ t, exec (.lb2p64k 7#4) tw = .next t ∧ lutRead t.lut 0x7A0F = some 0x62#8 :=
  built_entry (s := tw) (l := .l2p64k 7#4) (i := 0x7A0F) (b := 0x62#8) ⟨rfl, rfl⟩ (by decide +kernel) (by decide)
    (by decide +kernel)

theorem test_lb2p1k : ∃ t, exec (.lb2p1k 7#4) tw = .next t ∧ lutRead t.lut 0x37A = some 0x02#8 :=
  built_entry (s := tw) (l := .l2p1k 7#4) (i := 0x37A) (b := 0x02#8) ⟨rfl, rfl⟩ (by decide +kernel) (by decide)
    (by decide +kernel)

theorem test_lb8p : ∃ t, exec (.lb8p true) tw = .next t ∧ lutRead t.lut 0xA5 = some 0x11#8 :=
  built_entry (s := tw) (l := .l8p true) (i := 0xA5) (b := 0x11#8) ⟨rfl, rfl⟩ (by decide +kernel) (by decide)
    (by decide +kernel)

/-- R140: refused when `PHASE >= PHASE_COUNT`. -/
theorem test_lb_phase_out_of_range : exec .lb1p1k { tw with phase := 1#32 } = .refused .phaseOutOfRange := by
  rfl

/-- R142: `MODE = 0x082` with `S64K` is not implemented. -/
theorem test_lbAuto_not_implemented :
    after (exec .lbAuto { tw with mode := 0x082#32, ctrl := 2#32 }) (fun t => (t.error, t.resHost)) =
      some (0x2#32, 0x2#32) := by decide +kernel

/-- R141: the examples of 95 section 3.1. -/
theorem test_select :
    selectLayout 0x305#32 2#32 = .ok .l1p64k ∧ selectLayout 0x680#32 2#32 = .ok (.l2p64k 15#4) ∧
    selectLayout 0x480#32 1#32 = .ok (.l2p1k 0#4) ∧ selectLayout 0x440#32 0#32 = .ok (.l8p false) ∧
    selectLayout 0x240#32 1#32 = .error 0x2#32 ∧ selectLayout 0x1C0#32 2#32 = .error 0x1#32 := by decide

/-- 95 section 3.2. -/
theorem test_pl1p64k :
    after (exec .pl1p64k (line [0x0F, 0xF0, 0x77, 0x3C] 3#32 [(0x0077, 0x01#8), (0xF00F, 0x06#8)])) (rowAt 1) =
      some [0x60#8] := by decide +kernel

theorem test_pl1p1k :
    after (exec .pl1p1k (line [0x0F, 0xF0, 0x77, 0x3C] 3#32 [(0x00F, 0x40#8), (0x1F0, 0x20#8), (0x277, 0x00#8)]))
      (rowAt 1) = some [0x60#8] := by decide +kernel

theorem test_pl2p64k :
    after (exec .pl2p64k (line [0x0F, 0xF0] 3#32 [(0xF00F, 0x41#8)])) (rowAt 1) = some [0x40#8] := by decide +kernel

theorem test_pl2p1k :
    after (exec .pl2p1k (line [0x0F, 0xF0] 4#32 [(0x00F, 0x40#8), (0x1F0, 0x01#8)])) (rowAt 1) = some [0x41#8] := by
  decide +kernel

theorem test_pl8p :
    after (exec .pl8p (line [0xA5, 0xC0] 13#32 [(0x00, 0x55#8), (0x50, 0x44#8), (0xA5, 0x11#8), (0xC0, 0x05#8)]))
      (rowAt 4) = some [0x11#8, 0x44#8, 0x05#8, 0x40#8] := by decide +kernel

theorem test_pl_unwritten : exec .pl2p64k (line [0x0F, 0xF0] 3#32 []) = .fault .lutUnwritten := by rfl

theorem test_plAuto :
    after (exec .plAuto { line [0xA5] 3#32 [(0xA5, 0x11#8)] with mode := 0x240#32 }) (rowAt 1) = some [0x10#8] := by
  decide +kernel

/-- 95 D-a, on the display of 8 by 2. -/
def diffA : State :=
  withBytes 0x2000 [0xFF, 0x0F, 0xF3, 0xFF, 0xFF, 0xFF, 0xFF, 0xFF]
    (withBytes 0x2100 (List.replicate 8 0xFF#8)
      (withOperands (fun o => { o with
        srcTo := 0x2000#32, srcFrom := 0x2100#32, dstDiff := 0x3000#32, dcropW := 8#32, dcropH := 2#32 })
        State.reset))

theorem test_diff_dirty :
    after (exec .diff diffA) (fun t => (t.dirtyLines, t.dirtyCols, t.prevWhiteF, t.prevBlackF)) =
      some ([true, false], [0x00#8, 0xF0#8, 0x0C#8, 0x00#8], true, false) := by decide +kernel

theorem test_diff_rectangle :
    after (exec .diff diffA) (fun t => (t.rectX, t.rectY, t.rectW, t.rectH, memReadRun t.mem 0x3000 8)) =
      some (2#32, 0#32, 4#32, 1#32, [0xFF, 0xFF, 0x0F, 0xFF, 0xFF, 0x3F, 0xFF, 0xFF]) := by decide +kernel

/-- R87, R180: `out_diff` overlaps row 1 of the `to` image, which the crop does not reach; by hand. -/
theorem test_diff_overlap :
    exec .diff (withOperands (fun o => { o with
      srcTo := 0x2000#32, srcFrom := 0x2100#32, dstDiff := 0x2004#32, dcropW := 4#32, dcropH := 1#32 }) State.reset) =
      .refused .bufferOverlap := by rfl

/-- Queue 0 of the reset state changed. -/
def withQueue0 (f : Queue → Queue) (s : State) : State := setQueue .zero (f (getQueue .zero s)) s

/-- 95 Q-a, Q-b. -/
theorem test_lqCurrent :
    after (exec (.lqCurrent 0#8) (withQueue0 (fun x => { x with cur := 3, last := 1 }) State.reset)) (·.resHost) =
      some 3#32 ∧
    after (exec (.lqCurrent 0#8) (withQueue0 (fun x => { x with cur := 3 }) State.reset)) (·.resHost) =
      some 0xFFFFFFFF#32 := by decide

theorem test_lqWrite :
    after (exec (.lqWrite 0#8) (withBytes 0x2000 [0x11, 0x22]
      (withOperands (fun o => { o with lineIn := 0x2000#32 }) State.reset)))
      (fun t => (slotRead t.lane0.queue 0, t.lane0.queue.cur)) = some (some [0x11, 0x22], 0) := by decide +kernel

/-- 95 Q-c. -/
theorem test_lqCommit :
    after (exec (.lqCommit 0#8)
      { withQueue0 (putCurrent [0x61, 0x80]) State.reset with mask := [0xF0, 0x3C] })
      (fun t => (slotRead t.lane0.queue 0, t.lane0.queue.cur)) = some (some [0x60, 0x00], 1) := by decide

/-- 95 Q-h. -/
theorem test_lqCommit_unwritten : exec (.lqCommit 0#8) State.reset = .fault .slotUnwritten := by rfl

theorem test_lqRead :
    after (exec (.lqRead 0#8) (withQueue0 (fun x => { putCurrent [0xAB, 0xCD] x with cur := 1 })
      (withOperands (fun o => { o with lineOut := 0x3000#32 }) State.reset)))
      (fun t => (rowAt 2 t, t.lane0.queue.last)) = some ([0xAB, 0xCD], 1) := by decide +kernel

/-- 95 Q-e. -/
theorem test_lqRead_empty : after (exec (.lqRead 0#8) State.reset) (·.resHost) = some 1#32 := by decide

theorem test_lqReset :
    after (exec (.lqReset 0#8) (withQueue0 (fun x => { x with cur := 2, last := 1 }) State.reset))
      (fun t => (t.lane0.queue.cur, t.lane0.queue.last)) = some (0, 0) := by decide

/-- R304(c): refused between `LQ.WRITE` and its `LQ.COMMIT`, by hand. -/
theorem test_lqReset_midSequence :
    (match exec (.lqWrite 0#8) State.reset with
     | .next t => exec (.lqReset 0#8) t
     | o => o) = .refused .queueInUse := by rfl

/-- 95 M-a. -/
theorem test_maskBuild :
    after (exec .maskBuild { State.reset with ctrl := 4#32, dirtyCols := [0x00, 0x04, 0x0E, 0x00] }) (·.mask) =
      some [0x03, 0x30] := by decide

/-- A transmission in progress, lane 1 issuing. -/
def sending : State := { State.reset with seq := .transmitting, phaseCount := 1#32, issuer := .lane1 }

theorem test_fetch_claim :
    after (exec (.fetch 1#8) sending) (fun t => (t.lineNext, t.lane1.row, t.lane1.busy, t.lineThreads)) =
      some (1, 0, true, [some .one, none]) := by decide

/-- 95 X-h, in the last phase. -/
theorem test_fetch_no_row :
    after (exec (.fetch 1#8)
      { sending with lineNext := 2, linesConsumed := 2, fdone := true, lane0 := { sending.lane0 with done := true } })
      (fun t => (t.lane1.done, t.lane1.res, t.seq)) = some (true, 1#32, .done) := by decide

/-- 95 E-b. -/
theorem test_feed_starved :
    after (exec .feed { sending with issuer := .feeder })
      (fun t => (t.error, t.linesConsumed, t.resFeeder, t.busOut)) =
      some (0x400#32, 1, 1#32, [{ phase := 0#32, row := 0, starved := true, bytes := [0x00, 0x00] }]) := by decide

/-- 95 E-a. -/
theorem test_feed_no_line :
    after (exec .feed { sending with issuer := .feeder, linesConsumed := 2 }) (fun t => (t.resFeeder, t.busOut)) =
      some (2#32, []) := by decide

/-- 95 X-a. -/
theorem test_updStart_errors :
    after (exec .updStart { withOperands
      (fun o => { o with cropX := 4#32, cropW := 8#32, cropH := 1#32, areaW := 8#32 }) State.reset with
        mode := 0x180#32 }) (fun t => (t.error, t.resHost, t.seq)) = some (0x41#32, 0x41#32, .done) := by decide

/-- 95 X-c. -/
theorem test_updStart_good :
    after (exec .updStart { tw with mode := 0x100#32, ctrl := 2#32, error := 0x400#32 })
      (fun t => (t.error, t.seq)) = some (0#32, .preparing) := by decide +kernel

/-- A state in `PREPARING` with the monochrome layout. -/
def preparing : State := { State.reset with seq := .preparing, phaseCount := 1#32, mode := 0x240#32 }

theorem test_prep :
    after (exec .prep { preparing with lineNext := 2, linesConsumed := 2, fdone := true })
      (fun t => (t.seq, t.lineNext, t.linesConsumed, t.fdone)) = some (.transmitting, 0, 0, false) := by
  decide +kernel

theorem test_frameDone :
    after (exec .frameDone { sending with issuer := .feeder, linesConsumed := 2 })
      (fun t => (t.fdone, t.seq, t.resFeeder)) = some (true, .transmitting, 0#32) := by decide

/-- 95 X-g. -/
theorem test_frameDone_early :
    exec .frameDone { sending with issuer := .feeder, linesConsumed := 1 } = .refused .frameNotDelivered := by rfl

/-- 95 X-i. -/
theorem test_updAck :
    after (exec .updAck { State.reset with seq := .done, error := 0x400#32 }) (fun t => (t.seq, t.error)) =
      some (.idle, 0x400#32) := by decide

/-- 95 S5: a pixel of an odd row, the padding nibble kept. -/
theorem test_pixWrite : memRead (pixWrite [(1, 0xEE#8)] 0 2 2 0 3#4) 1 = 0x3E#8 := by decide

/-! ### For each statement with hypotheses, a state that meets them -/

/-- The next input is a command word on a port. -/
def issuing (p : Port) (w : Word) (s : State) : State := { s with inbox := [commandEvent s.cfg p w] }

theorem witness_ReservedWordsRefused :
    (opcField 0x70000000#32 = 0x70#8 ∧ decodeWord 0x70000000#32 = .error .unknownOpcode) ∧
    (opcField 0x00010000#32 = 0x00#8 ∧ unitField 0x00010000#32 ≠ 0#8) ∧
    (opcField 0x63000001#32 = 0x63#8 ∧ unitField 0x63000001#32 = 0#8 ∧ argField 0x63000001#32 ≠ 0#16) ∧
    (opcField 0x12000010#32 = 0x12#8 ∧ unitField 0x12000010#32 = 0#8 ∧ 16 ≤ (argField 0x12000010#32).toNat) ∧
    (opcField 0x14000002#32 = 0x14#8 ∧ unitField 0x14000002#32 = 0#8 ∧ 2 ≤ (argField 0x14000002#32).toNat) ∧
    (opcField 0x50020000#32 = 0x50#8 ∧ 2 ≤ (unitField 0x50020000#32).toNat) ∧
    (opcField 0x40010001#32 = 0x40#8 ∧ (unitField 0x40010001#32).toNat < 2 ∧ argField 0x40010001#32 ≠ 0#16) ∧
    nextCommand (issuing .host 0x70000000#32 State.reset) .host 0x70000000#32 :=
  ⟨by decide, by decide, by decide, by decide, by decide, by decide, by decide, _, rfl⟩

theorem witness_StepRunsCommand :
    (issuing .host 0x10000000#32 State.reset).inbox = commandEvent State.reset.cfg .host 0x10000000#32 :: [] ∧
    decodeWord 0x10000000#32 = .ok .lb1p64k ∧ decodeTableWord 32 0x50010000 = some (.fetch 1#8) :=
  ⟨rfl, by decide, by decide⟩

theorem witness_LegalityOfOperations :
    State.reset.issuer ∉ legalPorts .feed ∧
    (let s := { State.reset with issuer := .lane0, lane0 := { State.reset.lane0 with busy := true } }
     s.issuer ∈ legalPorts (.lqWrite 0#8) ∧ issuerHeld s = true) ∧
    (State.reset.issuer ∈ legalPorts .prep ∧ issuerHeld State.reset = false ∧
      legalSeq .prep = some .preparing ∧ State.reset.seq ≠ .preparing) ∧
    (State.reset.issuer ∈ legalPorts .nop ∧ legalSeq .nop = none) := by decide

theorem witness_ResetValues : { State.reset with inbox := [Event.reset] }.inbox = Event.reset :: [] := rfl

/-- A display of 8 columns and 20000 rows: `DIRTY_LINES` goes on past its 64 KB (R41). -/
def tall : Config := { Config.default with height := 20000 }

/-- A display of 40000 columns and 100 rows: `DIRTY_COLS` goes on past its 64 KB (R42). -/
def wide : Config := { Config.default with width := 40000, height := 100 }

/-- R41, R42, R43: elements past the first 64 KB of their windows, by hand. -/
theorem test_elementAt_large :
    elementAt tall 0x30010 = some (.dirtyLine 0x4004) ∧ elementAt wide (0x30000 + 4 * 18000) = some (.dirtyCol 18000) ∧
    elementAt { tall with height := 65535 } 0x60000 = some (.lineThread 0x8000) := by decide

/-- The display of a state replaced, its dirty arrays of the display's size. -/
def resized (c : Config) : State :=
  { State.reset with
    cfg := c, dirtyLines := List.replicate c.height false, dirtyCols := List.replicate c.colBytes 0#8 }

theorem witness_RegisterWritesStore :
    (State.reset.seq = .idle ∨ State.reset.seq = .done) ∧ { State.reset with seq := .done }.seq = .done ∧
    (lineAnswers tall 0 ∧ lineAnswers tall 0x3FFF ∧ lineAnswers tall 0x4004 ∧ (resized tall).cfg = tall ∧
      (resized tall).dirtyLines.length = tall.height) ∧
    (colAnswers wide 0 ∧ colAnswers wide 0x3FFF ∧ colAnswers wide 19999 ∧ (resized wide).cfg = wide ∧
      (resized wide).dirtyCols.length = wide.colBytes) :=
  ⟨by decide, rfl, ⟨by decide, by decide, by decide, rfl, List.length_replicate⟩,
    ⟨by decide, by decide, by decide, rfl, List.length_replicate⟩⟩

theorem witness_WritesWithoutEffect :
    ((preparing.seq = .preparing ∨ preparing.seq = .transmitting) ∧ 0x048 % 4 = 0 ∧ 0x048 < 0x04C ∧ 0x08C % 4 = 0 ∧
      lineAnswers preparing.cfg 1 ∧ colAnswers preparing.cfg 3) ∧
    (0x07C % 4 = 0 ∧ 0x07C < 0x080 ∧ 0x094 % 4 = 0 ∧ 0x0FC % 4 = 0 ∧ 0x0FC < 0x100 ∧ 0x1FFFC % 4 = 0 ∧
      0x1FFFFFC % 4 = 0 ∧ threadAnswers preparing.cfg 1 ∧ threadAnswers { tall with height := 65535 } 0x8000 ∧
      1 < preparing.cfg.lineBytes) ∧
    (offsetUnnamed preparing.cfg 0x20008 ∧ offsetUnnamed preparing.cfg 0x50008 ∧
      offsetUnnamed preparing.cfg 0xFFFFFC ∧ offsetUnnamed preparing.cfg 0x2000000) :=
  ⟨by decide, by decide, by decide⟩

theorem witness_ErrorBitsSticky : ∃ t, step { State.reset with error := 0x400#32 } = .next t := ⟨_, rfl⟩

/-- A state with something to read in every window. -/
def readable : State :=
  { withQueue0 (fun x => { putCurrent [0x12, 0x34] x with cur := 1 }) State.reset with
    lut := [(65532, 0x55#8)], lineThreads := [none, some .one] }

theorem witness_RegisterReadsReturn :
    after (handle (.portRead 0x080#32 4) readable) (·.readData) = some 0#32 ∧
    lutRead readable.lut 65532 = some 0x55#8 ∧ lutRead readable.lut 0 = none ∧ 65532 % 4 = 0 ∧ lineAnswers readable.cfg 1 ∧
    threadAnswers readable.cfg 1 ∧ threadAnswers readable.cfg 0 ∧
    readable.lineThreads[1]? = some (some .one) ∧ readable.lineThreads[0]? = some none ∧
    colAnswers readable.cfg 3 ∧ 1 < readable.cfg.lineBytes ∧
    slotRead (getQueue .zero readable) 0 = some [0x12, 0x34] ∧ slotInFlight .zero 0 readable = false ∧
    slotRead (getQueue .one readable) 3 = none ∧ 3 < readable.cfg.qcap := by decide +kernel

theorem witness_BadAccessRefused :
    (2 : Nat) ≠ 4 ∧ (0x00010001#32 - State.reset.cfg.reBase).toNat % 4 ≠ 0 ∧
    (0x01000002#32 - State.reset.cfg.reBase).toNat % 4 ≠ 0 := by decide

/-- By hand from R40, R45, R80: the word at a misaligned offset of the `LUT` and of the `SLOT` window is refused. -/
theorem test_misaligned_window_read_refused :
    portRead 0x00010001#32 4 readable = .refused .badAccess ∧
    portRead 0x01000001#32 4 readable = .refused .badAccess ∧
    after (portRead 0x01000000#32 4 readable) (·.readData) = some 0x12#32 :=
  ⟨rfl, rfl, by decide +kernel⟩

theorem witness_PixelRoundTrip : (3 : Nat) < 2 * 2 ∧ (2 : Nat) < 2 * 2 ∧ ((2, 0) : Nat × Nat) ≠ (3, 0) := by decide

/-- Parameters with lagging views. -/
def lagging : Config := { Config.default with cdcLag := true }

theorem witness_SyncSteps :
    { State.reset with cfg := lagging }.cfg.cdcLag = true ∧ State.reset.cfg.cdcLag = false ∧ 2 ≤ lagging.qcap ∧
    QueueOk lagging { putCurrent [0, 0] (Queue.reset lagging) with cur := 1, curView := 1 } ∧
    queueFull lagging { putCurrent [0, 0] (Queue.reset lagging) with cur := 1, curView := 1 } = false ∧
    queueEmpty lagging { putCurrent [0, 0] (Queue.reset lagging) with cur := 1, curView := 1 } = false := by decide

theorem witness_Lb1P64KBuildsTable : hostIdle tw ∧ waveformReady tw ∧ hostIdle { tw with phase := 1#32 } ∧
    { tw with phase := 1#32 }.phaseCount.toNat ≤ { tw with phase := 1#32 }.phase.toNat :=
  ⟨⟨rfl, rfl⟩, tw_ready, ⟨rfl, rfl⟩, by decide⟩

theorem witness_Lb1P1KBuildsTable : hostIdle tw ∧ waveformReady tw ∧ hostIdle { tw with phase := 1#32 } ∧
    { tw with phase := 1#32 }.phaseCount.toNat ≤ { tw with phase := 1#32 }.phase.toNat := witness_Lb1P64KBuildsTable

theorem witness_Lb2P64KBuildsTable : hostIdle tw ∧ waveformReady tw ∧ hostIdle { tw with phase := 1#32 } ∧
    { tw with phase := 1#32 }.phaseCount.toNat ≤ { tw with phase := 1#32 }.phase.toNat := witness_Lb1P64KBuildsTable

theorem witness_Lb2P1KBuildsTable : hostIdle tw ∧ waveformReady tw ∧ hostIdle { tw with phase := 1#32 } ∧
    { tw with phase := 1#32 }.phaseCount.toNat ≤ { tw with phase := 1#32 }.phase.toNat := witness_Lb1P64KBuildsTable

theorem witness_Lb8PWritesFixedTable : hostIdle State.reset := ⟨rfl, rfl⟩

theorem witness_SelectLayout :
    bitAt ((0#32).getLsbD 6) 0 + bitAt ((0#32).getLsbD 7) 0 + bitAt ((0#32).getLsbD 8) 0 ≠ 1 ∧
    bitAt ((0x100#32).getLsbD 6) 0 + bitAt ((0x100#32).getLsbD 7) 0 + bitAt ((0x100#32).getLsbD 8) 0 = 1 := by decide

theorem witness_LbAutoBuildsSelected :
    hostIdle tw ∧ selectLayout tw.mode tw.ctrl = .error 0x001#32 ∧
    (let s := { tw with mode := 0x100#32, ctrl := 1#32 }
     hostIdle s ∧ selectLayout s.mode s.ctrl = .ok .l1p1k ∧ buildRefusal s .l1p1k = none) := by decide +kernel

/-- The build of a layout runs on TW. -/
theorem tw_builds (l : Layout) : ∃ t, lutBuild l tw = .next t ∧ t.lut = builtLut tw l :=
  ⟨_, lutBuild_eq_next.mpr ⟨rfl, rfl, buildRefusal_eq_none.mpr (fun _ => tw_ready), rfl⟩, rfl⟩

theorem witness_LayoutsAgree :
    (∃ t u, exec .lb1p64k tw = .next t ∧ exec .lb1p1k tw = .next u) ∧
    ∃ t u, exec (.lb2p64k 15#4) tw = .next t ∧ exec (.lb2p1k 15#4) tw = .next u :=
  ⟨⟨_, _, (tw_builds .l1p64k).choose_spec.1, (tw_builds .l1p1k).choose_spec.1⟩,
    ⟨_, _, (tw_builds (.l2p64k 15#4)).choose_spec.1, (tw_builds (.l2p1k 15#4)).choose_spec.1⟩⟩

/-- A lookup of five pixels with a full table of a layout. -/
def tabled (l : Layout) : State := line [0x0F, 0xF0, 0x77, 0x3C, 0xC3] 5#32 (builtLut tw l)

theorem tabled_holds (l : Layout) : lutHolds (tabled l).lut (layoutSize l) (layoutEntry tw l) := by
  intro i hi
  show lutRead (builtLut tw l) i = _
  rw [lutRead_builtLut, if_pos hi]

theorem tabled_ready (l : Layout) (p : Packing) :
    hostIdle (tabled l) ∧ twoBufferRefusal (tabled l) [lineInSpan (tabled l) p] [lineOutSpan (tabled l)] = none := by
  refine ⟨⟨rfl, rfl⟩, ?_⟩
  show twoBufferRefusal (line [] 5#32 []) [lineInSpan (line [] 5#32 []) p] [lineOutSpan (line [] 5#32 [])] = none
  cases p <;> decide +kernel

theorem witness_Pl1P64KWritesRow :
    (∃ (s : State) (tab : Nat → Byte), hostIdle s ∧ lutHolds s.lut 65536 tab ∧
      twoBufferRefusal s [lineInSpan s .diff1] [lineOutSpan s] = none) ∧
    (let s := line [0x0F, 0xF0, 0x77, 0x3C, 0xC3] 5#32 []
     hostIdle s ∧ twoBufferRefusal s [lineInSpan s .diff1] [lineOutSpan s] = none ∧
      1 < ceilDiv s.operands.width.toNat 4 ∧
      lutRead s.lut (lineByte s .diff1 (4 * 1) + lineByte s .diff1 (4 * 1 + 1) * 256) = none) :=
  ⟨⟨tabled .l1p64k, _, (tabled_ready _ .diff1).1, tabled_holds .l1p64k, (tabled_ready _ .diff1).2⟩,
    ⟨rfl, rfl⟩, by decide +kernel, by decide +kernel, rfl⟩

theorem witness_Pl1P1KWritesRow : ∃ (s : State) (tab : Nat → Byte), hostIdle s ∧ lutHolds s.lut 1024 tab ∧
    twoBufferRefusal s [lineInSpan s .diff1] [lineOutSpan s] = none :=
  ⟨tabled .l1p1k, _, (tabled_ready _ .diff1).1, tabled_holds .l1p1k, (tabled_ready _ .diff1).2⟩

theorem witness_Pl2P64KWritesRow : ∃ (s : State) (tab : Nat → Byte), hostIdle s ∧ lutHolds s.lut 65536 tab ∧
    twoBufferRefusal s [lineInSpan s .fb4] [lineOutSpan s] = none :=
  ⟨tabled (.l2p64k 15#4), _, (tabled_ready _ .fb4).1, tabled_holds (.l2p64k 15#4), (tabled_ready _ .fb4).2⟩

theorem witness_Pl2P1KWritesRow : ∃ (s : State) (tab : Nat → Byte), hostIdle s ∧ lutHolds s.lut 1024 tab ∧
    twoBufferRefusal s [lineInSpan s .fb4] [lineOutSpan s] = none :=
  ⟨tabled (.l2p1k 15#4), _, (tabled_ready _ .fb4).1, tabled_holds (.l2p1k 15#4), (tabled_ready _ .fb4).2⟩

theorem witness_Pl8PWritesRow : ∃ (s : State) (tab : Nat → Byte), hostIdle s ∧ lutHolds s.lut 256 tab ∧
    twoBufferRefusal s [lineInSpan s .mono8] [lineOutSpan s] = none :=
  ⟨tabled (.l8p true), _, (tabled_ready _ .mono8).1, tabled_holds (.l8p true), (tabled_ready _ .mono8).2⟩

theorem witness_PlAutoLooksUpSelected :
    (hostIdle State.reset ∧ selectLayout State.reset.mode State.reset.ctrl = .error 0x001#32) ∧
    ∃ (s : State) (tab : Nat → Byte), hostIdle s ∧ selectLayout s.mode s.ctrl = .ok (.l8p true) ∧
      lutHolds s.lut (layoutSize (.l8p true)) tab ∧
      twoBufferRefusal s [lineInSpan s .mono8] [lineOutSpan s] = none :=
  ⟨⟨⟨rfl, rfl⟩, by decide⟩,
    { tabled (.l8p true) with mode := 0x240#32 }, _, ⟨rfl, rfl⟩, by decide, tabled_holds (.l8p true),
    (tabled_ready (.l8p true) .mono8).2⟩

theorem witness_UnwrittenLutFaults :
    let s := line [0x0F, 0xF0, 0x77, 0x3C, 0xC3] 5#32 []
    hostIdle s ∧ 1 < ceilDiv s.operands.width.toNat 4 ∧ (∀ i, lutRead s.lut i = none) ∧
    4 * 1 + 0 < s.operands.width.toNat ∧ 2 / 2 = 1 ∧ 2 < ceilDiv s.operands.width.toNat 2 ∧
    twoBufferRefusal s [lineInSpan s .diff1] [lineOutSpan s] = none ∧
    twoBufferRefusal s [lineInSpan s .fb4] [lineOutSpan s] = none ∧
    twoBufferRefusal s [lineInSpan s .mono8] [lineOutSpan s] = none :=
  ⟨⟨rfl, rfl⟩, by decide +kernel, fun _ => rfl, by decide +kernel, by decide, by decide +kernel, by decide +kernel,
    by decide +kernel, by decide +kernel⟩

theorem witness_LookupGivesPixelCodes :
    ∃ t u, exec (lbOp .l1p64k) tw = .next t ∧ u.lut = t.lut ∧ hostIdle u ∧
      twoBufferRefusal u [lineInSpan u (layoutPacking .l1p64k)] [lineOutSpan u] = none := by
  obtain ⟨t, ht, hl⟩ := tw_builds .l1p64k
  exact ⟨t, tabled .l1p64k, ht, hl.symm, (tabled_ready _ .diff1).1, (tabled_ready _ .diff1).2⟩

theorem witness_DiffInvalidCrop :
    let s := withOperands (fun o => { o with dcropX := 0xFFFFFFFF#32, dcropW := 2#32, dcropH := 1#32 }) State.reset
    hostIdle s ∧ cropValid s = false := by decide

theorem witness_DiffWrites : hostIdle diffA ∧ cropValid diffA = true ∧
    twoBufferRefusal diffA (diffReads diffA) (diffWrites diffA) = none ∧ inCrop diffA 7 1 := by decide +kernel

theorem witness_DiffRectangle :
    (hostIdle diffA ∧ cropValid diffA = true ∧
      twoBufferRefusal diffA (diffReads diffA) (diffWrites diffA) = none ∧ inCrop diffA 2 0 ∧ changed diffA 2 0) ∧
    (let s := withOperands (fun o => { o with dcropX := 8#32, dcropY := 2#32, dcropW := 0#32, dcropH := 0#32 }) diffA
     hostIdle s ∧ cropValid s = true ∧ twoBufferRefusal s (diffReads s) (diffWrites s) = none) := by decide +kernel

/-- The hypotheses of the queue statements, on a queue with one row. -/
def oneRow : State := withQueue0 (fun x => { putCurrent [0xAB, 0xCD] x with cur := 1 }) State.reset

theorem witness_LqCurrentAnswersSlot : (State.reset.issuer = .host ∨ State.reset.issuer = lanePort .zero) ∧
    issuerHeld State.reset = false ∧ State.reset.seq = .idle := by decide

/-- Queue 0 full. -/
def fullQueue : State := withQueue0 (fun x => { x with cur := 3 }) State.reset

theorem witness_LqWriteFillsSlot :
    ((fullQueue.issuer = .host ∨ fullQueue.issuer = lanePort .zero) ∧ issuerHeld fullQueue = false ∧
      fullQueue.seq = .idle ∧ mayProduce .zero fullQueue ∧
      queueFull fullQueue.cfg (getQueue .zero fullQueue) = true) ∧
    (mayProduce .zero State.reset ∧ queueFull State.reset.cfg (getQueue .zero State.reset) = false ∧
      bufferRefusal State.reset [queueInSpan State.reset] [] = none) := by decide

theorem witness_LqCommitMasksAndAdvances :
    (fullQueue.issuer = .host ∧ mayProduce .zero fullQueue ∧
      queueFull fullQueue.cfg (getQueue .zero fullQueue) = true ∧ issuerHeld fullQueue = false ∧ fullQueue.seq = .idle) ∧
    (queueFull State.reset.cfg (getQueue .zero State.reset) = false ∧
      slotRead (getQueue .zero State.reset) (getQueue .zero State.reset).cur = none) ∧
    (let s := withQueue0 (putCurrent [0x61, 0x80]) State.reset
     s.issuer = .host ∧ issuerHeld s = false ∧ s.seq = .idle ∧ mayProduce .zero s ∧
      queueFull s.cfg (getQueue .zero s) = false ∧
      slotRead (getQueue .zero s) (getQueue .zero s).cur = some [0x61, 0x80] ∧ s.cfg.lineBytes = 2 ∧
      s.mask.length = 2) := by decide

theorem witness_LqReadCopiesOldest :
    (mayConsume .zero State.reset ∧ queueEmpty State.reset.cfg (getQueue .zero State.reset) = true) ∧
    (oneRow.issuer = .host ∧ oneRow.seq = .idle ∧ mayConsume .zero oneRow ∧
      queueEmpty oneRow.cfg (getQueue .zero oneRow) = false ∧
      bufferRefusal oneRow [] [queueOutSpan oneRow] = none ∧
      slotRead (getQueue .zero oneRow) (getQueue .zero oneRow).last = some [0xAB, 0xCD] ∧
      oneRow.cfg.lineBytes = 2) := by decide

theorem witness_LqResetEmptiesQueue :
    hostIdle oneRow ∧ (getQueue .zero oneRow).midSequence = false ∧
    (let s := withQueue0 (fun x => { x with midSequence := true }) oneRow
     hostIdle s ∧ (getQueue .zero s).midSequence = true) := by decide

/-- Queue 0 with a committed row and a written slot. -/
def twoRows : State := withQueue0 (fun x => putCurrent [0x11, 0x22] x) oneRow

theorem witness_QueueCapacity :
    hostIdle State.reset ∧ State.reset.cfg.cdcLag = false ∧ 2 ≤ State.reset.cfg.qcap ∧ 3 < State.reset.cfg.qcap ∧
    3 = State.reset.cfg.qcap - 1 ∧ QueueSized State.reset.cfg (getQueue .zero State.reset) ∧
    (getQueue .zero State.reset).cur < State.reset.cfg.qcap ∧
    (getQueue .zero State.reset).last = (getQueue .zero State.reset).cur ∧
    (getQueue .zero State.reset).producer = none ∧ (getQueue .zero State.reset).consumer = none ∧
    bufferRefusal State.reset [queueInSpan State.reset] [] = none ∧
    bufferRefusal State.reset [] [queueOutSpan State.reset] = none := by decide

theorem witness_OneProducerOneConsumer :
    (let s := withQueue0 (fun x => { x with producer := some .lane0, consumer := some .feeder }) State.reset
     issuerHeld s = false ∧ Port.lane0 ≠ s.issuer ∧ (getQueue .zero s).producer = some .lane0 ∧ s.seq = .idle ∧
      s.issuer = .host ∧ Port.feeder ≠ s.issuer ∧ (getQueue .zero s).consumer = some .feeder) ∧
    (let s := setQueue .one { getQueue .one sending with producer := some .host } sending
     issuerHeld s = false ∧ (getQueue .one s).producer = some .host ∧ s.seq = .transmitting ∧
      s.issuer = lanePort .one) ∧
    (let s := { withQueue0 (fun x => { x with consumer := some .host }) sending with issuer := .feeder }
     issuerHeld s = false ∧ (getQueue .zero s).consumer = some .host ∧ s.seq = .transmitting ∧
      s.linesConsumed < s.cfg.height) := by decide

theorem witness_NopWritesResultOnly : issuerHeld State.reset = false := by decide

theorem witness_MaskBuildKeepsDirtyColumns : hostIdle State.reset ∧ 1 < State.reset.cfg.lineBytes := by decide

theorem witness_FetchClaimsRow :
    (sending.issuer = lanePort .one ∧ (getLane .one sending).busy = false ∧ sending.seq = .transmitting ∧
      mayProduce .one sending ∧ sending.lineNext < sending.cfg.height) ∧
    { sending with lineNext := 2 }.cfg.height ≤ { sending with lineNext := 2 }.lineNext ∧
    (let s := { sending with
        fdone := true, lane0 := { sending.lane0 with done := true }, lane1 := { sending.lane1 with done := true } }
     s.seq = .transmitting ∧ s.fdone = true ∧ s.lane0.done = true ∧ s.lane1.done = true ∧ s.error = 0#32 ∧
      s.phaseCount.toNat ≤ s.phase.toNat + 1 ∧ { s with error := 0x400#32 }.error ≠ 0#32 ∧
      { s with phaseCount := 2#32 }.phase.toNat + 1 < { s with phaseCount := 2#32 }.phaseCount.toNat) := by decide

/-- Lane 0 holds row 1 of a full-display monochrome image. -/
def holding : State :=
  { withOperands (fun o => { o with srcTo := 0x2000#32, areaW := 8#32, areaH := 2#32 }) State.reset with
    seq := .transmitting, mode := 0x240#32, lineNext := 2, lineThreads := [some .zero, some .zero],
    lane0 := { State.reset.lane0 with busy := true, row := 1 }, inbox := [.produce .zero],
    lut := lutLoad [] 256 (layoutEntry State.reset (.l8p true)) }

theorem witness_ProduceRendersActiveRow :
    holding.inbox = .produce .zero :: [] ∧ (getLane .zero holding).busy = true ∧ holding.fdone = false ∧
    queueFull holding.cfg (getQueue .zero holding) = false ∧ rowActive holding (getLane .zero holding).row = true ∧
    selectLayout holding.mode holding.ctrl = .ok (.l8p true) ∧
    lutHolds holding.lut (layoutSize (.l8p true)) (layoutEntry State.reset (.l8p true)) ∧
    holding.mask.length = holding.cfg.lineBytes ∧
    bufferRefusal holding (rowSpans holding (layoutPacking (.l8p true)) (getLane .zero holding).row) [] = none := by
  refine ⟨rfl, rfl, rfl, by decide, by decide +kernel, by decide, ?_, by decide, by decide +kernel⟩
  intro i hi
  show lutRead (lutLoad [] 256 (layoutEntry State.reset (.l8p true))) i = _
  rw [lutRead_lutLoad]
  exact if_pos hi

/-- A platform that populates the first 64 KB only. -/
def small : Config := { Config.default with populated := [(0, 0x10000)] }

/-- The first byte past the populated ones. -/
def beyond (s : State) : State :=
  { withOperands (fun o => { o with
      wfBase := 0x10000#32, lineIn := 0xFFFF#32, lineOut := 0xFFFF#32, srcTo := 0x20000#32, srcFrom := 0x20000#32,
      dstDiff := 0x30000#32, width := 8#32 }) s with cfg := small }

theorem witness_BadBuffersRefused :
    (spansHold ([{ base := 0xFFFFFFFF, len := 2 }] ++ []) 0x100000000 ∧
      spansHold ([] ++ [{ base := 0xFFFF, len := 2 }]) 0x10000 ∧ ¬ populatedAt small 0x10000 ∧
      populatedAt small 0xFFFF ∧ spansHold [{ base := 5, len := 1 }] 5) ∧
    (hostIdle (beyond tw) ∧ layoutUsesWaveform .l1p1k = true ∧
      (beyond tw).phase.toNat < (beyond tw).phaseCount.toNat ∧
      bufferRefusal (beyond tw) [{ base := 0x10000 + 64 * 0, len := 64 }] [] = some .unpopulated ∧
      twoBufferRefusal (beyond State.reset) [{ base := 0xFFFF, len := 8 }] [{ base := 0xFFFF, len := 2 }] =
        some .bufferOverlap ∧
      cropValid (beyond State.reset) = true ∧
      twoBufferRefusal (beyond State.reset) [{ base := 0x20000, len := 8 }, { base := 0x20000, len := 8 }]
        [{ base := 0x30000, len := 16 }] = some .unpopulated) ∧
    (mayProduce .zero (beyond State.reset) ∧ queueFull small (getQueue .zero (beyond State.reset)) = false ∧
      bufferRefusal (beyond State.reset) [{ base := 0xFFFF, len := 2 }] [] = some .unpopulated ∧
      issuerHeld (beyond State.reset) = false) ∧
    (let s := { beyond preparing with mode := 0x100#32, ctrl := 1#32 }
     selectLayout s.mode s.ctrl = .ok .l1p1k ∧ s.issuer = .host ∧ s.seq = .preparing ∧
      s.phase.toNat < s.phaseCount.toNat ∧
      bufferRefusal s [{ base := s.operands.wfBase.toNat + 64 * 0, len := 64 }] [] = some .unpopulated) ∧
    (let s := withQueue0 (fun x => { putCurrent [0xAB, 0xCD] x with cur := 1 }) (beyond State.reset)
     mayConsume .zero s ∧ queueEmpty small (getQueue .zero s) = false ∧
      bufferRefusal s [] [{ base := 0xFFFF, len := 2 }] = some .unpopulated) ∧
    (let s := { holding with cfg := small, operands := { holding.operands with srcTo := 0x20000#32 } }
     s.inbox = .produce .zero :: [] ∧ (getLane .zero s).busy = true ∧ s.fdone = false ∧
      queueFull small (getQueue .zero s) = false ∧ rowActive s (getLane .zero s).row = true ∧
      selectLayout s.mode s.ctrl = .ok (.l8p true) ∧
      bufferRefusal s (rowSpans s .mono8 (getLane .zero s).row) [] = some .unpopulated) :=
  ⟨by decide +kernel, by decide +kernel, by decide +kernel, by decide +kernel, by decide +kernel,
    rfl, rfl, rfl, by decide +kernel, by decide +kernel, by decide +kernel, by decide +kernel⟩

theorem witness_ProduceOtherRows :
    (let s := { holding with operands := State.reset.operands }
     s.inbox = .produce .zero :: [] ∧ (getLane .zero s).busy = true ∧ s.fdone = false ∧
      queueFull s.cfg (getQueue .zero s) = false ∧ rowActive s (getLane .zero s).row = false ∧
      s.mask.length = s.cfg.lineBytes) ∧
    { holding with fdone := true }.fdone = true ∧
    (let s := withQueue0 (fun x => { x with cur := 3 }) holding
     s.inbox = .produce .zero :: [] ∧ (getLane .zero s).busy = true ∧ s.fdone = false ∧
      queueFull s.cfg (getQueue .zero s) = true) := by decide

/-- An area that begins left of the display, showing the crop {1, 1, 4, 1} of its image. -/
def cropped : State :=
  withOperands (fun o => { o with areaX := 0xFFFFFFFE#32, areaW := 8#32, areaH := 2#32, cropX := 1#32, cropY := 1#32,
                                  cropW := 4#32, cropH := 1#32 }) State.reset

theorem witness_GeometryOfUpdate :
    (0 < cropped.operands.cropW.toNat ∧ 0 < cropped.operands.cropH.toNat ∧ geomOk cropped = true ∧
      rowCovered cropped 0 = true ∧ colCovered cropped 1 = true ∧ colCovered cropped 2 = false) ∧
    (¬ (0 < holding.operands.cropW.toNat ∧ 0 < holding.operands.cropH.toNat) ∧ rowCovered holding 1 = true ∧
      colCovered holding 7 = true ∧ colCovered holding 8 = false) := by decide

/-- R222 by hand: column 1 shows image column 1 + (1 - (-2)) = 4, row 0 shows image row 1 + (0 - 0) = 1. -/
theorem test_geometry : imgX cropped 1 = 4 ∧ imgY cropped 0 = 1 := by decide

/-- The feeder in a transmission with row 0 claimed by lane 0. -/
def feeding : State :=
  { oneRow with seq := .transmitting, issuer := .feeder, lineNext := 1, lineThreads := [some .zero, none] }

theorem witness_FeedDeliversRow :
    (feeding.issuer = .feeder ∧ feeding.seq = .transmitting ∧ feeding.linesConsumed < feeding.cfg.height ∧
      mayConsume .zero feeding ∧ mayConsume .one feeding ∧ feeding.linesConsumed < feeding.lineNext ∧
      feeding.lineThreads[feeding.linesConsumed]? = some (some .zero) ∧
      queueEmpty feeding.cfg (getQueue .zero feeding) = false ∧
      slotRead (getQueue .zero feeding) (getQueue .zero feeding).last = some [0xAB, 0xCD]) ∧
    { feeding with lineNext := 0 }.lineNext ≤ { feeding with lineNext := 0 }.linesConsumed ∧
    queueEmpty feeding.cfg (getQueue .zero (withQueue0 (fun x => { x with cur := 0 }) feeding)) = true ∧
    { feeding with linesConsumed := 2 }.cfg.height ≤ { feeding with linesConsumed := 2 }.linesConsumed := by decide

theorem witness_QueueFirstInFirstOut :
    (2 ≤ twoRows.cfg.qcap ∧ QueueOk twoRows.cfg (getQueue .zero twoRows) ∧
      QueueSized twoRows.cfg (getQueue .zero twoRows) ∧ twoRows.mask.length = twoRows.cfg.lineBytes ∧
      queueEmpty twoRows.cfg (getQueue .zero twoRows) = false) ∧
    (∃ t, exec (.lqCommit 0#8) twoRows = .next t) ∧ (∃ t, exec (.lqRead 0#8) twoRows = .next t) ∧
    (∃ t, exec (.lqWrite 0#8) twoRows = .next t) ∧
    (let s := { holding with operands := State.reset.operands }
     QueueOk s.cfg (getQueue .zero s) ∧ QueueSized s.cfg (getQueue .zero s) ∧
      queueFull s.cfg (getQueue .zero s) = false ∧ ∃ t, step s = .next t) ∧
    (QueueOk feeding.cfg (getQueue .zero feeding) ∧ QueueSized feeding.cfg (getQueue .zero feeding) ∧
      feeding.mask.length = feeding.cfg.lineBytes ∧ feeding.linesConsumed < feeding.cfg.height ∧
      feeding.linesConsumed < feeding.lineNext ∧
      feeding.lineThreads[feeding.linesConsumed]? = some (some .zero) ∧
      queueEmpty feeding.cfg (getQueue .zero feeding) = false ∧ ∃ t, exec .feed feeding = .next t) :=
  ⟨by decide, ⟨_, rfl⟩, ⟨_, rfl⟩, ⟨_, rfl⟩, ⟨by decide, by decide, by decide, _, rfl⟩,
    ⟨by decide, by decide, by decide, by decide, by decide, by decide, by decide, _, rfl⟩⟩

theorem witness_BusOrderPermutesGroups :
    let c := { Config.default with busGroup := 2, busPerm := [1, 0] }
    c.Valid ∧ ([0x12, 0x34] : Row).length = c.lineBytes ∧ 0 < c.lineBytes / c.busGroup ∧ 1 < c.busGroup := by decide

theorem witness_UpdStartChecksAndPrepares :
    hostIdle tw ∧ selectLayout tw.mode tw.ctrl = .error 0x001#32 ∧
    (let s := { tw with mode := 0x100#32, ctrl := 2#32 }
     hostIdle s ∧ selectLayout s.mode s.ctrl = .ok .l1p64k ∧ s.phaseCount ≠ 0#32 ∧ geomOk s = true) := by
  decide +kernel

theorem witness_PrepStartsPhase :
    preparing.issuer = .host ∧ preparing.seq = .preparing ∧
    selectLayout preparing.mode preparing.ctrl = .ok (.l8p true) ∧ buildRefusal preparing (.l8p true) = none := by
  decide

theorem witness_FrameDoneEndsFrame :
    (let s := { sending with issuer := .feeder }
     s.issuer = .feeder ∧ s.seq = .transmitting ∧ s.linesConsumed ≠ s.cfg.height) ∧
    (let s := { sending with issuer := .feeder, linesConsumed := 2 }
     s.issuer = .feeder ∧ s.seq = .transmitting ∧ s.linesConsumed = s.cfg.height ∧ s.fdone = false ∧
      { s with fdone := true }.fdone = true) := by decide

theorem witness_UpdAckReturnsToIdle : { State.reset with seq := .done }.issuer = .host ∧
    { State.reset with seq := .done }.seq = .done := by decide

theorem witness_SequencerTransitions :
    ∃ t, step (issuing .host 0x63000000#32 { State.reset with seq := .done }) = .next t ∧ t.seq ≠ Seq.done :=
  ⟨_, rfl, by decide⟩

theorem witness_WhoWrites : ∃ t, exec .nop State.reset = .next t ∧ Port.lane0 ≠ State.reset.issuer :=
  ⟨_, rfl, by decide⟩

theorem witness_CanonicalFormKept :
    Sized State.reset ∧ Canonical State.reset ∧ (∃ t, step State.reset = .next t) ∧
    Memory.wf [(5, 0x01#8)] ∧ ∀ a, memRead [(5, 0x01#8)] a = memRead [(5, 0x01#8)] a :=
  ⟨by decide, by decide, ⟨_, rfl⟩, by decide, fun _ => rfl⟩

/-- A good state in mid-update: lane 0 holds row 0, the next input schedules it, the table is built. -/
def midUpdate : State :=
  { State.reset with
    seq := .transmitting, phaseCount := 1#32, mode := 0x240#32, lineNext := 1, lineThreads := [some .zero, none],
    lane0 := { State.reset.lane0 with busy := true }, inbox := [.produce .zero], issuer := .feeder,
    lut := lutLoad [] 256 (layoutEntry State.reset (.l8p true)) }

theorem midUpdate_inv : Inv midUpdate := by
  refine ⟨by decide, by decide, ⟨by decide, lutLoad_wf (by decide) (by decide) _⟩, by decide, by decide, ?_,
    by decide, ?_⟩
  · refine ⟨by decide, by decide, by decide, ?_, ?_, by decide⟩
    · intro l; cases l <;> decide
    · intro l; cases l <;> decide
  · intro _ l hl i hi
    have : l = .l8p true := by
      have h : selectLayout midUpdate.mode midUpdate.ctrl = .ok (.l8p true) := by decide
      exact Except.ok.inj (hl.symm.trans h)
    subst this
    show (lutRead (lutLoad [] 256 (layoutEntry State.reset (.l8p true))) i).isSome = true
    rw [lutRead_lutLoad]
    exact (congrArg Option.isSome (if_pos hi)).trans rfl

theorem witness_InvariantKept : Inv midUpdate ∧ ∃ t, step midUpdate = .next t :=
  ⟨midUpdate_inv, _, rfl⟩

theorem witness_NoFaultInUpdate : Inv midUpdate := midUpdate_inv

end Sys2Proof.Machine
end

section
/-! SUPPORT. The ring of a queue's slots (R211), and that each action on a queue in order leaves it in order. -/

namespace Sys2Proof.Machine

/-! ### Distances round the ring -/

theorem ahead_eq {c : Config} {a b : Nat} (ha : a < c.qcap) (hb : b < c.qcap) :
    ahead c a b = if a ≤ b then b - a else b + c.qcap - a := by
  unfold ahead
  split
  · rw [show b + c.qcap - a = b - a + c.qcap by omega, Nat.add_mod_right, Nat.mod_eq_of_lt (by omega)]
  · exact Nat.mod_eq_of_lt (by omega)

theorem nextIndex_eq {c : Config} {i : Nat} (hi : i < c.qcap) :
    nextIndex c i = if i + 1 = c.qcap then 0 else i + 1 := by
  unfold nextIndex
  split
  · rename_i h
    rw [h, Nat.mod_self]
  · exact Nat.mod_eq_of_lt (by omega)

theorem nextIndex_lt {c : Config} {i : Nat} (hi : i < c.qcap) : nextIndex c i < c.qcap :=
  Nat.mod_lt _ (by omega)

theorem ahead_self {c : Config} {a : Nat} (ha : a < c.qcap) : ahead c a a = 0 := by
  simp [ahead_eq ha ha]

theorem ahead_lt {c : Config} {a : Nat} (ha : a < c.qcap) (b : Nat) : ahead c a b < c.qcap :=
  Nat.mod_lt _ (by omega)

/-- Going from `a` to `b` and on to `d` in less than one round is going from `a` to `d`. -/
theorem ahead_trans {c : Config} {a b d : Nat} (ha : a < c.qcap) (hb : b < c.qcap) (hd : d < c.qcap)
    (h : ahead c a b + ahead c b d < c.qcap) : ahead c a d = ahead c a b + ahead c b d := by
  rw [ahead_eq ha hb, ahead_eq hb hd] at *
  rw [ahead_eq ha hd]
  split_ifs at * <;> omega

/-- The front index moves on: it is one further ahead, unless it meets the index behind it. -/
theorem ahead_nextIndex {c : Config} {a b : Nat} (ha : a < c.qcap) (hb : b < c.qcap) (h : nextIndex c b ≠ a) :
    ahead c a (nextIndex c b) = ahead c a b + 1 := by
  have hn := nextIndex_eq hb
  rw [ahead_eq ha hb, ahead_eq ha (nextIndex_lt hb)]
  split_ifs at * <;> omega

/-- The index behind moves on: the other is one less ahead of it. -/
theorem ahead_of_nextIndex {c : Config} {a b : Nat} (ha : a < c.qcap) (hb : b < c.qcap) (h : b ≠ a) :
    ahead c (nextIndex c a) b + 1 = ahead c a b := by
  have hn := nextIndex_eq ha
  rw [ahead_eq ha hb, ahead_eq (nextIndex_lt ha) hb]
  split_ifs at * <;> omega

/-- The place as far after `a` as `b` is ahead of it is `b`. -/
theorem add_ahead_mod {c : Config} {a b : Nat} (ha : a < c.qcap) (hb : b < c.qcap) :
    (a + ahead c a b) % c.qcap = b := by
  rw [ahead_eq ha hb]
  split
  · rw [show a + (b - a) = b by omega, Nat.mod_eq_of_lt hb]
  · rw [show a + (b + c.qcap - a) = b + c.qcap by omega, Nat.add_mod_right, Nat.mod_eq_of_lt hb]

theorem nextIndex_add_mod (c : Config) (a i : Nat) : (nextIndex c a + i) % c.qcap = (a + (i + 1)) % c.qcap := by
  rw [nextIndex, Nat.mod_add_mod, Nat.add_right_comm, Nat.add_assoc]

/-! ### Slots -/

theorem slotRead_putCurrent (row : Row) (x : Queue) (i : Nat) (h : x.cur < x.slots.length) :
    slotRead (putCurrent row x) i = if i = x.cur then some row else slotRead x i := by
  unfold slotRead putCurrent
  by_cases hi : i = x.cur
  · subst hi
    simp [h]
  · simp [hi, Ne.symm hi]

/-- A row of the right length keeps the queue's sizes (R45). -/
theorem queueSized_putCurrent {c : Config} {x : Queue} (h : QueueSized c x) {row : Row}
    (hr : row.length = c.lineBytes) : QueueSized c (putCurrent row x) := by
  obtain ⟨hlen, hrows⟩ := h
  refine ⟨by simpa [putCurrent] using hlen, fun o ho => ?_⟩
  rcases List.mem_or_eq_of_mem_set ho with ho | rfl
  · exact hrows o ho
  · intro r h
    rwa [← Option.mem_some.mp h]

theorem queueSized_slotRead {c : Config} {x : Queue} (h : QueueSized c x) {i : Nat} {row : Row}
    (hr : slotRead x i = some row) : row.length = c.lineBytes := by
  have hi : x.slots[i]? = some (some row) := Option.join_eq_some_iff.mp hr
  exact h.2 _ (List.mem_of_getElem? hi) row rfl

theorem queueSized_reset (c : Config) : QueueSized c (Queue.reset c) := by
  refine ⟨by simp [Queue.reset], fun o ho => ?_⟩
  obtain ⟨-, rfl⟩ := List.mem_replicate.mp ho
  simp

/-! ### Queues in order (R206) -/

/-- A queue that is not full has room for one more row, seen from either side (R200). -/
theorem nextIndex_cur_ne {c : Config} {x : Queue} (h : QueueOk c x) (hf : queueFull c x = false) :
    nextIndex c x.cur ≠ x.last ∧ (c.cdcLag = true → nextIndex c x.cur ≠ x.lastView) := by
  obtain ⟨⟨hcur, hlast, hcv, hlv⟩, hviews, -⟩ := h
  have hseen : nextIndex c x.cur ≠ lastSeen c x := by simpa [queueFull, nextIndex] using hf
  cases hlag : c.cdcLag with
  | false => exact ⟨by simpa [lastSeen, hlag] using hseen, nofun⟩
  | true =>
    have hv : nextIndex c x.cur ≠ x.lastView := by simpa [lastSeen, hlag] using hseen
    refine ⟨fun he => ?_, fun _ => hv⟩
    have hsum := hviews hlag
    have h1 := ahead_trans hlast hcv hcur (by omega)
    have h2 := ahead_trans hlv hlast hcur (by omega)
    have h3 := ahead_nextIndex hlv hcur hv
    rw [he] at h3
    omega

/-- A queue that is not empty for its consumer holds a row, seen from either side (R200). -/
theorem last_ne_of_not_empty {c : Config} {x : Queue} (h : QueueOk c x) (he : queueEmpty c x = false) :
    x.cur ≠ x.last ∧ (c.cdcLag = true → x.curView ≠ x.last) := by
  obtain ⟨⟨hcur, hlast, hcv, hlv⟩, hviews, -⟩ := h
  have hseen : curSeen c x ≠ x.last := by simpa [queueEmpty] using he
  cases hlag : c.cdcLag with
  | false => exact ⟨by simpa [curSeen, hlag] using hseen, nofun⟩
  | true =>
    have hv : x.curView ≠ x.last := by simpa [curSeen, hlag] using hseen
    refine ⟨fun hc => ?_, fun _ => hv⟩
    have hsum := hviews hlag
    have h1 := ahead_trans hlast hcv hcur (by omega)
    have h2 := ahead_of_nextIndex hlast hcv hv
    rw [hc, ahead_self hlast] at h1
    omega

/-- Writing the current slot leaves a queue in order. -/
theorem queueOk_putCurrent {c : Config} {x : Queue} (hs : QueueSized c x) (h : QueueOk c x) (row : Row) :
    QueueOk c (putCurrent row x) := by
  obtain ⟨hidx, hviews, hrows⟩ := h
  refine ⟨hidx, hviews, fun i hi => ?_⟩
  rw [slotRead_putCurrent _ _ _ (by rw [hs.1]; exact hidx.1)]
  split
  · rfl
  · exact hrows i hi

/-- A commit of a written slot leaves a queue in order, where there is room (R203). -/
theorem queueOk_advanceCur {c : Config} {x : Queue} (h : QueueOk c x) (hf : queueFull c x = false)
    (hw : (slotRead x x.cur).isSome = true) : QueueOk c (advanceCur c x) := by
  obtain ⟨hnl, hnv⟩ := nextIndex_cur_ne h hf
  obtain ⟨⟨hcur, hlast, hcv, hlv⟩, hviews, hrows⟩ := h
  have hcount : ahead c x.last (nextIndex c x.cur) = queueCount c x + 1 := ahead_nextIndex hlast hcur hnl
  refine ⟨⟨nextIndex_lt hcur, hlast, hcv, hlv⟩, fun hlag => ?_, fun i hi => ?_⟩
  · show ahead c x.lastView x.last + ahead c x.last x.curView + ahead c x.curView (nextIndex c x.cur) < c.qcap
    have hsum := hviews hlag
    have h1 := ahead_trans hlv hlast hcv (by omega)
    have h2 := ahead_trans hlv hcv hcur (by omega)
    have h3 := ahead_nextIndex hlv hcur (hnv hlag)
    have h4 := ahead_lt hlv (nextIndex c x.cur)
    have hne : nextIndex c x.cur ≠ x.curView := fun he => by rw [he] at h3; omega
    have h5 := ahead_nextIndex hcv hcur hne
    omega
  · show (slotRead x ((x.last + i) % c.qcap)).isSome = true
    have hi : i < ahead c x.last (nextIndex c x.cur) := hi
    by_cases hlt : i < queueCount c x
    · exact hrows i hlt
    · have : i = ahead c x.last x.cur := by
        have : queueCount c x = ahead c x.last x.cur := rfl
        omega
      rwa [this, add_ahead_mod hlast hcur]

/-- Masking the row of the current slot and committing it leaves a queue in order, where there is room (R203, R226). -/
theorem queueOk_commit {c : Config} {x : Queue} (hs : QueueSized c x) (h : QueueOk c x) (hf : queueFull c x = false)
    {row mask : List Byte} (hr : row.length = c.lineBytes) (hm : mask.length = c.lineBytes) :
    QueueSized c (advanceCur c (putCurrent (andRow row mask) x)) ∧
      QueueOk c (advanceCur c (putCurrent (andRow row mask) x)) := by
  refine ⟨queueSized_putCurrent hs (by simp [hr, hm]), queueOk_advanceCur (queueOk_putCurrent hs h _) hf ?_⟩
  show (slotRead (putCurrent (andRow row mask) x) x.cur).isSome = true
  rw [slotRead_putCurrent _ _ _ (by rw [hs.1]; exact h.1.1), if_pos rfl, Option.isSome_some]

/-- Taking the oldest row leaves a queue in order (R204). -/
theorem queueOk_advanceLast {c : Config} {x : Queue} (h : QueueOk c x) (he : queueEmpty c x = false) :
    QueueOk c (advanceLast c x) := by
  obtain ⟨hcl, hvl⟩ := last_ne_of_not_empty h he
  obtain ⟨⟨hcur, hlast, hcv, hlv⟩, hviews, hrows⟩ := h
  have hcount : ahead c (nextIndex c x.last) x.cur + 1 = queueCount c x := ahead_of_nextIndex hlast hcur hcl
  refine ⟨⟨hcur, nextIndex_lt hlast, hcv, hlv⟩, fun hlag => ?_, fun i hi => ?_⟩
  · show ahead c x.lastView (nextIndex c x.last) + ahead c (nextIndex c x.last) x.curView +
      ahead c x.curView x.cur < c.qcap
    have hsum := hviews hlag
    have h1 := ahead_of_nextIndex hlast hcv (hvl hlag)
    have hne : nextIndex c x.last ≠ x.lastView := fun hn => by
      have h2 := ahead_trans hlv hlast hcv (by omega)
      rw [hn] at h1
      omega
    have h3 := ahead_nextIndex hlv hlast hne
    omega
  · show (slotRead x ((nextIndex c x.last + i) % c.qcap)).isSome = true
    have hi : i < ahead c (nextIndex c x.last) x.cur := hi
    rw [nextIndex_add_mod]
    exact hrows (i + 1) (by omega)

/-- An empty queue is in order (R205). -/
theorem queueOk_of_zero {c : Config} {x : Queue} (hc : 0 < c.qcap) (hcur : x.cur = 0) (hlast : x.last = 0)
    (hcv : x.curView = 0) (hlv : x.lastView = 0) : QueueOk c x := by
  refine ⟨by simp [IndicesOk, *], fun _ => by simp [*, ahead_self hc], fun i hi => ?_⟩
  have : queueCount c x = 0 := by simp [queueCount, *]
  omega

/-- A refreshed `CUR_VIEW` is not ahead of `Qq_CUR` (R96). -/
theorem queueOk_syncCur {c : Config} {x : Queue} (h : QueueOk c x) (hlag : c.cdcLag = true) :
    QueueOk c { x with curView := x.cur } := by
  obtain ⟨⟨hcur, hlast, hcv, hlv⟩, hviews, hrows⟩ := h
  refine ⟨⟨hcur, hlast, hcur, hlv⟩, fun _ => ?_, hrows⟩
  show ahead c x.lastView x.last + ahead c x.last x.cur + ahead c x.cur x.cur < c.qcap
  have hsum := hviews hlag
  have h1 := ahead_trans hlast hcv hcur (by omega)
  have h2 := ahead_self hcur
  omega

/-- A refreshed `LAST_VIEW` is not ahead of `Qq_LAST` (R96). -/
theorem queueOk_syncLast {c : Config} {x : Queue} (h : QueueOk c x) (hlag : c.cdcLag = true) :
    QueueOk c { x with lastView := x.last } := by
  obtain ⟨⟨hcur, hlast, hcv, hlv⟩, hviews, hrows⟩ := h
  refine ⟨⟨hcur, hlast, hcv, hlast⟩, fun _ => ?_, hrows⟩
  show ahead c x.last x.last + ahead c x.last x.curView + ahead c x.curView x.cur < c.qcap
  have hsum := hviews hlag
  have h1 := ahead_self hlast
  omega

end Sys2Proof.Machine
end

section
/-! SUPPORT. Which parts of the state an operation may write (R22, R23, R33, R34, R40 to R44, R52, R53). -/

namespace Sys2Proof.Machine

/-- A part of the state that only some operations write. -/
inductive Part where
  /-- `LUT` (R40) -/
  | lut
  /-- `MASK` (R44) -/
  | mask
  /-- `MEM` (R52) -/
  | mem
  /-- `BUS_OUT` (R53) -/
  | busOut
  /-- the dirty arrays, the rectangle and the uniformity flags (R33, R34, R41, R42) -/
  | difference

/-- The parts an operation may write (R23, R33, R40 to R44, R52, R53). -/
def writtenParts : Instr → List Part
  | .lb1p64k | .lb1p1k | .lb2p64k _ | .lb2p1k _ | .lb8p _ | .lbAuto | .prep => [.lut]
  | .pl1p64k | .pl1p1k | .pl2p64k | .pl2p1k | .pl8p | .plAuto | .lqRead _ => [.mem]
  | .diff => [.mem, .difference]
  | .maskBuild | .updStart => [.mask]
  | .feed => [.busOut]
  | .nop | .lqCurrent _ | .lqWrite _ | .lqCommit _ | .lqReset _ | .fetch _ | .frameDone | .updAck => []

/-- From `s` to `t` the registers of R22, R24, R25, R27, the parameters and the issuer are kept, of the parts above
only those in `ps` are written, and of the result registers only the issuer's. -/
structure WritesOnly (ps : List Part) (s t : State) : Prop where
  operands : t.operands = s.operands
  mode : t.mode = s.mode
  ctrl : t.ctrl = s.ctrl
  phaseCount : t.phaseCount = s.phaseCount
  cfg : t.cfg = s.cfg
  issuer : t.issuer = s.issuer
  lut : .lut ∉ ps → t.lut = s.lut
  mask : .mask ∉ ps → t.mask = s.mask
  mem : .mem ∉ ps → t.mem = s.mem
  busOut : .busOut ∉ ps → t.busOut = s.busOut
  difference : .difference ∉ ps → t.dirtyLines = s.dirtyLines ∧ t.dirtyCols = s.dirtyCols ∧ t.rectX = s.rectX ∧
    t.rectY = s.rectY ∧ t.rectW = s.rectW ∧ t.rectH = s.rectH ∧ t.prevWhiteF = s.prevWhiteF ∧
    t.prevBlackF = s.prevBlackF
  res : ∀ p, p ≠ s.issuer → getRes p t = getRes p s

theorem WritesOnly.refl (ps : List Part) (s : State) : WritesOnly ps s s where
  operands := rfl
  mode := rfl
  ctrl := rfl
  phaseCount := rfl
  cfg := rfl
  issuer := rfl
  lut _ := rfl
  mask _ := rfl
  mem _ := rfl
  busOut _ := rfl
  difference _ := ⟨rfl, rfl, rfl, rfl, rfl, rfl, rfl, rfl⟩
  res _ _ := rfl

theorem WritesOnly.trans {ps : List Part} {s t u : State} (h : WritesOnly ps s t) (k : WritesOnly ps t u) :
    WritesOnly ps s u where
  operands := k.operands.trans h.operands
  mode := k.mode.trans h.mode
  ctrl := k.ctrl.trans h.ctrl
  phaseCount := k.phaseCount.trans h.phaseCount
  cfg := k.cfg.trans h.cfg
  issuer := k.issuer.trans h.issuer
  lut hp := (k.lut hp).trans (h.lut hp)
  mask hp := (k.mask hp).trans (h.mask hp)
  mem hp := (k.mem hp).trans (h.mem hp)
  busOut hp := (k.busOut hp).trans (h.busOut hp)
  difference hp := by
    have h1 := h.difference hp
    have h2 := k.difference hp
    simp_all
  res p hp := (k.res p (h.issuer ▸ hp)).trans (h.res p hp)

theorem writesOnly_result (ps : List Part) (v : Word) (s : State) : WritesOnly ps s (result v s) := by
  constructor
  case res => exact fun p hp => getRes_setRes_other hp v s
  all_goals simp

theorem writesOnly_setQueue (ps : List Part) (q : Lane) (x : Queue) (s : State) :
    WritesOnly ps s (setQueue q x s) := by
  constructor
  case res => cases q <;> intro p _ <;> cases p <;> rfl
  all_goals simp

theorem writesOnly_setLane (ps : List Part) {l : Lane} (x : LaneState) {s : State} (h : s.issuer = lanePort l) :
    WritesOnly ps s (setLane l x s) := by
  constructor
  case res =>
    intro p hp
    rw [h] at hp
    cases l <;> cases p <;> first | rfl | exact absurd rfl hp
  all_goals simp

/-- The sequencer, the counters and `ERROR` are no part and no result register. -/
theorem writesOnly_control (ps : List Part) (s : State) (seq : Seq) (phase : Word) (fdone : Bool)
    (next consumed : Nat) (error : Word) (threads : List (Option Lane)) :
    WritesOnly ps s { s with seq := seq, phase := phase, fdone := fdone, lineNext := next, linesConsumed := consumed,
                             error := error, lineThreads := threads } := by
  constructor
  case res => intro p _; cases p <;> rfl
  all_goals simp

theorem writesOnly_clearProgress (ps : List Part) (s : State) : WritesOnly ps s (clearProgress s) := by
  constructor
  case res => intro p _; cases p <;> rfl
  all_goals simp [clearProgress]

theorem writesOnly_emptyQueues (ps : List Part) (s : State) : WritesOnly ps s (emptyQueues s) := by
  constructor
  case res => intro p _; cases p <;> rfl
  all_goals simp [emptyQueues]

theorem writesOnly_lut (s : State) (m : Cells) : WritesOnly [.lut] s { s with lut := m } := by
  constructor
  case res => intro p _; cases p <;> rfl
  all_goals simp

theorem writesOnly_mask (s : State) (m : List Byte) : WritesOnly [.mask] s { s with mask := m } := by
  constructor
  case res => intro p _; cases p <;> rfl
  all_goals simp

theorem writesOnly_mem (s : State) (m : Cells) : WritesOnly [.mem] s { s with mem := m } := by
  constructor
  case res => intro p _; cases p <;> rfl
  all_goals simp

theorem writesOnly_busOut (s : State) (b : List BusRecord) : WritesOnly [.busOut] s { s with busOut := b } := by
  constructor
  case res => intro p _; cases p <;> rfl
  all_goals simp

theorem writesOnly_diffed (s : State) : WritesOnly [.mem, .difference] s (diffed s) := by
  constructor
  case res => intro p _; cases p <;> rfl
  all_goals simp [diffed]

/-! ### The operations -/

theorem WritesOnly.result {ps : List Part} {s t : State} (h : WritesOnly ps s t) (v : Word) :
    WritesOnly ps s (Machine.result v t) :=
  h.trans (writesOnly_result ps v t)

/-- An operation of the host may write `RES_HOST`. -/
theorem WritesOnly.resHost {ps : List Part} {s t : State} (h : WritesOnly ps s t) (hp : s.issuer = .host) (v : Word) :
    WritesOnly ps s { t with resHost := v } :=
  result_of_host (h.issuer.trans hp) v ▸ h.result v

theorem writesOnly_error (ps : List Part) (s : State) (e : Word) : WritesOnly ps s { s with error := e } :=
  writesOnly_control ps _ _ _ _ _ _ _ _

theorem writesOnly_startClear (ps : List Part) (s : State) (q : Seq) :
    WritesOnly ps s { startClear s with seq := q } :=
  (writesOnly_clearProgress ps s).trans (writesOnly_control ps (clearProgress s) _ _ _ _ _ _ _)

theorem writesOnly_prepared (ps : List Part) (s : State) : WritesOnly ps s (prepared s) :=
  ((writesOnly_emptyQueues ps s).trans (writesOnly_clearProgress ps _)).trans
    (writesOnly_control ps (clearProgress (emptyQueues s)) _ _ _ _ _ _ _)

/-- The phase advance writes `PHASE` and `SEQ` alone (R240). -/
theorem writesOnly_tryAdvance (ps : List Part) (s : State) : WritesOnly ps s (tryAdvance s).1 := by
  rcases tryAdvance_cases s with h | ⟨-, h, -⟩ | ⟨-, -, -, h⟩ <;> rw [h]
  · exact .refl ps s
  · exact writesOnly_control ps _ _ _ _ _ _ _ _
  · exact writesOnly_control ps _ _ _ _ _ _ _ _

theorem writesOnly_claimStep (ps : List Part) {l : Lane} {s : State} (h : s.issuer = lanePort l) :
    WritesOnly ps s (claimStep l s) := by
  rcases claimStep_cases l s with ⟨-, hc⟩ | ⟨-, hc⟩ <;> rw [hc]
  · have hn : WritesOnly ps s
        { s with lineNext := s.lineNext + 1, lineThreads := s.lineThreads.set s.lineNext (some l) } :=
      writesOnly_control ps s _ _ _ _ _ _ _
    exact hn.trans (writesOnly_setLane ps _ h)
  · exact (writesOnly_setLane ps _ h).trans (writesOnly_tryAdvance ps _)

theorem writesOnly_deliver (row : Row) (starved : Bool) (s : State) :
    WritesOnly [.busOut] s (deliver row starved s) := by
  have hc : WritesOnly [.busOut] s { s with linesConsumed := s.linesConsumed + 1 } :=
    writesOnly_control _ _ _ _ _ _ _ _ _
  exact (hc.trans (writesOnly_busOut _ _)).result _

theorem writesOnly_feedStep {s t : State} (h : feedStep s = .next t) : WritesOnly [.busOut] s t := by
  rcases feedStep_eq_next h with rfl | ⟨q, row, -, -, -, -, rfl⟩
  · exact (writesOnly_error _ _ _).trans (writesOnly_deliver _ _ _)
  · exact (writesOnly_setQueue _ _ _ _).trans (writesOnly_deliver _ _ _)

theorem exec_lbOp_eq_next {l : Layout} {s t : State} (h : exec (lbOp l) s = .next t) :
    s.issuer = .host ∧ s.seq = .idle ∧ buildRefusal s l = none ∧
      t = { s with lut := builtLut s l, resHost := 0#32 } := by
  cases l <;> exact lutBuild_eq_next.mp h

theorem exec_plOp_eq_next {l : Layout} {s t : State} (h : exec (plOp l) s = .next t) :
    s.issuer = .host ∧ s.seq = .idle ∧
      twoBufferRefusal s [lineInSpan s (layoutPacking l)] [lineOutSpan s] = none ∧
      ∃ row : Row, lookLayout l s.lut (lineIn s (layoutPacking l)) s.operands.width.toNat = some row ∧
        row.length = ceilDiv s.operands.width.toNat 4 ∧
        t = { s with mem := memWriteRun s.mem s.operands.lineOut.toNat row, resHost := 0#32 } := by
  cases l <;> exact pixelLookup_layout_eq_next h

theorem writesOnly_lbOp {l : Layout} {s t : State} (h : exec (lbOp l) s = .next t) : WritesOnly [.lut] s t := by
  obtain ⟨hp, -, -, rfl⟩ := exec_lbOp_eq_next h
  exact (writesOnly_lut s (builtLut s l)).resHost hp _

theorem writesOnly_plOp {l : Layout} {s t : State} (h : exec (plOp l) s = .next t) : WritesOnly [.mem] s t := by
  obtain ⟨hp, -, -, row, -, -, rfl⟩ := exec_plOp_eq_next h
  exact (writesOnly_mem s (memWriteRun s.mem s.operands.lineOut.toNat row)).resHost hp _

/-- Every operation writes only its parts, and its issuer's result register. -/
theorem exec_writesOnly {i : Instr} {s t : State} (h : exec i s = .next t) : WritesOnly (writtenParts i) s t := by
  cases i with
  | nop =>
    obtain ⟨-, rfl⟩ := exec_nop_eq_next h
    exact writesOnly_result _ _ _
  | lb1p64k => exact writesOnly_lbOp (l := .l1p64k) h
  | lb1p1k => exact writesOnly_lbOp (l := .l1p1k) h
  | lb2p64k f => exact writesOnly_lbOp (l := .l2p64k f) h
  | lb2p1k f => exact writesOnly_lbOp (l := .l2p1k f) h
  | lb8p fw => exact writesOnly_lbOp (l := .l8p fw) h
  | lbAuto =>
    obtain ⟨hp, -, ⟨e, -, rfl⟩ | ⟨l, -, -, rfl⟩⟩ := exec_lbAuto_eq_next h
    · exact (writesOnly_error _ s (s.error ||| e)).resHost hp _
    · exact (writesOnly_lut s (builtLut s l)).resHost hp _
  | pl1p64k => exact writesOnly_plOp (l := .l1p64k) h
  | pl1p1k => exact writesOnly_plOp (l := .l1p1k) h
  | pl2p64k => exact writesOnly_plOp (l := .l2p64k 0) h
  | pl2p1k => exact writesOnly_plOp (l := .l2p1k 0) h
  | pl8p => exact writesOnly_plOp (l := .l8p false) h
  | plAuto =>
    obtain ⟨hp, -, ⟨e, -, rfl⟩ | ⟨l, -, -, row, -, -, rfl⟩⟩ := exec_plAuto_eq_next h
    · exact (writesOnly_error _ s (s.error ||| e)).resHost hp _
    · exact (writesOnly_mem s (memWriteRun s.mem s.operands.lineOut.toNat row)).resHost hp _
  | diff =>
    obtain ⟨hp, -, ⟨-, rfl⟩ | ⟨-, -, rfl⟩⟩ := exec_diff_eq_next h
    · exact (writesOnly_error _ s (s.error ||| errInvalidCrop)).resHost hp _
    · exact (writesOnly_diffed s).resHost hp _
  | lqCurrent u =>
    obtain ⟨q, v, -, -, rfl⟩ := exec_lqCurrent_eq_next h
    exact writesOnly_result _ _ _
  | lqWrite u =>
    obtain ⟨q, -, -, -, ⟨-, rfl⟩ | ⟨-, -, rfl⟩⟩ := exec_lqWrite_eq_next h
    · exact (writesOnly_setQueue _ q _ s).result _
    · exact ((writesOnly_setQueue _ q _ s).trans (writesOnly_setQueue _ q _ _)).result _
  | lqCommit u =>
    obtain ⟨q, row, -, -, -, -, -, rfl⟩ := exec_lqCommit_eq_next h
    exact ((writesOnly_setQueue _ q _ s).trans (writesOnly_setQueue _ q _ _)).result _
  | lqRead u =>
    obtain ⟨q, -, -, -, ⟨-, rfl⟩ | ⟨row, -, -, -, rfl⟩⟩ := exec_lqRead_eq_next h
    · exact (writesOnly_setQueue _ q _ s).result _
    · exact (((writesOnly_setQueue _ q _ s).trans (writesOnly_mem _ _)).trans (writesOnly_setQueue _ q _ _)).result _
  | lqReset u =>
    obtain ⟨q, -, hp, -, -, rfl⟩ := exec_lqReset_eq_next h
    exact (writesOnly_setQueue _ q _ s).resHost hp _
  | fetch u =>
    obtain ⟨l, -, hp, -, -, -, rfl⟩ := exec_fetch_eq_next h
    exact (writesOnly_setQueue _ l _ s).trans (writesOnly_claimStep _ ((setQueue_issuer _ _ _).trans hp))
  | feed =>
    obtain ⟨hp, -, ⟨-, rfl⟩ | ⟨-, -, -, hf⟩⟩ := exec_feed_eq_next h
    · exact result_of_feeder hp 2#32 ▸ writesOnly_result _ _ s
    · exact ((writesOnly_setQueue _ _ _ s).trans (writesOnly_setQueue _ _ _ _)).trans (writesOnly_feedStep hf)
  | maskBuild =>
    obtain ⟨hp, -, rfl⟩ := exec_maskBuild_eq_next h
    exact (writesOnly_mask s (buildMask s)).resHost hp _
  | updStart =>
    obtain ⟨hp, -, ⟨-, rfl⟩ | ⟨-, -, rfl⟩⟩ := exec_updStart_eq_next h
    · have hc : WritesOnly [.mask] s { startClear s with seq := .done } := writesOnly_startClear _ s _
      exact hc.resHost hp _
    · have hc : WritesOnly [.mask] s { startClear s with seq := .preparing } := writesOnly_startClear _ s _
      exact (hc.trans (writesOnly_mask _ (buildMask s))).resHost hp _
  | prep =>
    obtain ⟨hp, -, l, -, -, rfl⟩ := exec_prep_eq_next h
    exact ((writesOnly_lut s (builtLut s l)).trans (writesOnly_prepared _ _)).resHost hp _
  | frameDone =>
    obtain ⟨hp, -, -, -, rfl⟩ := exec_frameDone_eq_next h
    have hc : WritesOnly [] s { s with fdone := true } := writesOnly_control _ _ _ _ _ _ _ _ _
    exact (hc.trans (writesOnly_tryAdvance _ _)).result _
  | updAck =>
    obtain ⟨hp, -, rfl⟩ := exec_updAck_eq_next h
    have hc : WritesOnly [] s { s with seq := .idle } := writesOnly_control _ _ _ _ _ _ _ _ _
    exact hc.resHost hp _

/-! ### Which operations have a part among theirs -/

theorem lut_mem_writtenParts {i : Instr} (h : .lut ∈ writtenParts i) :
    i = .lbAuto ∨ i = .prep ∨ ∃ l, i = lbOp l := by
  cases i with
  | lb1p64k => exact .inr (.inr ⟨.l1p64k, rfl⟩)
  | lb1p1k => exact .inr (.inr ⟨.l1p1k, rfl⟩)
  | lb2p64k f => exact .inr (.inr ⟨.l2p64k f, rfl⟩)
  | lb2p1k f => exact .inr (.inr ⟨.l2p1k f, rfl⟩)
  | lb8p fw => exact .inr (.inr ⟨.l8p fw, rfl⟩)
  | _ => simp_all [writtenParts]

theorem mem_mem_writtenParts {i : Instr} (h : .mem ∈ writtenParts i) :
    i = .plAuto ∨ i = .diff ∨ (∃ l, i = plOp l) ∨ ∃ u, i = .lqRead u := by
  cases i with
  | pl1p64k => exact .inr (.inr (.inl ⟨.l1p64k, rfl⟩))
  | pl1p1k => exact .inr (.inr (.inl ⟨.l1p1k, rfl⟩))
  | pl2p64k => exact .inr (.inr (.inl ⟨.l2p64k 0, rfl⟩))
  | pl2p1k => exact .inr (.inr (.inl ⟨.l2p1k 0, rfl⟩))
  | pl8p => exact .inr (.inr (.inl ⟨.l8p false, rfl⟩))
  | _ => simp_all [writtenParts]

theorem mask_mem_writtenParts {i : Instr} (h : .mask ∈ writtenParts i) : i = .maskBuild ∨ i = .updStart := by
  cases i <;> simp_all [writtenParts]

theorem busOut_mem_writtenParts {i : Instr} (h : .busOut ∈ writtenParts i) : i = .feed := by
  cases i <;> simp_all [writtenParts]

theorem difference_mem_writtenParts {i : Instr} (h : .difference ∈ writtenParts i) : i = .diff := by
  cases i <;> simp_all [writtenParts]

/-- Settles O57: what an operation changes lies in the parts it may write. -/
theorem whoWrites : Obligations.WhoWrites := by
  intro i s t h
  have hw := exec_writesOnly h
  refine ⟨hw.operands, hw.mode, hw.ctrl, hw.phaseCount, hw.cfg, fun hd => ?_, fun hd => ?_, ?_, fun hd => ?_,
    fun hd => ?_, hw.res⟩
  · exact lut_mem_writtenParts (by_contra fun hn => hd (hw.lut hn))
  · exact mask_mem_writtenParts (by_contra fun hn => hd (hw.mask hn))
  · rintro ⟨a, hd⟩
    exact mem_mem_writtenParts (by_contra fun hn => hd (by rw [hw.mem hn]))
  · exact busOut_mem_writtenParts (by_contra fun hn => hd (hw.busOut hn))
  · refine difference_mem_writtenParts (by_contra fun hn => ?_)
    obtain ⟨h1, h2, h3, h4, h5, h6, h7, h8⟩ := hw.difference hn
    simp [*] at hd

end Sys2Proof.Machine
end

section
/-! SUPPORT. `MEM` and the `LUT` keep their canonical form (R40, R52). -/

namespace Sys2Proof.Machine

/-! ### Canonical memories are determined by what they read -/

theorem cellGet_eq_none_of_lt {m : Cells} {a : Nat} (h : ∀ c ∈ m, a < c.1) : cellGet m a = none := by
  induction m with
  | nil => rfl
  | cons c rest ih =>
    rw [List.forall_mem_cons] at h
    simp [cellGet, ih h.2, Nat.ne_of_gt h.1]

/-- The tail of a sorted list lists nothing up to its head's index. -/
theorem cellGet_tail_eq_none {k : Nat} {b : Byte} {m : Cells} {a : Nat}
    (h : (((k, b) :: m).map Prod.fst).Pairwise (· < ·)) (ha : a ≤ k) : cellGet m a = none := by
  rw [List.map_cons, List.pairwise_cons] at h
  exact cellGet_eq_none_of_lt fun c hc => Nat.lt_of_le_of_lt ha (h.1 _ (List.mem_map_of_mem hc))

/-- Two sorted lists of cells that list the same bytes are equal. -/
theorem cells_ext {m n : Cells} (hm : (m.map Prod.fst).Pairwise (· < ·)) (hn : (n.map Prod.fst).Pairwise (· < ·))
    (h : ∀ a, cellGet m a = cellGet n a) : m = n := by
  induction m generalizing n with
  | nil =>
    cases n with
    | nil => rfl
    | cons d n => simpa [cellGet] using h d.1
  | cons c m ih =>
    obtain ⟨k, b⟩ := c
    cases n with
    | nil => simpa [cellGet] using h k
    | cons d n =>
      obtain ⟨k', b'⟩ := d
      have hk : k = k' := by
        rcases Nat.lt_trichotomy k k' with hlt | heq | hlt
        · have := h k
          rw [cellGet, if_pos rfl, cellGet, if_neg (by omega), cellGet_tail_eq_none hn (by omega)] at this
          cases this
        · exact heq
        · have := h k'
          rw [cellGet, if_neg (by omega), cellGet_tail_eq_none hm (by omega), cellGet, if_pos rfl] at this
          cases this
      subst hk
      have hb : b = b' := by simpa [cellGet] using h k
      subst hb
      rw [ih (List.pairwise_cons.mp hm).2 (List.pairwise_cons.mp hn).2 fun a => ?_]
      by_cases ha : a ≤ k
      · rw [cellGet_tail_eq_none hm ha, cellGet_tail_eq_none hn ha]
      · simpa [cellGet, show k ≠ a by omega] using h a

theorem cellGet_mem {m : Cells} {a : Nat} {b : Byte} (h : cellGet m a = some b) : (a, b) ∈ m := by
  induction m with
  | nil => cases h
  | cons c rest ih =>
    obtain ⟨k, x⟩ := c
    unfold cellGet at h
    split at h
    · rename_i hk
      cases hk
      cases h
      exact List.mem_cons_self
    · exact List.mem_cons_of_mem _ (ih h)

/-- In canonical form a byte is listed exactly when it does not read as an unlisted one. -/
theorem cellGet_eq_of_wf {m : Cells} (h : Memory.wf m) (a : Nat) :
    cellGet m a = if memRead m a = memUnlisted then none else some (memRead m a) := by
  unfold memRead
  cases hc : cellGet m a with
  | none => rfl
  | some b => simp [(h.2 _ (cellGet_mem hc)).1]

theorem memory_ext {m n : Cells} (hm : Memory.wf m) (hn : Memory.wf n) (h : ∀ a, memRead m a = memRead n a) : m = n :=
  cells_ext hm.1 hn.1 fun a => by rw [cellGet_eq_of_wf hm, cellGet_eq_of_wf hn, h]

/-! ### What the operations write to `MEM` lies in the address space -/

theorem twoBufferRefusal_eq_none {s : State} {reads writes : List Span} (h : twoBufferRefusal s reads writes = none) :
    bufferRefusal s reads writes = none := by
  unfold twoBufferRefusal at h
  split at h
  · cases h
  · exact h

/-- An admitted output buffer takes as many bytes as it is long. -/
theorem memWriteRun_wf_of_admitted {s : State} {reads : List Span} {p : Span} (hm : Memory.wf s.mem)
    (hb : bufferRefusal s reads [p] = none) {bs : List Byte} (hl : bs.length = p.len) :
    Memory.wf (memWriteRun s.mem p.base bs) := by
  refine memWriteRun_wf hm p.base bs ?_
  have hr := (bufferRefusal_eq_none.mp hb).1 p (by simp)
  simp only [spanInRange, Bool.or_eq_true, decide_eq_true_eq] at hr
  rcases hr with hr | hr
  · exact .inl (List.length_eq_zero_iff.mp (by omega))
  · exact .inr (by omega)

/-- The pixels of a valid crop lie on the display (R182). -/
theorem rectPixels_of_cropValid {s : State} (h : cropValid s = true) {p : Nat × Nat}
    (hp : p ∈ rectPixels (diffCrop s)) : p.1 < s.cfg.width ∧ p.2 < s.cfg.height := by
  simp only [cropValid, Bool.and_eq_true, decide_eq_true_eq] at h
  simp only [rectPixels, rectRows, rectCols, List.mem_flatMap, List.mem_map, List.mem_range] at hp
  obtain ⟨y, ⟨i, hi, rfl⟩, x, ⟨j, hj, rfl⟩, rfl⟩ := hp
  constructor <;> simp only <;> omega

/-- The transition byte of a display pixel lies in the output image of `DIFF` (R73, R181). -/
theorem diffAddr_lt {s : State} {x y : Nat} (hb : bufferRefusal s (diffReads s) (diffWrites s) = none)
    (hx : x < s.cfg.width) (hy : y < s.cfg.height) : diffAddr s x y < 2 ^ 32 := by
  have hr := (bufferRefusal_eq_none.mp hb).1
    { base := s.operands.dstDiff.toNat, len := s.cfg.width * s.cfg.height } (by simp [diffWrites])
  have hle : (y + 1) * s.cfg.width ≤ s.cfg.height * s.cfg.width := Nat.mul_le_mul_right _ hy
  rw [Nat.succ_mul, Nat.mul_comm s.cfg.height] at hle
  simp only [spanInRange, Bool.or_eq_true, decide_eq_true_eq] at hr
  unfold diffAddr
  omega

theorem diffMem_wf {s : State} (hm : Memory.wf s.mem) (hc : cropValid s = true)
    (hb : bufferRefusal s (diffReads s) (diffWrites s) = none) : Memory.wf (diffMem s) := by
  refine List.foldlRecOn (motive := Memory.wf) _ _ hm fun m hm p hp => ?_
  obtain ⟨hx, hy⟩ := rectPixels_of_cropValid hc hp
  exact memWrite_wf hm (diffAddr_lt hb hx hy) _

/-! ### Every step keeps the form -/

/-- The `LUT` after reset (R54). -/
theorem lut_wf_nil : Lut.wf [] := ⟨.nil, nofun⟩

theorem canonical_plOp {l : Layout} {s t : State} (hc : Canonical s) (h : exec (plOp l) s = .next t) :
    Memory.wf t.mem := by
  obtain ⟨-, -, hb, row, -, hl, rfl⟩ := exec_plOp_eq_next h
  exact memWriteRun_wf_of_admitted hc.1 (twoBufferRefusal_eq_none hb) hl

/-- The row in any slot has `LINE_BYTES` bytes. -/
theorem sized_slotRead {s : State} (hs : Sized s) {q : Lane} {i : Nat} {row : Row}
    (h : slotRead (getQueue q s) i = some row) : row.length = s.cfg.lineBytes := by
  obtain ⟨-, -, -, -, h0, h1⟩ := hs
  cases q
  · exact queueSized_slotRead h0 h
  · exact queueSized_slotRead h1 h

theorem exec_memory_wf {i : Instr} {s t : State} (hs : Sized s) (hc : Canonical s) (h : exec i s = .next t) :
    Memory.wf t.mem := by
  by_cases hi : .mem ∈ writtenParts i
  · rcases mem_mem_writtenParts hi with rfl | rfl | ⟨l, rfl⟩ | ⟨u, rfl⟩
    · obtain ⟨-, -, ⟨e, -, rfl⟩ | ⟨l, -, hb, row, -, hl, rfl⟩⟩ := exec_plAuto_eq_next h
      · exact hc.1
      · exact memWriteRun_wf_of_admitted hc.1 (twoBufferRefusal_eq_none hb) hl
    · obtain ⟨-, -, ⟨-, rfl⟩ | ⟨hv, hb, rfl⟩⟩ := exec_diff_eq_next h
      · exact hc.1
      · exact diffMem_wf hc.1 hv (twoBufferRefusal_eq_none hb)
    · exact canonical_plOp hc h
    · obtain ⟨q, -, -, -, ⟨-, rfl⟩ | ⟨row, -, hb, hr, rfl⟩⟩ := exec_lqRead_eq_next h
      · simpa [withConsumer] using hc.1
      · rw [result_mem, setQueue_mem]
        exact memWriteRun_wf_of_admitted hc.1 hb (sized_slotRead hs hr)
  · rw [(exec_writesOnly h).mem hi]
    exact hc.1

theorem exec_lut_wf {i : Instr} {s t : State} (hc : Canonical s) (h : exec i s = .next t) : Lut.wf t.lut := by
  by_cases hi : .lut ∈ writtenParts i
  · rcases lut_mem_writtenParts hi with rfl | rfl | ⟨l, rfl⟩
    · obtain ⟨-, -, ⟨e, -, rfl⟩ | ⟨l, -, -, rfl⟩⟩ := exec_lbAuto_eq_next h
      · exact hc.2
      · exact builtLut_wf hc.2 l
    · obtain ⟨-, -, l, -, -, rfl⟩ := exec_prep_eq_next h
      exact builtLut_wf hc.2 l
    · obtain ⟨-, -, -, rfl⟩ := exec_lbOp_eq_next h
      exact builtLut_wf hc.2 l
  · rw [(exec_writesOnly h).lut hi]
    exact hc.2

theorem exec_canonical {i : Instr} {s t : State} (hs : Sized s) (hc : Canonical s) (h : exec i s = .next t) :
    Canonical t :=
  ⟨exec_memory_wf hs hc h, exec_lut_wf hc h⟩

/-- A produce step writes neither `MEM` nor the `LUT` (R226). -/
theorem produceStep_memories {l : Lane} {s t : State} (h : produceStep l s = .next t) :
    t.mem = s.mem ∧ t.lut = s.lut := by
  rcases produceStep_eq_next h with ⟨-, rfl⟩ | ⟨-, row, -, rfl⟩ <;> simp [produced, fetchComplete]

theorem writeOffset_memories {off : Nat} {v : Word} {s t : State} (h : writeOffset off v s = .next t) :
    t.mem = s.mem ∧ t.lut = s.lut := by
  rcases writeOffset_eq_next h with
    rfl | rfl | ⟨-, ⟨o, rfl⟩ | rfl | rfl | rfl | rfl | ⟨y, b, rfl⟩ | ⟨j, b, rfl⟩⟩ <;> exact ⟨rfl, rfl⟩

theorem syncCurStep_memories (q : Lane) (s : State) :
    (syncCurStep q s).mem = s.mem ∧ (syncCurStep q s).lut = s.lut := by
  unfold syncCurStep
  split <;> simp

theorem syncLastStep_memories (q : Lane) (s : State) :
    (syncLastStep q s).mem = s.mem ∧ (syncLastStep q s).lut = s.lut := by
  unfold syncLastStep
  split <;> simp

theorem canonical_of_eq {s t : State} (hc : Canonical s) (h : t.mem = s.mem ∧ t.lut = s.lut) : Canonical t := by
  rwa [Canonical, h.1, h.2]

theorem handle_canonical {e : Event} {s t : State} (hs : Sized s) (hc : Canonical s) (h : handle e s = .next t) :
    Canonical t := by
  cases e with
  | portWrite addr bytes v =>
    obtain ⟨-, ⟨p, i, -, -, he⟩ | ⟨-, hw⟩⟩ := portWrite_eq_next h
    · exact exec_canonical (s := { s with issuer := p }) hs hc he
    · exact canonical_of_eq hc (writeOffset_memories hw)
  | portRead addr bytes =>
    rw [readOffset_eq_next (require_eq_next.mp h).2]
    exact hc
  | produce l =>
    rcases scheduleLane_eq_next h with ⟨-, hp⟩ | ⟨-, rfl⟩
    · exact canonical_of_eq hc (produceStep_memories hp)
    · exact hc
  | syncCur q =>
    cases h
    exact canonical_of_eq hc (syncCurStep_memories q s)
  | syncLast q =>
    cases h
    exact canonical_of_eq hc (syncLastStep_memories q s)
  | memStore addr b =>
    obtain ⟨-, h⟩ := require_eq_next.mp h
    cases h
    exact ⟨memWrite_wf hc.1 addr.isLt b, hc.2⟩
  | reset =>
    cases h
    exact ⟨hc.1, lut_wf_nil⟩

/-- Settles O58: a step that is no operation writes `MEM` by one store at most, and no `LUT`. -/
theorem canonicalFormKept : Obligations.CanonicalFormKept := by
  refine ⟨fun s t hs hc h => ?_, fun m n => memory_ext⟩
  rcases step_eq_next h with ⟨-, hq⟩ | ⟨e, rest, -, he⟩
  · rcases quietStep_eq_next hq with ⟨l, -, hp⟩ | rfl
    · exact canonical_of_eq hc (produceStep_memories hp)
    · exact hc
  · exact handle_canonical (s := { s with inbox := rest }) hs hc he

end Sys2Proof.Machine
end

section
/-! SUPPORT. The invariant of a good state, update by update of the state. -/

namespace Sys2Proof.Machine

/-! ### The invariant, field by field and lane by lane -/

/-- What a good state asks of a lane, on a display and queues of parameters `c`, where `next` rows are claimed and the
sequencer is in `seq`. -/
structure LaneOk (c : Config) (next : Nat) (seq : Seq) (x : LaneState) : Prop where
  sized : QueueSized c x.queue
  ordered : QueueOk c x.queue
  done : x.done = true → next = c.height ∧ x.busy = false
  busy : x.busy = true → x.row < next ∧ seq = .transmitting

/-- `Inv`, with what concerns one lane said of every lane. -/
structure Good (s : State) : Prop where
  valid : s.cfg.Valid
  lines : s.dirtyLines.length = s.cfg.height
  cols : s.dirtyCols.length = s.cfg.colBytes
  threads : s.lineThreads.length = s.cfg.height
  mask : s.mask.length = s.cfg.lineBytes
  memory : Memory.wf s.mem
  lutForm : Lut.wf s.lut
  reserved : ReservedZero s
  next_le : s.lineNext ≤ s.cfg.height
  consumed_le : s.linesConsumed ≤ s.cfg.height
  claimed : ∀ r < s.lineNext, (s.lineThreads[r]?).join.isSome = true
  frame : s.fdone = true → s.linesConsumed = s.cfg.height
  update : updating s = true → s.phase.toNat < s.phaseCount.toNat ∧ hasLayout s = true ∧ geomOk s = true
  lut : LutReady s
  lane : ∀ l, LaneOk s.cfg s.lineNext s.seq (getLane l s)

theorem Good.of_inv {s : State} (h : Inv s) : Good s := by
  obtain ⟨hvalid, ⟨hlines, hcols, hthreads, hmask, hs0, hs1⟩, ⟨hmem, hlutForm⟩, hres, ⟨hq0, hq1⟩,
    ⟨hnext, hcons, hclaimed, hdone, hbusy, hframe⟩, ⟨hupdate, hquiet⟩, hlut⟩ := h
  have hseq : ∀ l, (getLane l s).busy = true → s.seq = .transmitting := fun l hb => by
    by_contra hne
    obtain ⟨h0, h1⟩ := hquiet hne
    cases l <;> simp_all
  refine ⟨hvalid, hlines, hcols, hthreads, hmask, hmem, hlutForm, hres, hnext, hcons, hclaimed, hframe, hupdate, hlut,
    fun l => ⟨?_, ?_, hdone l, fun hb => ⟨hbusy l hb, hseq l hb⟩⟩⟩
  · cases l
    · exact hs0
    · exact hs1
  · cases l
    · exact hq0
    · exact hq1

theorem Good.idle_lane {s : State} (h : Good s) (hs : s.seq ≠ .transmitting) (l : Lane) : (getLane l s).busy = false :=
  Bool.eq_false_iff.mpr fun hb => hs ((h.lane l).busy hb).2

theorem Good.inv {s : State} (h : Good s) : Inv s :=
  ⟨h.valid, ⟨h.lines, h.cols, h.threads, h.mask, (h.lane .zero).sized, (h.lane .one).sized⟩, ⟨h.memory, h.lutForm⟩,
    h.reserved, ⟨(h.lane .zero).ordered, (h.lane .one).ordered⟩,
    ⟨h.next_le, h.consumed_le, h.claimed, fun l => (h.lane l).done, fun l hb => ((h.lane l).busy hb).1, h.frame⟩,
    ⟨h.update, fun hs => ⟨h.idle_lane hs .zero, h.idle_lane hs .one⟩⟩, h.lut⟩

theorem Good.sized {s : State} (h : Good s) : Sized s := h.inv.2.1

theorem Good.canonical {s : State} (h : Good s) : Canonical s := ⟨h.memory, h.lutForm⟩

theorem Good.qcap_pos {s : State} (h : Good s) : 0 < s.cfg.qcap := by
  have := h.valid.2.2.1.1
  omega

/-! ### The error causes (R261) -/

theorem causes_or {a b : Word} (ha : a &&& ~~~errWritable = 0#32) (hb : b &&& ~~~errWritable = 0#32) :
    (a ||| b) &&& ~~~errWritable = 0#32 := by
  rw [BitVec.and_comm, BitVec.and_or_distrib_left, BitVec.and_comm _ a, BitVec.and_comm _ b, ha, hb, BitVec.or_zero]

theorem causes_and (v : Word) : (v &&& errWritable) &&& ~~~errWritable = 0#32 := by
  rw [BitVec.and_assoc, show errWritable &&& ~~~errWritable = 0#32 by decide, BitVec.and_zero]

/-- A failed selection names one of two causes (R141). -/
theorem selectLayout_eq_error {mode ctrl e : Word} (h : selectLayout mode ctrl = .error e) :
    e = errLookupNotImplemented ∨ e = errInvalidPackingMode := by
  unfold selectLayout at h
  split at h
  · split_ifs at h
    exact .inl (Except.error.inj h).symm
  · split at h
    · exact .inl (Except.error.inj h).symm
    · split_ifs at h
      exact .inl (Except.error.inj h).symm
  · split at h
    · exact .inl (Except.error.inj h).symm
    · split_ifs at h
      exact .inl (Except.error.inj h).symm
  · exact .inr (Except.error.inj h).symm

theorem selectLayout_causes {mode ctrl e : Word} (h : selectLayout mode ctrl = .error e) :
    e &&& ~~~errWritable = 0#32 := by
  rcases selectLayout_eq_error h with rfl | rfl <;> decide

theorem startErrors_causes (s : State) : startErrors s &&& ~~~errWritable = 0#32 := by
  unfold startErrors
  refine causes_or ?_ ?_
  · split
    · exact selectLayout_causes ‹_›
    · decide
  · split <;> decide

/-- The checks of `UPD.START` pass where a layout is selected and the geometry is good (R233). -/
theorem startErrors_eq_zero {s : State} (h : startErrors s = 0#32) : hasLayout s = true ∧ geomOk s = true := by
  obtain ⟨hl, hg⟩ := BitVec.or_eq_zero_iff.mp h
  constructor
  · unfold hasLayout
    split at hl
    · rename_i e he
      rcases selectLayout_eq_error he with rfl | rfl <;> exact absurd hl (by decide)
    · rename_i l hs
      rw [hs]
      rfl
  · by_contra hn
    rw [if_neg hn] at hg
    exact absurd hg (by decide)

/-! ### Updates of the lanes -/

theorem Good.setLane {s : State} (h : Good s) {l : Lane} {x : LaneState} (hx : LaneOk s.cfg s.lineNext s.seq x) :
    Good (setLane l x s) := by
  cases l
  · exact { h with lane := fun | .zero => hx | .one => h.lane .one }
  · exact { h with lane := fun | .zero => h.lane .zero | .one => hx }

theorem Good.setQueue {s : State} (h : Good s) {q : Lane} {x : Queue} (hs : QueueSized s.cfg x)
    (ho : QueueOk s.cfg x) : Good (setQueue q x s) :=
  h.setLane { h.lane q with sized := hs, ordered := ho }

theorem Good.withProducer {s : State} (h : Good s) (q : Lane) : Good (withProducer q s) :=
  h.setQueue (h.lane q).sized (h.lane q).ordered

theorem Good.withConsumer {s : State} (h : Good s) (q : Lane) : Good (withConsumer q s) :=
  h.setQueue (h.lane q).sized (h.lane q).ordered

theorem Good.result {s : State} (h : Good s) (v : Word) : Good (result v s) := by
  unfold Machine.result setRes
  split
  · exact { h with }
  · exact h.setLane (l := .zero) { h.lane .zero with }
  · exact h.setLane (l := .one) { h.lane .one with }
  · exact { h with }

theorem Good.resHost {s : State} (h : Good s) (v : Word) : Good { s with resHost := v } := { h with }

/-- The lane holds no row any more (R226). -/
theorem Good.fetchComplete {s : State} (h : Good s) (l : Lane) : Good (fetchComplete l s) :=
  h.setLane { h.lane l with done := fun hd => ⟨((h.lane l).done hd).1, rfl⟩, busy := nofun }

theorem Good.clearProgress {s : State} (h : Good s) : Good (clearProgress s) := by
  have h1 : Good { s with fdone := false } := { h with frame := nofun }
  have h2 := h1.setLane (l := .zero) (x := { s.lane0 with done := false, busy := false })
    { h.lane .zero with done := nofun, busy := nofun }
  exact h2.setLane (l := .one) (x := { s.lane1 with done := false, busy := false })
    { h.lane .one with done := nofun, busy := nofun }

theorem Good.emptyQueue {s : State} (h : Good s) (q : Lane) :
    Good (Machine.setQueue q (emptyQueue (getQueue q s)) s) :=
  h.setQueue (h.lane q).sized (queueOk_of_zero h.qcap_pos rfl rfl rfl rfl)

theorem Good.emptyQueues {s : State} (h : Good s) : Good (emptyQueues s) :=
  (h.emptyQueue .zero).emptyQueue .one

/-! ### Updates of the memories and registers -/

theorem Good.withMem {s : State} (h : Good s) {m : Cells} (hm : Memory.wf m) : Good { s with mem := m } :=
  { h with memory := hm }

theorem Good.withMask {s : State} (h : Good s) {m : List Byte} (hm : m.length = s.cfg.lineBytes) :
    Good { s with mask := m } :=
  { h with mask := hm }

theorem Good.withLut {s : State} (h : Good s) (hs : s.seq ≠ .transmitting) {m : Cells} (hm : Lut.wf m) :
    Good { s with lut := m } :=
  { h with lutForm := hm, lut := fun ht => absurd ht hs }

theorem Good.withError {s : State} (h : Good s) {e : Word} (he : e &&& ~~~errWritable = 0#32) :
    Good { s with error := e } := by
  obtain ⟨hmode, hctrl, hphase, hcount, -⟩ := h.reserved
  exact { h with reserved := ⟨hmode, hctrl, hphase, hcount, he⟩ }

theorem Good.flagError {s : State} (h : Good s) {e : Word} (he : e &&& ~~~errWritable = 0#32) :
    Good (flagError e s) :=
  h.withError (causes_or h.reserved.2.2.2.2 he)

/-- Outside an update any values may stand in the registers, so long as reserved bits are zero (R21). -/
theorem Good.withRegisters {s : State} (h : Good s) (hs : s.seq = .idle ∨ s.seq = .done) (o : Operands)
    {mode ctrl phase count : Word} (hmode : mode.toNat < 2 ^ 11) (hctrl : ctrl.toNat < 2 ^ 3)
    (hphase : phase.toNat < 2 ^ 16) (hcount : count.toNat < 2 ^ 16) :
    Good { s with operands := o, mode := mode, ctrl := ctrl, phase := phase, phaseCount := count } :=
  { h with
    reserved := ⟨hmode, hctrl, hphase, hcount, h.reserved.2.2.2.2⟩
    update := fun hu => by rcases hs with hs | hs <;> simp [updating, hs] at hu
    lut := fun ht => by rcases hs with hs | hs <;> cases hs.symm.trans ht }

/-! ### Updates of the sequencer and the counters -/

theorem Good.endUpdate {s : State} (h : Good s) {q : Seq} (hq : q = .idle ∨ q = .done)
    (hb : ∀ l, (getLane l s).busy = false) : Good { s with seq := q } :=
  { h with
    update := fun hu => by rcases hq with rfl | rfl <;> cases hu
    lut := fun ht => by rcases hq with rfl | rfl <;> cases ht
    lane := fun l => { h.lane l with busy := fun ht => absurd ht (Bool.eq_false_iff.mp (hb l)) } }

theorem Good.toPreparing {s : State} (h : Good s) (hb : ∀ l, (getLane l s).busy = false) {p : Word}
    (hp : p.toNat < s.phaseCount.toNat) (hl : hasLayout s = true) (hg : geomOk s = true) :
    Good { s with phase := p, seq := .preparing } := by
  obtain ⟨hmode, hctrl, -, hcount, herr⟩ := h.reserved
  exact
    { h with
      reserved := ⟨hmode, hctrl, Nat.lt_trans hp hcount, hcount, herr⟩
      update := fun _ => ⟨hp, hl, hg⟩
      lut := nofun
      lane := fun l => { h.lane l with busy := fun ht => absurd ht (Bool.eq_false_iff.mp (hb l)) } }

/-- A phase starts where its LUT is built (R236, R306). -/
theorem Good.toTransmitting {s : State} (h : Good s) (hs : s.seq = .preparing) (hf : s.fdone = false)
    (hl : ∀ l, (getLane l s).done = false ∧ (getLane l s).busy = false)
    (hlut : ∀ l, selectLayout s.mode s.ctrl = .ok l → ∀ i < layoutSize l, (lutRead s.lut i).isSome = true) :
    Good { s with lineNext := 0, linesConsumed := 0, seq := .transmitting } :=
  { h with
    next_le := Nat.zero_le _
    consumed_le := Nat.zero_le _
    claimed := nofun
    frame := fun hd => absurd hd (Bool.eq_false_iff.mp hf)
    update := fun _ => h.update (by simp [updating, hs])
    lut := fun _ => hlut
    lane := fun l =>
      { h.lane l with
        done := fun hd => absurd hd (Bool.eq_false_iff.mp (hl l).1)
        busy := fun hb => absurd hb (Bool.eq_false_iff.mp (hl l).2) } }

/-- The phase advance happens where both lanes are done, and so hold no row (R240). -/
theorem Good.tryAdvance {s : State} (h : Good s) : Good (tryAdvance s).1 := by
  unfold Machine.tryAdvance
  split
  · rename_i hc
    obtain ⟨hseq, -, hd0, hd1⟩ := hc
    have hb : ∀ l, (getLane l s).busy = false := fun
      | .zero => ((h.lane .zero).done hd0).2
      | .one => ((h.lane .one).done hd1).2
    split
    · exact h.endUpdate (.inr rfl) hb
    split
    · rename_i hp
      obtain ⟨-, hl, hg⟩ := h.update (by simp [updating, hseq])
      refine h.toPreparing hb ?_ hl hg
      have := s.phaseCount.isLt
      rw [BitVec.toNat_add, Nat.mod_eq_of_lt (by simp; omega)]
      exact hp
    · exact h.endUpdate (.inr rfl) hb
  · exact h

theorem lineThreads_set_isSome {threads : List (Option Lane)} {n : Nat} (hn : n < threads.length) (l : Lane)
    (h : ∀ r < n, (threads[r]?).join.isSome = true) :
    ∀ r < n + 1, ((threads.set n (some l))[r]?).join.isSome = true := by
  intro r hr
  by_cases he : r = n
  · subst he
    simp [hn]
  · rw [List.getElem?_set_ne (Ne.symm he)]
    exact h r (by omega)

/-- A claim takes the next row; no lane is done while one is left (R225). -/
theorem Good.claimRow {s : State} (h : Good s) (l : Lane) (hs : s.seq = .transmitting)
    (hn : s.lineNext < s.cfg.height) : Good (claimRow l s) := by
  have hdone : ∀ k, (getLane k s).done = true → False := fun k hd => by
    have := ((h.lane k).done hd).1
    omega
  have h1 : Good { s with lineNext := s.lineNext + 1, lineThreads := s.lineThreads.set s.lineNext (some l) } :=
    { h with
      threads := by simpa using h.threads
      next_le := hn
      claimed := lineThreads_set_isSome (by rw [h.threads]; exact hn) l h.claimed
      lane := fun k =>
        { h.lane k with
          done := fun hd => (hdone k hd).elim
          busy := fun hb => ⟨Nat.lt_succ_of_lt ((h.lane k).busy hb).1, hs⟩ } }
  exact h1.setLane
    { h.lane l with done := fun hd => (hdone l hd).elim, busy := fun _ => ⟨Nat.lt_succ_self _, hs⟩ }

theorem Good.claimStep {s : State} (h : Good s) (l : Lane) (hs : s.seq = .transmitting)
    (hb : (getLane l s).busy = false) : Good (claimStep l s) := by
  rcases claimStep_cases l s with ⟨hn, hc⟩ | ⟨hn, hc⟩ <;> rw [hc]
  · exact h.claimRow l hs hn
  · refine Good.tryAdvance (h.setLane { h.lane l with done := fun _ => ⟨?_, hb⟩ })
    have := h.next_le
    omega

/-- A delivered row counts (R227). -/
theorem Good.deliver {s : State} (h : Good s) (hc : s.linesConsumed < s.cfg.height) (row : Row) (starved : Bool) :
    Good (deliver row starved s) := by
  refine Good.result ?_ _
  exact { h with consumed_le := hc, frame := fun hf => absurd (h.frame hf) (by omega) }

/-- The oldest row is taken from a queue that holds one (R204, R227). -/
theorem Good.readRow {s : State} (h : Good s) (q : Lane) (he : queueEmpty s.cfg (getQueue q s) = false) :
    Good (Machine.setQueue q (advanceLast s.cfg (getQueue q s)) s) :=
  h.setQueue (h.lane q).sized (queueOk_advanceLast (h.lane q).ordered he)

theorem Good.feedStep {s t : State} (h : Good s) (hc : s.linesConsumed < s.cfg.height) (hf : feedStep s = .next t) :
    Good t := by
  rcases feedStep_eq_next hf with rfl | ⟨q, row, -, -, he, -, rfl⟩
  · exact (h.flagError (by decide)).deliver hc _ _
  · exact (h.readRow q he).deliver (by simpa using hc) _ _

/-- The produce step of a lane (R226). -/
theorem Good.produceStep {s t : State} (h : Good s) {l : Lane} (he : produceEnabled l s = true)
    (hp : produceStep l s = .next t) : Good t := by
  rcases produceStep_eq_next hp with ⟨-, rfl⟩ | ⟨hf, row, hr, rfl⟩
  · exact h.fetchComplete l
  · simp only [produceEnabled, hf, Bool.or_false, Bool.and_eq_true, Bool.not_eq_true'] at he
    obtain ⟨hsized, hord⟩ := queueOk_commit (h.lane l).sized (h.lane l).ordered he.2 hr h.mask
    exact (h.setQueue hsized hord).fetchComplete l

/-- The state after reset is good, whatever the parameters and the memory (R54). -/
theorem good_resetWith {c : Config} (hc : c.Valid) {m : Cells} (hm : Memory.wf m) : Good (State.resetWith c m) where
  valid := hc
  lines := List.length_replicate
  cols := List.length_replicate
  threads := List.length_replicate
  mask := List.length_replicate
  memory := hm
  lutForm := lut_wf_nil
  reserved := ⟨Nat.two_pow_pos _, Nat.two_pow_pos _, Nat.two_pow_pos _, Nat.two_pow_pos _, BitVec.zero_and⟩
  next_le := Nat.zero_le _
  consumed_le := Nat.zero_le _
  claimed := nofun
  frame := nofun
  update := nofun
  lut := nofun
  lane l := by
    have hx : LaneOk c 0 .idle (LaneState.reset c) :=
      { sized := queueSized_reset c
        ordered := queueOk_of_zero (by have := hc.2.2.1.1; omega) rfl rfl rfl rfl
        done := nofun
        busy := nofun }
    cases l <;> exact hx

end Sys2Proof.Machine
end

section
/-! SUPPORT. Every step takes a good state to a good state. -/

namespace Sys2Proof.Machine

theorem buildMask_length (s : State) : (buildMask s).length = s.cfg.lineBytes := by
  unfold buildMask
  split <;> simp

/-! ### Operations -/

theorem Good.lbOp {s t : State} (h : Good s) {l : Layout} (he : exec (lbOp l) s = .next t) : Good t := by
  obtain ⟨-, hs, -, rfl⟩ := exec_lbOp_eq_next he
  exact (h.withLut (by simp [hs]) (builtLut_wf h.lutForm l)).resHost _

theorem Good.lbAuto {s t : State} (h : Good s) (he : exec .lbAuto s = .next t) : Good t := by
  obtain ⟨-, hs, ⟨e, hsel, rfl⟩ | ⟨l, -, -, rfl⟩⟩ := exec_lbAuto_eq_next he
  · exact (h.flagError (selectLayout_causes hsel)).resHost e
  · exact (h.withLut (by simp [hs]) (builtLut_wf h.lutForm l)).resHost _

theorem Good.plOp {s t : State} (h : Good s) {l : Layout} (he : exec (plOp l) s = .next t) : Good t := by
  have hm := exec_memory_wf h.sized h.canonical he
  obtain ⟨-, -, -, row, -, -, rfl⟩ := exec_plOp_eq_next he
  exact (h.withMem hm).resHost _

theorem Good.plAuto {s t : State} (h : Good s) (he : exec .plAuto s = .next t) : Good t := by
  have hm := exec_memory_wf h.sized h.canonical he
  obtain ⟨-, -, ⟨e, hsel, rfl⟩ | ⟨l, -, -, row, -, -, rfl⟩⟩ := exec_plAuto_eq_next he
  · exact (h.flagError (selectLayout_causes hsel)).resHost e
  · exact (h.withMem hm).resHost _

theorem Good.diff {s t : State} (h : Good s) (he : exec .diff s = .next t) : Good t := by
  have hm := exec_memory_wf h.sized h.canonical he
  obtain ⟨-, -, ⟨-, rfl⟩ | ⟨-, -, rfl⟩⟩ := exec_diff_eq_next he
  · exact (h.flagError (e := errInvalidCrop) (by decide)).resHost _
  · exact { h with lines := by simp [diffed, diffLines], cols := by simp [diffed, diffCols], memory := hm }

theorem Good.lqWrite {s t : State} (h : Good s) {u : BitVec 8} (he : exec (.lqWrite u) s = .next t) : Good t := by
  obtain ⟨q, -, -, -, ⟨-, rfl⟩ | ⟨-, -, rfl⟩⟩ := exec_lqWrite_eq_next he
  · exact (h.withProducer q).result _
  · simp only [Machine.withProducer, setQueue_setQueue, getQueue_setQueue_same]
    refine Good.result (h.setQueue ?_ ?_) _
    · exact queueSized_putCurrent (h.lane q).sized (memReadRun_length _ _ _)
    · exact queueOk_putCurrent (h.lane q).sized (h.lane q).ordered _

theorem Good.lqCommit {s t : State} (h : Good s) {u : BitVec 8} (he : exec (.lqCommit u) s = .next t) : Good t := by
  obtain ⟨q, row, -, -, -, hf, hr, rfl⟩ := exec_lqCommit_eq_next he
  obtain ⟨hsized, hord⟩ :=
    queueOk_commit (h.lane q).sized (h.lane q).ordered hf (sized_slotRead h.sized hr) h.mask
  simp only [Machine.withProducer, setQueue_setQueue, getQueue_setQueue_same]
  refine Good.result (h.setQueue ?_ ?_) _
  · exact hsized
  · exact hord

theorem Good.lqRead {s t : State} (h : Good s) {u : BitVec 8} (he : exec (.lqRead u) s = .next t) : Good t := by
  have hm := exec_memory_wf h.sized h.canonical he
  obtain ⟨q, -, -, -, ⟨-, rfl⟩ | ⟨row, hq, -, -, rfl⟩⟩ := exec_lqRead_eq_next he
  · exact (h.withConsumer q).result _
  · have hcfg : (Machine.withConsumer q s).cfg = s.cfg := setQueue_cfg _ _ _
    rw [result_mem, setQueue_mem] at hm
    rw [← hcfg]
    exact (((h.withConsumer q).withMem hm).readRow q (by cases q <;> exact hq)).result _

theorem Good.fetch {s t : State} (h : Good s) {u : BitVec 8} (he : exec (.fetch u) s = .next t) : Good t := by
  obtain ⟨l, -, -, hb, hs, -, rfl⟩ := exec_fetch_eq_next he
  exact (h.withProducer l).claimStep l ((setQueue_seq _ _ _).trans hs) ((getLane_setQueue_busy _ _ _ _).trans hb)

theorem Good.feed {s t : State} (h : Good s) (he : exec .feed s = .next t) : Good t := by
  obtain ⟨hp, -, ⟨-, rfl⟩ | ⟨hc, -, -, hf⟩⟩ := exec_feed_eq_next he
  · exact { h with }
  · exact ((h.withConsumer .zero).withConsumer .one).feedStep hc hf

theorem Good.updStart {s t : State} (h : Good s) (he : exec .updStart s = .next t) : Good t := by
  obtain ⟨-, hs, hcase⟩ := exec_updStart_eq_next he
  have hclear : Good { Machine.clearProgress s with error := startErrors s } :=
    h.clearProgress.withError (startErrors_causes s)
  obtain ⟨hmode, hctrl, -, hcount, -⟩ := h.reserved
  have hidle : ∀ l, (getLane l (Machine.clearProgress s)).busy = false := fun l => by cases l <;> rfl
  rcases hcase with ⟨-, rfl⟩ | ⟨herr, hcnt, rfl⟩
  · have hstart : Good (startClear s) :=
      hclear.withRegisters (.inl hs) s.operands hmode hctrl (Nat.two_pow_pos _) hcount
    exact (hstart.endUpdate (.inr rfl) hidle).resHost _
  · obtain ⟨hl, hg⟩ := startErrors_eq_zero herr
    have hpos : (0#32).toNat < s.phaseCount.toNat :=
      Nat.pos_of_ne_zero fun h0 => hcnt (BitVec.eq_of_toNat_eq h0)
    have hprep : Good { startClear s with seq := .preparing } := hclear.toPreparing hidle hpos hl hg
    exact (hprep.withMask (buildMask_length s)).resHost _

theorem Good.prep {s t : State} (h : Good s) (he : exec .prep s = .next t) : Good t := by
  obtain ⟨-, hs, l, hl, -, rfl⟩ := exec_prep_eq_next he
  have hbuilt : Good { s with lut := builtLut s l } := h.withLut (by simp [hs]) (builtLut_wf h.lutForm l)
  refine (Good.toTransmitting hbuilt.emptyQueues.clearProgress hs rfl ?_ ?_).resHost _
  · rintro (_ | _) <;> exact ⟨rfl, rfl⟩
  · intro k hk i hi
    cases hl.symm.trans hk
    show (lutRead (builtLut s l) i).isSome = true
    rw [lutRead_builtLut, if_pos hi, Option.isSome_some]

theorem Good.frameDone {s t : State} (h : Good s) (he : exec .frameDone s = .next t) : Good t := by
  obtain ⟨-, -, hc, -, rfl⟩ := exec_frameDone_eq_next he
  have hframe : Good { s with fdone := true } := { h with frame := fun _ => hc }
  exact hframe.tryAdvance.result _

theorem Good.updAck {s t : State} (h : Good s) (he : exec .updAck s = .next t) : Good t := by
  obtain ⟨-, hs, rfl⟩ := exec_updAck_eq_next he
  exact (h.endUpdate (.inl rfl) (h.idle_lane (by simp [hs]))).resHost _

theorem Good.exec {i : Instr} {s t : State} (h : Good s) (he : exec i s = .next t) : Good t := by
  cases i with
  | nop =>
    obtain ⟨-, rfl⟩ := exec_nop_eq_next he
    exact h.result _
  | lb1p64k => exact h.lbOp (l := .l1p64k) he
  | lb1p1k => exact h.lbOp (l := .l1p1k) he
  | lb2p64k f => exact h.lbOp (l := .l2p64k f) he
  | lb2p1k f => exact h.lbOp (l := .l2p1k f) he
  | lb8p fw => exact h.lbOp (l := .l8p fw) he
  | lbAuto => exact h.lbAuto he
  | pl1p64k => exact h.plOp (l := .l1p64k) he
  | pl1p1k => exact h.plOp (l := .l1p1k) he
  | pl2p64k => exact h.plOp (l := .l2p64k 0) he
  | pl2p1k => exact h.plOp (l := .l2p1k 0) he
  | pl8p => exact h.plOp (l := .l8p false) he
  | plAuto => exact h.plAuto he
  | diff => exact h.diff he
  | lqCurrent u =>
    obtain ⟨q, v, -, -, rfl⟩ := exec_lqCurrent_eq_next he
    exact h.result _
  | lqWrite u => exact h.lqWrite he
  | lqCommit u => exact h.lqCommit he
  | lqRead u => exact h.lqRead he
  | lqReset u =>
    obtain ⟨q, -, -, -, -, rfl⟩ := exec_lqReset_eq_next he
    exact (h.emptyQueue q).resHost _
  | fetch u => exact h.fetch he
  | feed => exact h.feed he
  | maskBuild =>
    obtain ⟨-, -, rfl⟩ := exec_maskBuild_eq_next he
    exact (h.withMask (buildMask_length s)).resHost _
  | updStart => exact h.updStart he
  | prep => exact h.prep he
  | frameDone => exact h.frameDone he
  | updAck => exact h.updAck he

/-! ### The other inputs -/

theorem and_toNat_lt {v m : Word} {n : Nat} (hm : m.toNat < n) : (v &&& m).toNat < n := by
  rw [BitVec.toNat_and]
  exact Nat.lt_of_le_of_lt Nat.and_le_right hm

theorem Good.writeOffset {off : Nat} {v : Word} {s t : State} (h : Good s) (hw : writeOffset off v s = .next t) :
    Good t := by
  obtain ⟨hmode, hctrl, hphase, hcount, -⟩ := h.reserved
  rcases writeOffset_eq_next hw with
    rfl | rfl | ⟨hs, ⟨o, rfl⟩ | rfl | rfl | rfl | rfl | ⟨y, b, rfl⟩ | ⟨j, b, rfl⟩⟩
  · exact h
  · exact h.flagError (causes_and v)
  · exact h.withRegisters hs o hmode hctrl hphase hcount
  · exact h.withRegisters hs s.operands (and_toNat_lt (by decide)) hctrl hphase hcount
  · exact h.withRegisters hs s.operands hmode (and_toNat_lt (by decide)) hphase hcount
  · exact h.withRegisters hs s.operands hmode hctrl (and_toNat_lt (by decide)) hcount
  · exact h.withRegisters hs s.operands hmode hctrl hphase (and_toNat_lt (by decide))
  · exact { h with lines := by simpa using h.lines }
  · exact { h with cols := by simpa using h.cols }

theorem Good.syncCurStep {s : State} (h : Good s) (q : Lane) : Good (syncCurStep q s) := by
  unfold Machine.syncCurStep
  split
  · exact h.setQueue (h.lane q).sized (queueOk_syncCur (h.lane q).ordered ‹_›)
  · exact h

theorem Good.syncLastStep {s : State} (h : Good s) (q : Lane) : Good (syncLastStep q s) := by
  unfold Machine.syncLastStep
  split
  · exact h.setQueue (h.lane q).sized (queueOk_syncLast (h.lane q).ordered ‹_›)
  · exact h

theorem Good.handle {e : Event} {s t : State} (h : Good s) (he : handle e s = .next t) : Good t := by
  cases e with
  | portWrite addr bytes v =>
    obtain ⟨-, ⟨p, i, -, -, hx⟩ | ⟨-, hw⟩⟩ := portWrite_eq_next he
    · exact Good.exec (s := { s with issuer := p }) { h with } hx
    · exact h.writeOffset hw
  | portRead addr bytes =>
    rw [readOffset_eq_next (require_eq_next.mp he).2]
    exact { h with }
  | produce l =>
    rcases scheduleLane_eq_next he with ⟨hen, hp⟩ | ⟨-, rfl⟩
    · exact h.produceStep hen hp
    · exact h
  | syncCur q =>
    cases he
    exact h.syncCurStep q
  | syncLast q =>
    cases he
    exact h.syncLastStep q
  | memStore addr b =>
    obtain ⟨-, he⟩ := require_eq_next.mp he
    cases he
    exact h.withMem (memWrite_wf h.memory addr.isLt b)
  | reset =>
    cases he
    exact { good_resetWith h.valid h.memory with }

theorem Good.step {s t : State} (h : Good s) (hs : step s = .next t) : Good t := by
  rcases step_eq_next hs with ⟨-, hq⟩ | ⟨e, rest, -, he⟩
  · rcases quietStep_eq_next hq with ⟨l, hen, hp⟩ | rfl
    · exact h.produceStep hen hp
    · exact h
  · exact Good.handle (s := { s with inbox := rest }) { h with } he

/-- Settles O59: each update that a step is made of keeps the invariant. -/
theorem invariantKept : Obligations.InvariantKept :=
  fun _ _ h hs => ((Good.of_inv h).step hs).inv

/-- Settles O7: the state after reset is good for every choice of valid parameters, log 1's among them. -/
theorem resetSatisfiesInvariant : Obligations.ResetSatisfiesInvariant :=
  (good_resetWith (by decide) reset_memory_wf).inv

end Sys2Proof.Machine
end

section
/-! SUPPORT. The register port: which offset an access names, what stands there, and what a write stores. -/

namespace Sys2Proof.Machine

/-! ### The offset of an access (R21) -/

theorem regOffset_add (c : Config) {off : Nat} (h : off < 2 ^ 32) :
    regOffset c (c.reBase + BitVec.ofNat 32 off) = off := by
  rw [regOffset, BitVec.add_comm, BitVec.add_sub_cancel, BitVec.toNat_ofNat, Nat.mod_eq_of_lt h]

theorem handle_portRead {s : State} {off : Nat} (h : off < 2 ^ 32) (ha : off % 4 = 0) :
    handle (.portRead (s.cfg.reBase + BitVec.ofNat 32 off) 4) s = readOffset off s := by
  have hw : wordAccess off 4 = true := wordAccess_eq_true.mpr ⟨rfl, ha⟩
  simp only [handle, portRead, regOffset_add s.cfg h, hw, require_true]

theorem handle_registerEvent {s : State} {off : Nat} (v : Word) (h : off < 2 ^ 32) (ha : off % 4 = 0)
    (hp : commandPort off = none) : handle (registerEvent s.cfg off v) s = writeOffset off v s := by
  have hw : wordAccess off 4 = true := wordAccess_eq_true.mpr ⟨rfl, ha⟩
  simp only [handle, registerEvent, portWrite, regOffset_add s.cfg h, hw, hp, require_true]

theorem commandPort_eq_none {off : Nat} (h : off < 0x100 ∨ 0x110 ≤ off) : commandPort off = none := by
  unfold commandPort
  rw [if_neg (by omega), if_neg (by omega), if_neg (by omega), if_neg (by omega)]

/-- Settles O13: such an access is not a whole aligned word. -/
theorem badAccessRefused : Obligations.BadAccessRefused := by
  intro s addr v bytes h
  have hw : wordAccess (regOffset s.cfg addr) bytes = false := by
    refine Bool.eq_false_iff.mpr fun hw => ?_
    obtain ⟨hb, ha⟩ := wordAccess_eq_true.mp hw
    exact h.elim (· hb) (· ha)
  constructor
  · simp only [handle, portWrite, hw, require_false]
  · simp only [handle, portRead, hw, require_false]

/-! ### The registers (R22 to R37) -/

theorem registerRead_of_lt (s : State) {off : Nat} (h : off < 0x080) :
    registerRead s off = (operandList s.operands).getD (off / 4) 0#32 :=
  if_pos h

theorem registerRead_of_le (s : State) {off : Nat} (h : 0x080 ≤ off) :
    registerRead s off = (controlList s).getD ((off - 0x080) / 4) 0#32 :=
  if_neg (by omega)

/-- Reserved offsets and command ports read 0 (R36, R37). -/
theorem registerRead_reserved (s : State) {off : Nat} (h : (0x04C ≤ off ∧ off < 0x080) ∨ 0x0DC ≤ off) :
    registerRead s off = 0#32 := by
  rcases h with ⟨hlo, hhi⟩ | h
  · rw [registerRead_of_lt s hhi]
    exact List.getD_eq_default _ _ (show 19 ≤ off / 4 by omega)
  · rw [registerRead_of_le s (by omega)]
    exact List.getD_eq_default _ _ (show 23 ≤ (off - 0x080) / 4 by omega)

/-- The two flags of `UNIF`, bit by bit. -/
theorem unif_bits (w b : Bool) :
    (BitVec.ofNat 32 (bitAt w 0 + bitAt b 1)).getLsbD 0 = w ∧
    (BitVec.ofNat 32 (bitAt w 0 + bitAt b 1)).getLsbD 1 = b ∧
    BitVec.ofNat 32 (bitAt w 0 + bitAt b 1) &&& ~~~0x3#32 = 0#32 := by
  revert w b
  decide

/-- The code and the five flags of `STATUS`, bit by bit. -/
theorem status_bits (q : Seq) (d0 d1 f b0 b1 : Bool) (w : Word)
    (hw : w = BitVec.ofNat 32 (seqCode q + bitAt d0 4 + bitAt d1 5 + bitAt f 6 + bitAt b0 8 + bitAt b1 9)) :
    w.extractLsb' 0 2 = BitVec.ofNat 2 (seqCode q) ∧ w.getLsbD 4 = d0 ∧ w.getLsbD 5 = d1 ∧ w.getLsbD 6 = f ∧
      w.getLsbD 8 = b0 ∧ w.getLsbD 9 = b1 ∧ w &&& ~~~0x373#32 = 0#32 := by
  subst hw
  cases q <;> revert d0 d1 f b0 b1 <;> decide

/-- Settles O12: the sums of `STATUS` and `UNIF` have one summand for each bit. -/
theorem statusFields : Obligations.StatusFields := by
  intro s
  obtain ⟨hseq, hd0, hd1, hf, hb0, hb1, hrest⟩ := status_bits s.seq s.lane0.done s.lane1.done s.fdone s.lane0.busy
    s.lane1.busy (registerRead s 0x09C) rfl
  refine ⟨?_, hd0, hd1, hf, hb0, hb1, hrest, unif_bits s.prevWhiteF s.prevBlackF⟩
  rw [hseq]
  cases s.seq <;> rfl

/-! ### The array windows (R41 to R44; log 10) -/

theorem inWindow_eq_false {base n off : Nat} (h : off < base ∨ n ≤ (off - base) / 4) : inWindow base n off = false := by
  refine Bool.eq_false_iff.mpr fun hw => ?_
  have := inWindow_eq_true.mp hw
  omega

theorem elementAt_line {c : Config} {y : Nat} (h : lineAnswers c y) :
    elementAt c (0x20000 + 4 * y) = some (.dirtyLine y) := by
  obtain ⟨off, hoff⟩ : ∃ off, off = 0x20000 + 4 * y := ⟨_, rfl⟩
  have hi : (off - 0x20000) / 4 = y := by omega
  have h5 : inWindow 0x50000 c.lineBytes off = false := inWindow_eq_false (by omega)
  have h4 : inWindow 0x40000 c.height off = false := inWindow_eq_false (by omega)
  have h3 : inWindow 0x30000 c.colBytes off = false := inWindow_eq_false (by omega)
  have h2 : inWindow 0x20000 c.height off = true := inWindow_eq_true.mpr (by omega)
  simp only [← hoff, elementAt, h5, h4, h3, h2, hi, Bool.false_eq_true, if_false, if_true]

theorem elementAt_col {c : Config} {j : Nat} (h : colAnswers c j) :
    elementAt c (0x30000 + 4 * j) = some (.dirtyCol j) := by
  obtain ⟨off, hoff⟩ : ∃ off, off = 0x30000 + 4 * j := ⟨_, rfl⟩
  have hi : (off - 0x30000) / 4 = j := by omega
  have h5 : inWindow 0x50000 c.lineBytes off = false := inWindow_eq_false (by omega)
  have h4 : inWindow 0x40000 c.height off = false := inWindow_eq_false (by omega)
  have h3 : inWindow 0x30000 c.colBytes off = true := inWindow_eq_true.mpr (by omega)
  simp only [← hoff, elementAt, h5, h4, h3, hi, Bool.false_eq_true, if_false, if_true]

theorem elementAt_thread {c : Config} {r : Nat} (h : threadAnswers c r) :
    elementAt c (0x40000 + 4 * r) = some (.lineThread r) := by
  obtain ⟨off, hoff⟩ : ∃ off, off = 0x40000 + 4 * r := ⟨_, rfl⟩
  have hi : (off - 0x40000) / 4 = r := by omega
  have h5 : inWindow 0x50000 c.lineBytes off = false := inWindow_eq_false (by omega)
  have h4 : inWindow 0x40000 c.height off = true := inWindow_eq_true.mpr (by omega)
  simp only [← hoff, elementAt, h5, h4, hi, Bool.false_eq_true, if_false, if_true]

theorem elementAt_mask {c : Config} {i : Nat} (h : i < c.lineBytes) :
    elementAt c (0x50000 + 4 * i) = some (.mask i) := by
  obtain ⟨off, hoff⟩ : ∃ off, off = 0x50000 + 4 * i := ⟨_, rfl⟩
  have hi : (off - 0x50000) / 4 = i := by omega
  have h5 : inWindow 0x50000 c.lineBytes off = true := inWindow_eq_true.mpr (by omega)
  simp only [← hoff, elementAt, h5, hi, if_true]

/-! ### Reads -/

theorem readOffset_register (s : State) {off : Nat} (h : off < 0x10000) :
    readOffset off s = .next { s with readData := registerRead s off } :=
  if_pos h

theorem readOffset_lut (s : State) {i : Nat} (h : i < 65536) :
    readOffset (0x10000 + i) s =
      need (lutRead s.lut i) .lutUnwritten (fun b => .next { s with readData := b.setWidth 32 }) := by
  rw [readOffset, if_neg (by omega), if_pos (by omega), Nat.add_sub_cancel_left]
  rfl

theorem readOffset_element {s : State} {off : Nat} {e : Element} (hlo : 0x20000 ≤ off) (hhi : off < 0x1000000)
    (he : elementAt s.cfg off = some e) : readOffset off s = readElement e s := by
  rw [readOffset, if_neg (by omega), if_neg (by omega), if_pos hhi, he]

/-- The element that answers at an aligned offset is read through the port. -/
theorem handle_portRead_element {s : State} {off : Nat} {e : Element} (hlo : 0x20000 ≤ off) (hhi : off < 0x1000000)
    (ha : off % 4 = 0) (he : elementAt s.cfg off = some e) :
    handle (.portRead (s.cfg.reBase + BitVec.ofNat 32 off) 4) s = readElement e s :=
  (handle_portRead (by omega) ha).trans (readOffset_element hlo hhi he)

theorem readOffset_slot (s : State) (q : Lane) {i j : Nat} (hi : i < 512) (hj : j < 0x4000) :
    readOffset (0x1000000 + laneNum q * 0x800000 + i * 0x4000 + j) s = slotWindow q i j s := by
  cases q with
  | zero =>
    obtain ⟨off, hoff⟩ : ∃ off, off = 0x1000000 + laneNum .zero * 0x800000 + i * 0x4000 + j := ⟨_, rfl⟩
    have h0 : laneNum .zero = 0 := rfl
    have h1 : (off - 0x1000000) / 0x4000 = i := by omega
    have h2 : (off - 0x1000000) % 0x4000 = j := by omega
    rw [← hoff, readOffset, if_neg (by omega), if_neg (by omega), if_neg (by omega), if_pos (by omega), h1, h2]
  | one =>
    obtain ⟨off, hoff⟩ : ∃ off, off = 0x1000000 + laneNum .one * 0x800000 + i * 0x4000 + j := ⟨_, rfl⟩
    have h0 : laneNum .one = 1 := rfl
    have h1 : (off - 0x1800000) / 0x4000 = i := by omega
    have h2 : (off - 0x1800000) % 0x4000 = j := by omega
    rw [← hoff, readOffset, if_neg (by omega), if_neg (by omega), if_neg (by omega), if_neg (by omega),
      if_pos (by omega), h1, h2]

/-- A slot byte at an aligned offset is read through the port (R45). -/
theorem handle_portRead_slot {s : State} (q : Lane) {i j : Nat} (hi : i < 512) (hj : j < 0x4000) (ha : j % 4 = 0) :
    handle (.portRead (s.cfg.reBase + BitVec.ofNat 32 (0x1000000 + laneNum q * 0x800000 + i * 0x4000 + j)) 4) s =
      slotWindow q i j s := by
  have hq : laneNum q ≤ 1 := by cases q <;> decide
  rw [handle_portRead (by omega) (by omega), readOffset_slot s q hi hj]

theorem slotWindow_of_row {s : State} {q : Lane} {i j : Nat} (hi : i < s.cfg.qcap) (hj : j < s.cfg.lineBytes)
    {row : Row} (hr : slotRead (getQueue q s) i = some row) (hf : slotInFlight q i s = false) :
    slotWindow q i j s = .next { s with readData := (row.getD j 0#8).setWidth 32 } := by
  simp only [slotWindow, hi, hj, and_self, if_true, hr, need_some, hf, Bool.false_eq_true, if_false, answer]

theorem slotWindow_of_none {s : State} {q : Lane} {i j : Nat} (hi : i < s.cfg.qcap) (hj : j < s.cfg.lineBytes)
    (hr : slotRead (getQueue q s) i = none) : slotWindow q i j s = .fault .slotUnwritten := by
  simp only [slotWindow, hi, hj, and_self, if_true, hr, need_none]

/-- Settles O11: the offsets of the port are told apart window by window. -/
theorem registerReadsReturn : Obligations.RegisterReadsReturn := by
  intro s
  refine ⟨fun t addr bytes h => readOffset_eq_next (require_eq_next.mp h).2, fun off hoff ha => ?_, rfl, rfl, rfl, rfl,
    rfl, rfl, rfl, rfl, rfl, rfl, rfl, rfl, rfl, rfl, rfl, rfl, rfl, rfl, rfl, rfl, rfl, rfl, rfl, rfl, rfl, rfl, rfl,
    rfl, rfl, rfl, rfl, rfl, rfl, rfl, rfl, rfl, rfl, rfl, rfl, rfl, fun off _ _ h => registerRead_reserved s h,
    fun i hi ha b hb => ?_, fun i hi ha hb => ?_, fun y hy => ?_, fun j hj => ?_, fun r hr l hl => ?_,
    fun r hr hl => ?_, fun i hi hm => ?_, fun q i j row hc hi hl hj ha hr hf => ?_, fun q i j hc hi hl hj ha hr => ?_⟩
  · rw [handle_portRead (by omega) ha, readOffset_register s hoff]
  · rw [handle_portRead (by omega) (by omega), readOffset_lut s hi, hb, need_some]
  · rw [handle_portRead (by omega) (by omega), readOffset_lut s hi, hb, need_none]
  · exact handle_portRead_element (by omega) (by omega) (by omega) (elementAt_line hy)
  · exact handle_portRead_element (by omega) (by omega) (by omega) (elementAt_col hj)
  · rw [handle_portRead_element (by omega) (by omega) (by omega) (elementAt_thread hr), readElement, hl]
    rfl
  · rw [handle_portRead_element (by omega) (by omega) (by omega) (elementAt_thread hr), readElement, hl]
    rfl
  · exact handle_portRead_element (by omega) (by omega) (by omega) (elementAt_mask hm)
  · rw [handle_portRead_slot q hi hj ha, slotWindow_of_row hc hl hr hf]
  · rw [handle_portRead_slot q hi hj ha, slotWindow_of_none hc hl hr]

/-! ### Writes -/

theorem idleWrite_of {s : State} (hs : s.seq = .idle ∨ s.seq = .done) (t : State) : idleWrite s t = .next t :=
  idleWrite_eq_next.mpr ⟨hs, rfl⟩

/-- A write to operand register number `i` (R22). -/
theorem handle_write_operand {s : State} (hs : s.seq = .idle ∨ s.seq = .done) (v : Word) {i : Nat} (hi : i < 19) :
    handle (registerEvent s.cfg (4 * i) v) s = .next { s with operands := setOperand i v s.operands } := by
  rw [handle_registerEvent v (by omega) (by omega) (commandPort_eq_none (by omega)), writeOffset, if_pos (by omega),
    Nat.mul_div_cancel_left i (by decide), idleWrite_of hs]

/-- An operand register holds what was written (R22). -/
theorem operandList_setOperand (v : Word) (o : Operands) {i : Nat} (hi : i < 19) :
    (operandList (setOperand i v o)).getD i 0#32 = v := by
  interval_cases i <;> rfl

/-- The four control registers that take writes store their named bits (R24 to R27). -/
theorem handle_write_control {s : State} (hs : s.seq = .idle ∨ s.seq = .done) (v : Word) :
    handle (registerEvent s.cfg 0x080 v) s = .next { s with mode := v &&& 0x7FF#32 } ∧
    handle (registerEvent s.cfg 0x084 v) s = .next { s with ctrl := v &&& 0x7#32 } ∧
    handle (registerEvent s.cfg 0x088 v) s = .next { s with phase := v &&& 0xFFFF#32 } ∧
    handle (registerEvent s.cfg 0x08C v) s = .next { s with phaseCount := v &&& 0xFFFF#32 } := by
  have port : ∀ {off : Nat}, 0x04C ≤ off → off < 0x100 → off % 4 = 0 →
      handle (registerEvent s.cfg off v) s = writeOffset off v s := fun _ hhi ha =>
    handle_registerEvent v (by omega) ha (commandPort_eq_none (.inl hhi))
  refine ⟨?_, ?_, ?_, ?_⟩ <;> rw [port (by decide) (by decide) (by decide)] <;> exact idleWrite_of hs _

/-- A register reads back through the port as it stands. -/
theorem handle_read_register (s : State) {off : Nat} (h : off < 0x10000) (ha : off % 4 = 0) {w : Word}
    (hw : registerRead s off = w) :
    ∃ u, handle (.portRead (s.cfg.reBase + BitVec.ofNat 32 off) 4) s = .next u ∧ u.readData = w :=
  ⟨_, (handle_portRead (by omega) ha).trans (readOffset_register s h), hw⟩

/-- A write to the element that answers at an aligned offset. -/
theorem handle_write_element {s : State} {off : Nat} {e : Element} (v : Word) (hlo : 0x20000 ≤ off)
    (hhi : off < 0x1000000) (ha : off % 4 = 0) (he : elementAt s.cfg off = some e) :
    handle (registerEvent s.cfg off v) s = writeElement e v s := by
  rw [handle_registerEvent v (by omega) ha (commandPort_eq_none (by omega)), writeOffset, if_neg (by omega),
    if_neg (by omega), if_neg (by omega), if_neg (by omega), if_neg (by omega), if_neg (by omega),
    if_pos ⟨hlo, hhi⟩, he]

theorem getD_set {α : Type} (xs : List α) {i : Nat} (hi : i < xs.length) (x d : α) (k : Nat) :
    (xs.set i x).getD k d = if k = i then x else xs.getD k d := by
  by_cases h : k = i
  · subst h
    simp [hi]
  · simp [h, Ne.symm h]

/-- What was written to a register reads back, its reserved bits 0 (R21, R22, R24 to R27). -/
theorem write_then_read {s : State} (hs : s.seq = .idle ∨ s.seq = .done) (v : Word) {p : Nat × Word}
    (hp : p ∈ (List.range 19).map (fun i => (4 * i, 0xFFFFFFFF#32)) ++
      [(0x080, 0x000007FF#32), (0x084, 0x00000007#32), (0x088, 0x0000FFFF#32), (0x08C, 0x0000FFFF#32)]) :
    ∃ t u, handle (registerEvent s.cfg p.1 v) s = .next t ∧
      handle (.portRead (s.cfg.reBase + BitVec.ofNat 32 p.1) 4) t = .next u ∧ u.readData = v &&& p.2 := by
  obtain ⟨hmode, hctrl, hphase, hcount⟩ := handle_write_control hs v
  rcases List.mem_append.mp hp with hp | hp
  · obtain ⟨i, hi, rfl⟩ := List.mem_map.mp hp
    have hi := List.mem_range.mp hi
    have hv : registerRead { s with operands := setOperand i v s.operands } (4 * i) = v &&& 0xFFFFFFFF#32 := by
      rw [registerRead_of_lt _ (by omega), Nat.mul_div_cancel_left i (by decide), operandList_setOperand v _ hi]
      exact (BitVec.and_allOnes (x := v)).symm
    obtain ⟨u, hu, hr⟩ := handle_read_register _ (by omega) (by omega) hv
    exact ⟨_, u, handle_write_operand hs v hi, hu, hr⟩
  · simp only [List.mem_cons, List.not_mem_nil, or_false] at hp
    rcases hp with rfl | rfl | rfl | rfl
    · obtain ⟨u, hu, hr⟩ := handle_read_register _ (off := 0x080) (by decide) (by decide) rfl
      exact ⟨_, u, hmode, hu, hr⟩
    · obtain ⟨u, hu, hr⟩ := handle_read_register _ (off := 0x084) (by decide) (by decide) rfl
      exact ⟨_, u, hctrl, hu, hr⟩
    · obtain ⟨u, hu, hr⟩ := handle_read_register _ (off := 0x088) (by decide) (by decide) rfl
      exact ⟨_, u, hphase, hu, hr⟩
    · obtain ⟨u, hu, hr⟩ := handle_read_register _ (off := 0x08C) (by decide) (by decide) rfl
      exact ⟨_, u, hcount, hu, hr⟩

/-- Settles O8: a write goes to the register or element its offset names. -/
theorem registerWritesStore : Obligations.RegisterWritesStore := by
  intro s v hs
  have operand : ∀ i : Fin 19, _ := fun i => handle_write_operand hs v i.isLt
  obtain ⟨hmode, hctrl, hphase, hcount⟩ := handle_write_control hs v
  refine ⟨operand 0, operand 1, operand 2, operand 3, operand 4, operand 5, operand 6, operand 7, operand 8, operand 9,
    operand 10, operand 11, operand 12, operand 13, operand 14, operand 15, operand 16, operand 17, operand 18,
    hmode, hctrl, hphase, hcount, fun p hp => write_then_read hs v hp, fun y hy hlen => ?_, fun j hj hlen => ?_⟩
  · refine ⟨s.dirtyLines.set y (v.getLsbD 0), ?_, getD_set _ (by omega) _ _⟩
    rw [handle_write_element v (by omega) (by omega) (by omega) (elementAt_line hy)]
    exact idleWrite_of hs _
  · refine ⟨s.dirtyCols.set j (v.setWidth 8), ?_, getD_set _ (by omega) _ _⟩
    rw [handle_write_element v (by omega) (by omega) (by omega) (elementAt_col hj)]
    exact idleWrite_of hs _

end Sys2Proof.Machine
end

section
/-! SUPPORT. Commands from the inbox (R36, R110), the reset input (R54), and lookups of unwritten `LUT` bytes (R264). -/

namespace Sys2Proof.Machine

/-! ### Commands -/

/-- The next input being a command, the step issues it for the agent of its port. -/
theorem step_of_command {s : State} {rest : List Event} {p : Port} {w : Word}
    (h : s.inbox = commandEvent s.cfg p w :: rest) : step s = issueCommand p w { s with inbox := rest } := by
  rw [step, h]
  exact portWrite_portAddr p w { s with inbox := rest }

theorem issueCommand_of_decode {w : Word} {i : Instr} (h : decodeWord w = .ok i) (p : Port) (s : State) :
    issueCommand p w s = exec i { s with issuer := p } := by
  simp only [issueCommand, h]

/-- The port the model's host picks for a word may issue its operation (R120). -/
theorem usualPort_mem_legalPorts {w : Word} {i : Instr} (h : decodeWord w = .ok i) : usualPort w ∈ legalPorts i := by
  have host : ∀ {u : BitVec 8} {p : Port}, .host ∈ if u = 0#8 then [Port.host, .lane0] else [Port.host, p] := by
    intro u p
    split <;> exact List.mem_cons_self
  unfold usualPort
  rw [h]
  cases i with
  | lqCurrent u => exact host
  | lqWrite u => exact host
  | lqCommit u => exact host
  | fetch u => by_cases hu : u = 0#8 <;> simp [legalPorts, hu]
  | _ => exact List.mem_cons_self

/-- Settles O4: a command word at the head of the inbox is decoded and executed. -/
theorem stepRunsCommand : Obligations.StepRunsCommand := by
  refine ⟨fun s rest p w i h hi => ?_, fun s nbits w i hi => ?_⟩
  · rw [step_of_command h, issueCommand_of_decode hi]
  · have hd : decodeWord (tableWord nbits w) = .ok i := by
      unfold decodeTableWord at hi
      cases hw : decodeWord (tableWord nbits w) with
      | error e => simp [hw, Except.toOption] at hi
      | ok j => simpa [hw, Except.toOption] using hi
    refine ⟨usualPort (tableWord nbits w), usualPort_mem_legalPorts hd, ?_⟩
    rw [step_of_command (s := s.withFetchWord nbits w) rfl, issueCommand_of_decode hd]
    rfl

/-! ### Reset -/

/-- Every register reads 0 after reset (R54). -/
theorem registerRead_resetWith (c : Config) (m : Cells) (off : Nat) :
    registerRead (State.resetWith c m) off = 0#32 := by
  have hops : operandList (State.resetWith c m).operands = List.replicate 19 0#32 := rfl
  have hctl : controlList (State.resetWith c m) = List.replicate 23 0#32 := rfl
  have hzero : ∀ n k : Nat, (List.replicate n (0#32)).getD k 0#32 = 0#32 := fun n k => by
    by_cases hk : k < n <;> simp [hk]
  unfold registerRead
  rw [hops, hctl, hzero, hzero, ite_self]

theorem slotRead_reset (c : Config) (i : Nat) : slotRead (Queue.reset c) i = none := by
  unfold slotRead Queue.reset
  by_cases h : i < c.qcap <;> simp [h]

theorem atReset_resetWith (c : Config) (m : Cells) : AtReset (State.resetWith c m) := by
  refine ⟨fun off _ => registerRead_resetWith c m off, rfl, rfl, rfl, fun _ => rfl, fun q i => ?_, fun r => ?_,
    fun q => ?_, rfl⟩
  · cases q <;> exact slotRead_reset c i
  · by_cases h : r < c.height <;> simp [State.resetWith, h]
  · cases q <;> exact ⟨rfl, rfl⟩

/-- Settles O6: the reset input gives the reset state of the parameters and the memory there. -/
theorem resetValues : Obligations.ResetValues := by
  refine ⟨fun s rest h => ⟨resetInput { s with inbox := rest }, ?_, atReset_resetWith s.cfg s.mem, rfl, rfl⟩,
    atReset_resetWith Config.default []⟩
  rw [step, h]
  rfl

/-! ### Lookups that need a `LUT` byte -/

theorem allSome_eq_none {α : Type} {os : List (Option α)} (h : none ∈ os) : allSome os = none := by
  cases hs : allSome os with
  | none => rfl
  | some xs =>
    rw [allSome_eq_some.mp hs] at h
    simp at h

/-- A row has no value where one of its bytes has none. -/
theorem lookRow_eq_none {w q : Nat} {byte : Nat → Option Byte} (hq : q < ceilDiv w 4) (h : byte q = none) :
    lookRow w byte = none := by
  rw [lookRow, allSome_eq_none (List.mem_map.mpr ⟨q, List.mem_range.mpr hq, h⟩), Option.map_none]

theorem orEntries_eq_none {es : List (Option Byte)} (h : none ∈ es) : orEntries es = none := by
  rw [orEntries, allSome_eq_none h, Option.map_none]

/-- The bytes of the input line, 0 beyond it (R161, R162). -/
theorem inByte_lineIn (s : State) (p : Packing) (i : Nat) : inByte (lineIn s p) i = lineByte s p i := by
  unfold inByte lineByte lineIn
  split
  · rename_i h
    rw [memReadRun_getD _ _ _ _ h]
  · rename_i h
    rw [List.getD_eq_default _ _ (by rw [memReadRun_length]; omega)]
    rfl

/-- A lookup that finds no row faults (R40, R264). -/
theorem pixelLookup_fault {s : State} {p : Packing} {look : Cells → List Byte → Nat → Option Row} (h : hostIdle s)
    (hb : twoBufferRefusal s [lineInSpan s p] [lineOutSpan s] = none)
    (hl : look s.lut (lineIn s p) s.operands.width.toNat = none) :
    allowed [.host] .idle s (pixelLookup p look s) = .fault .lutUnwritten := by
  rw [allowed_host h.1 h.2, pixelLookup, hb, unlessRefused_none, hl, need_none]

/-- Settles O31: one byte without a value leaves the row without one. -/
theorem unwrittenLutFaults : Obligations.UnwrittenLutFaults := by
  intro s q h hq
  refine ⟨fun hb p hp hw hn => pixelLookup_fault h hb (lookRow_eq_none hq (orEntries_eq_none ?_)),
    fun hb => ⟨fun hn => pixelLookup_fault h hb (lookRow_eq_none hq ?_),
      fun i hi hw hn => pixelLookup_fault h hb (lookRow_eq_none hq (orEntries_eq_none ?_))⟩,
    fun hb hn => pixelLookup_fault h hb (lookRow_eq_none hq ?_)⟩
  · refine List.mem_map.mpr ⟨p, ?_, by rw [inByte_lineIn, hn]⟩
    simp [hp, hw]
  · rw [inByte_lineIn, inByte_lineIn, Nat.mul_comm 256, hn]
  · refine List.mem_map.mpr ⟨i, ?_, by rw [inByte_lineIn, hn]⟩
    have hi : i = 2 * q ∨ i = 2 * q + 1 := by omega
    simp [hi, hw]
  · rw [inByte_lineIn, ← apply_ite (lutRead s.lut), hn]

end Sys2Proof.Machine
end

section
/-! SUPPORT. Pixels of an FB4 image (R70 to R72), the `SYNC` agent and the full and empty tests (R96, R200), and the
bus-order pass (R79). -/

namespace Sys2Proof.Machine

/-! ### Pixels -/

/-- The byte `PixWrite` stores: the pixel's nibble replaced, its neighbour's kept (R72). -/
def withNibble (old : Byte) (x : Nat) (v : Nibble) : Byte := if x % 2 = 0 then v ++ lo4 old else hi4 old ++ v

theorem nibbleOf_withNibble_same (old : Byte) (x : Nat) (v : Nibble) : nibbleOf (withNibble old x v) x = v := by
  unfold nibbleOf withNibble
  split
  · exact hi4_append v _
  · exact lo4_append _ v

theorem nibbleOf_withNibble_other (old : Byte) {x x' : Nat} (h : x' % 2 ≠ x % 2) (v : Nibble) :
    nibbleOf (withNibble old x v) x' = nibbleOf old x' := by
  unfold nibbleOf withNibble
  by_cases hx : x % 2 = 0
  · rw [if_pos hx, if_neg (by omega), if_neg (by omega), lo4_append]
  · rw [if_neg hx, if_pos (by omega), if_pos (by omega), hi4_append]

/-- `PixWrite` writes the byte of its pixel and no other. -/
theorem memRead_pixWrite (m : Cells) (b s x y : Nat) (v : Nibble) (a : Nat) :
    memRead (pixWrite m b s x y v) a =
      if a = b + y * s + x / 2 then withNibble (memRead m (b + y * s + x / 2)) x v else memRead m a :=
  memRead_memWrite m _ _ a

/-- A byte of an image with stride `s` lies in one row, at one place (R70). -/
theorem row_offset_inj {s y y' q q' : Nat} (hq : q < s) (hq' : q' < s) (h : y' * s + q' = y * s + q) :
    y' = y ∧ q' = q := by
  have hrow : y' = y := by
    have h := congrArg (· / s) h
    simpa [Nat.add_comm _ q, Nat.add_comm _ q', Nat.add_mul_div_right _ _ (Nat.zero_lt_of_lt hq),
      Nat.div_eq_of_lt hq, Nat.div_eq_of_lt hq'] using h
  subst hrow
  exact ⟨rfl, Nat.add_left_cancel h⟩

/-- Settles O14: two pixels in one byte are its two nibbles, and pixels elsewhere are in other bytes. -/
theorem pixelRoundTrip : Obligations.PixelRoundTrip := by
  intro m b stride x y v hx
  unfold pixRead
  refine ⟨by rw [memRead_pixWrite, if_pos rfl, nibbleOf_withNibble_same], fun x' y' hx' hne => ?_⟩
  rw [memRead_pixWrite]
  split
  · rename_i ha
    obtain ⟨rfl, hq⟩ := row_offset_inj (q := x / 2) (q' := x' / 2) (s := stride) (y := y) (y' := y')
      (by omega) (by omega) (by omega)
    have hcol : x' ≠ x := fun h => hne (by rw [h])
    rw [nibbleOf_withNibble_other _ (by omega), ha]
  · rfl

/-! ### `SYNC` and the full and empty tests -/

theorem queueFull_eq_true {c : Config} {x : Queue} : queueFull c x = true ↔ (x.cur + 1) % c.qcap = lastSeen c x := by
  simp [queueFull]

theorem queueEmpty_eq_true {c : Config} {x : Queue} : queueEmpty c x = true ↔ curSeen c x = x.last := by
  simp [queueEmpty]

/-- The producer never sees more room than there is: a queue not reported full has a free slot (R200, R211). -/
theorem queueCount_lt_of_not_full {c : Config} {x : Queue} (h : QueueOk c x) (hf : queueFull c x = false) :
    queueCount c x < c.qcap - 1 := by
  obtain ⟨hcur, hlast, -, -⟩ := h.1
  have hnext : ahead c x.last (nextIndex c x.cur) = queueCount c x + 1 :=
    ahead_nextIndex hlast hcur (nextIndex_cur_ne h hf).1
  have := ahead_lt hlast (nextIndex c x.cur)
  omega

/-- The consumer never sees more rows than there are: a queue not reported empty holds one (R200). -/
theorem queueCount_pos_of_not_empty {c : Config} {x : Queue} (h : QueueOk c x) (he : queueEmpty c x = false) :
    0 < queueCount c x := by
  obtain ⟨hcur, hlast, -, -⟩ := h.1
  have hrest : ahead c (nextIndex c x.last) x.cur + 1 = queueCount c x :=
    ahead_of_nextIndex hlast hcur (last_ne_of_not_empty h he).1
  omega

/-- Settles O15: `LastSeen` and `CurSeen` are the views with `CDC_LAG`, and the indices without it. -/
theorem syncSteps : Obligations.SyncSteps := by
  refine ⟨fun s q => ⟨fun hlag => ⟨?_, ?_, ?_, ?_⟩, fun hlag => ⟨?_, ?_⟩⟩,
    fun c x _ h => ⟨queueCount_lt_of_not_full h, queueCount_pos_of_not_empty h⟩⟩
  · rw [handle, syncCurStep, if_pos hlag]
  · rw [handle, syncLastStep, if_pos hlag]
  · rw [queueFull_eq_true, lastSeen, if_pos hlag]
  · rw [queueEmpty_eq_true, curSeen, if_pos hlag]
  · rw [queueFull_eq_true, lastSeen, hlag, if_neg Bool.false_ne_true]
  · rw [queueEmpty_eq_true, curSeen, hlag, if_neg Bool.false_ne_true]

/-! ### The bus-order pass -/

@[simp] theorem reorder_length (c : Config) (row : Row) : (reorder c row).length = c.lineBytes := by
  simp [reorder]

theorem reorder_getD (c : Config) (row : Row) {n : Nat} (h : n < c.lineBytes) :
    (reorder c row).getD n 0#8 =
      row.getD (n / c.busGroup * c.busGroup + c.busPerm.getD (n % c.busGroup) 0) 0#8 := by
  simp [reorder, h]

/-- Settles O51: byte `g * BUS_GROUP + i` is byte `i` of group `g`. -/
theorem busOrderPermutesGroups : Obligations.BusOrderPermutesGroups := by
  intro c row g i _ _ hg hi
  have hn : g * c.busGroup + i < c.lineBytes :=
    calc g * c.busGroup + i < (g + 1) * c.busGroup := by rw [Nat.succ_mul]; omega
      _ ≤ c.lineBytes / c.busGroup * c.busGroup := Nat.mul_le_mul_right _ hg
      _ ≤ c.lineBytes := Nat.div_mul_le_self _ _
  have hdiv : (g * c.busGroup + i) / c.busGroup = g := by
    rw [Nat.add_comm, Nat.add_mul_div_right _ _ (by omega), Nat.div_eq_of_lt hi, Nat.zero_add]
  have hmod : (g * c.busGroup + i) % c.busGroup = i := by
    rw [Nat.add_comm, Nat.add_mul_mod_self_right, Nat.mod_eq_of_lt hi]
  exact ⟨reorder_length c row, by rw [reorder_getD c row hn, hdiv, hmod]⟩

end Sys2Proof.Machine
end

section
/-! SUPPORT. What refuses an operation: a second producer or consumer of a queue (R307), and buffers that overlap,
leave the address space or are not populated (R87, R88). -/

namespace Sys2Proof.Machine

@[simp] theorem unlessRefused_some (e : Refusal) (k : Out) : unlessRefused (some e) k = .refused e := rfl

/-! ### A second producer or consumer -/

theorem asProducer_other {q : Lane} {s : State} {p : Port} (h : (getQueue q s).producer = some p) (hp : p ≠ s.issuer)
    (k : State → Out) : asProducer q s k = .refused .twoProducers := by
  simp [asProducer, h, beq_false_of_ne hp]

theorem asConsumer_other {q : Lane} {s : State} {p : Port} (h : (getQueue q s).consumer = some p) (hp : p ≠ s.issuer)
    (k : State → Out) : asConsumer q s k = .refused .twoConsumers := by
  simp [asConsumer, h, beq_false_of_ne hp]

theorem mem_producerPorts {q : Lane} {p : Port} : p ∈ producerPorts q ↔ p = .host ∨ p = lanePort q := by
  simp [producerPorts]

/-- A feeder that may not consume on one of the queues is refused, whichever it is (log 15). -/
theorem asConsumer_both_other {q : Lane} {s : State} {p : Port} (h : (getQueue q s).consumer = some p)
    (hp : p ≠ s.issuer) (k : State → Out) :
    asConsumer .zero s (fun t => asConsumer .one t k) = .refused .twoConsumers := by
  cases q with
  | zero => exact asConsumer_other h hp _
  | one =>
    by_cases hz : mayConsume .zero s
    · have hone : getQueue .one (withConsumer .zero s) = getQueue .one s := getQueue_setQueue_other (by decide) _ _
      have hiss : (withConsumer .zero s).issuer = s.issuer := setQueue_issuer _ _ _
      rw [asConsumer_of hz, asConsumer_other (hone ▸ h) (hiss ▸ hp)]
    · obtain ⟨hnone, hself⟩ := not_or.mp hz
      obtain ⟨o, ho⟩ := Option.ne_none_iff_exists'.mp hnone
      exact asConsumer_other ho (fun hoi => hself (by rw [ho, hoi])) _

/-- Settles O43: the claim on the queue comes before anything else of a legal operation. -/
theorem oneProducerOneConsumer : Obligations.OneProducerOneConsumer := by
  intro s q p hh hp
  refine ⟨fun h => ⟨fun hq hi => ?_, fun hq hi => ?_⟩, fun h hq hi => ?_, fun h hq hi hc => ?_⟩
  · have hi := mem_producerPorts.mpr hi
    constructor
    · rw [exec, execLqWrite, withUnit_laneUnit, allowed_of hi hh hq, asProducer_other h hp]
    · rw [exec, execLqCommit, withUnit_laneUnit, allowed_of hi hh hq, asProducer_other h hp]
  · rw [exec, execFetch, withUnit_laneUnit, allowed_of (by simp [hi]) hh hq, asProducer_other h hp]
  · rw [exec, execLqRead, withUnit_laneUnit, allowed_of (by simpa using hi) hh hq, asConsumer_other h hp]
  · rw [exec, execFeed, allowed_of (by simp [hi]) hh hq, if_neg (Nat.not_le.mpr hc), asConsumer_both_other h hp]

/-! ### The check of a list of buffers -/

/-- A run lies in the address space where each of its bytes does (R88). -/
theorem spanInRange_eq_true {p : Span} : spanInRange p = true ↔ ∀ a, spanHas p a = true → a < 2 ^ 32 := by
  simp only [spanInRange, spanHas_eq_true, Bool.or_eq_true, decide_eq_true_eq]
  constructor
  · intro h a ha
    omega
  · intro h
    have hlast := h (p.base + p.len - 1)
    omega

/-- A condition on each byte of a run, checked run by run, is one on each byte of a list of buffers. -/
theorem all_eq_true_iff_bytes {f : Span → Bool} {P : Nat → Prop}
    (h : ∀ p, f p = true ↔ ∀ a, spanHas p a = true → P a) {ps : List Span} :
    ps.all f = true ↔ ∀ a, spansHold ps a → P a := by
  simp only [List.all_eq_true, h]
  exact ⟨fun h a ⟨p, hp, ha⟩ => h p hp a ha, fun h p hp a ha => h a ⟨p, hp, ha⟩⟩

theorem all_spanInRange_eq_true {ps : List Span} : ps.all spanInRange = true ↔ ∀ a, spansHold ps a → a < 2 ^ 32 :=
  all_eq_true_iff_bytes fun _ => spanInRange_eq_true

theorem all_spanPopulated_eq_true {c : Config} {ps : List Span} :
    ps.all (spanPopulated c) = true ↔ ∀ a, spansHold ps a → populatedAt c a :=
  all_eq_true_iff_bytes fun _ => spanPopulated_eq_true

theorem bufferRefusal_outOfRange {s : State} {reads writes : List Span}
    (h : ∃ a, spansHold (reads ++ writes) a ∧ 2 ^ 32 ≤ a) :
    bufferRefusal s reads writes = some .bufferOutOfRange := by
  obtain ⟨a, ha, hbig⟩ := h
  rw [bufferRefusal, if_neg fun hr => Nat.not_lt.mpr hbig (all_spanInRange_eq_true.mp hr a ha)]

theorem bufferRefusal_unpopulated {s : State} {reads writes : List Span}
    (hr : ∀ a, spansHold (reads ++ writes) a → a < 2 ^ 32)
    (h : ∃ a, spansHold (reads ++ writes) a ∧ ¬ populatedAt s.cfg a) :
    bufferRefusal s reads writes = some .unpopulated := by
  obtain ⟨a, ha, hno⟩ := h
  rw [bufferRefusal, if_pos (all_spanInRange_eq_true.mpr hr),
    if_neg fun hp => hno (all_spanPopulated_eq_true.mp hp a ha)]

theorem bufferRefusal_of_populated {s : State} {reads writes : List Span}
    (hr : ∀ a, spansHold (reads ++ writes) a → a < 2 ^ 32)
    (hp : ∀ a, spansHold (reads ++ writes) a → populatedAt s.cfg a) : bufferRefusal s reads writes = none := by
  rw [bufferRefusal, if_pos (all_spanInRange_eq_true.mpr hr), if_pos (all_spanPopulated_eq_true.mpr hp)]

/-- The check depends on the parameters alone. -/
theorem bufferRefusal_of_cfg {s t : State} (h : t.cfg = s.cfg) (reads writes : List Span) :
    bufferRefusal t reads writes = bufferRefusal s reads writes := by
  unfold bufferRefusal
  rw [h]

/-- A byte that R87 forbids: one in an output and an input buffer, or a buffer's among the waveform bytes (log 13). -/
def overlapAt (s : State) (reads writes : List Span) (a : Nat) : Prop :=
  (spansHold writes a ∧ spansHold reads a) ∨ (spansHold (reads ++ writes) a ∧
    s.operands.wfBase.toNat ≤ a ∧ a < s.operands.wfBase.toNat + 64 * s.phaseCount.toNat)

theorem any_spansOverlap_eq_true {ps : List Span} {q : Span} :
    ps.any (spansOverlap q) = true ↔ ∃ a, spansHold ps a ∧ spanHas q a = true := by
  simp only [List.any_eq_true, spansOverlap_eq_true]
  exact ⟨fun ⟨p, hp, a, hq, ha⟩ => ⟨a, ⟨p, hp, ha⟩, hq⟩, fun ⟨a, ⟨p, hp, ha⟩, hq⟩ => ⟨p, hp, a, hq, ha⟩⟩

theorem overlapTest_eq_true {s : State} {reads writes : List Span} :
    (writes.any (fun w => reads.any (spansOverlap w)) || (reads ++ writes).any (spansOverlap (waveformSpan s))) = true ↔
      ∃ a, overlapAt s reads writes a := by
  have hbuf : writes.any (fun w => reads.any (spansOverlap w)) = true ↔ ∃ a, spansHold writes a ∧ spansHold reads a := by
    simp only [List.any_eq_true (l := writes), any_spansOverlap_eq_true]
    exact ⟨fun ⟨w, hw, a, hr, ha⟩ => ⟨a, ⟨w, hw, ha⟩, hr⟩, fun ⟨a, ⟨w, hw, ha⟩, hr⟩ => ⟨w, hw, a, hr, ha⟩⟩
  rw [Bool.or_eq_true, hbuf, any_spansOverlap_eq_true, ← exists_or]
  simp only [spanHas_eq_true (p := waveformSpan s)]
  rfl

theorem twoBufferRefusal_overlap {s : State} {reads writes : List Span} (h : ∃ a, overlapAt s reads writes a) :
    twoBufferRefusal s reads writes = some .bufferOverlap :=
  if_pos (overlapTest_eq_true.mpr h)

theorem twoBufferRefusal_of_no_overlap {s : State} {reads writes : List Span} (h : ¬ ∃ a, overlapAt s reads writes a) :
    twoBufferRefusal s reads writes = bufferRefusal s reads writes :=
  if_neg fun ht => h (overlapTest_eq_true.mp ht)

/-! ### Operations whose buffers are refused -/

theorem exec_lbOp (l : Layout) (s : State) : exec (lbOp l) s = lutBuild l s := by
  cases l <;> rfl

theorem exec_plOp (l : Layout) (s : State) :
    exec (plOp l) s = allowed [.host] .idle s (pixelLookup (layoutPacking l) (lookLayout l) s) := by
  cases l <;> rfl

/-- A waveform build in a phase of the waveform is refused for its 64 bytes (R88, R140). -/
theorem buildRefusal_of_waveform {s : State} {l : Layout} (hl : layoutUsesWaveform l = true)
    (hp : s.phase.toNat < s.phaseCount.toNat) : buildRefusal s l = bufferRefusal s [phaseSpan s] [] := by
  rw [buildRefusal, if_pos hl, if_pos hp]

theorem buildLayout_refused {s : State} {l : Layout} {e : Refusal} (hl : layoutUsesWaveform l = true)
    (hp : s.phase.toNat < s.phaseCount.toNat) (hb : bufferRefusal s [phaseSpan s] [] = some e) (k : State → Out) :
    buildLayout l s k = .refused e := by
  rw [buildLayout, buildRefusal_of_waveform hl hp, hb, unlessRefused_some]

theorem exec_lbOp_refused {s : State} {l : Layout} {e : Refusal} (h : hostIdle s) (hl : layoutUsesWaveform l = true)
    (hp : s.phase.toNat < s.phaseCount.toNat) (hb : bufferRefusal s [phaseSpan s] [] = some e) :
    exec (lbOp l) s = .refused e := by
  rw [exec_lbOp, lutBuild, allowed_host h.1 h.2, buildLayout_refused hl hp hb]

theorem exec_plOp_refused {s : State} {l : Layout} {e : Refusal} (h : hostIdle s)
    (hb : twoBufferRefusal s [lineInSpan s (layoutPacking l)] [lineOutSpan s] = some e) :
    exec (plOp l) s = .refused e := by
  rw [exec_plOp, allowed_host h.1 h.2, pixelLookup, hb, unlessRefused_some]

theorem exec_diff_refused {s : State} {e : Refusal} (h : hostIdle s) (hc : cropValid s = true)
    (hb : twoBufferRefusal s (diffReads s) (diffWrites s) = some e) : exec .diff s = .refused e := by
  rw [exec, execDiff, allowed_host h.1 h.2, if_pos hc, hb, unlessRefused_some]

/-- The claim on a queue (R307) touches neither its indices nor, below, an operation's buffers. -/
theorem queueFull_withProducer (q : Lane) (s : State) :
    queueFull (withProducer q s).cfg (getQueue q (withProducer q s)) = queueFull s.cfg (getQueue q s) := by
  cases q <;> rfl

theorem queueEmpty_withConsumer (q : Lane) (s : State) :
    queueEmpty (withConsumer q s).cfg (getQueue q (withConsumer q s)) = queueEmpty s.cfg (getQueue q s) := by
  cases q <;> rfl

theorem queueInSpan_withProducer (q : Lane) (s : State) : queueInSpan (withProducer q s) = queueInSpan s := by
  cases q <;> rfl

theorem queueOutSpan_withConsumer (q : Lane) (s : State) : queueOutSpan (withConsumer q s) = queueOutSpan s := by
  cases q <;> rfl

theorem exec_lqWrite_refused {s : State} {q : Lane} {e : Refusal} (hq : s.seq = .idle) (hh : issuerHeld s = false)
    (hi : s.issuer = .host ∨ s.issuer = lanePort q) (hm : mayProduce q s)
    (hf : queueFull s.cfg (getQueue q s) = false) (hb : bufferRefusal s [queueInSpan s] [] = some e) :
    exec (.lqWrite (laneUnit q)) s = .refused e := by
  have hcfg : (withProducer q s).cfg = s.cfg := setQueue_cfg _ _ _
  rw [exec, execLqWrite, withUnit_laneUnit, allowed_of (mem_producerPorts.mpr hi) hh hq, asProducer_of hm,
    queueFull_withProducer, hf, if_neg Bool.false_ne_true, queueInSpan_withProducer, bufferRefusal_of_cfg hcfg, hb,
    unlessRefused_some]

theorem exec_lqRead_refused {s : State} {q : Lane} {e : Refusal} (hq : s.seq = .idle) (hh : issuerHeld s = false)
    (hi : s.issuer = .host ∨ s.issuer = .feeder) (hm : mayConsume q s)
    (he : queueEmpty s.cfg (getQueue q s) = false) (hb : bufferRefusal s [] [queueOutSpan s] = some e) :
    exec (.lqRead (laneUnit q)) s = .refused e := by
  have hcfg : (withConsumer q s).cfg = s.cfg := setQueue_cfg _ _ _
  rw [exec, execLqRead, withUnit_laneUnit, allowed_of (by simpa using hi) hh hq, asConsumer_of hm,
    queueEmpty_withConsumer, he, if_neg Bool.false_ne_true, queueOutSpan_withConsumer, bufferRefusal_of_cfg hcfg, hb,
    unlessRefused_some]

theorem exec_prep_refused {s : State} {l : Layout} {e : Refusal} (hsel : selectLayout s.mode s.ctrl = .ok l)
    (hi : s.issuer = .host) (hq : s.seq = .preparing) (hl : layoutUsesWaveform l = true)
    (hp : s.phase.toNat < s.phaseCount.toNat) (hb : bufferRefusal s [phaseSpan s] [] = some e) :
    exec .prep s = .refused e := by
  rw [exec, execPrep, allowed_host hi hq, hsel]
  exact buildLayout_refused hl hp hb _

/-- Rendering an active row is refused for the bytes of its covered columns (R229). -/
theorem renderRow_refused {s : State} {r : Nat} {l : Layout} {e : Refusal} (ha : rowActive s r = true)
    (hsel : selectLayout s.mode s.ctrl = .ok l)
    (hb : bufferRefusal s (rowSpans s (layoutPacking l) r) [] = some e) (k : Row → Out) :
    renderRow s r k = .refused e := by
  rw [renderRow, if_pos ha, hsel]
  simp only [hb, unlessRefused_some]

/-- A scheduled lane with a slot for its active row is refused for the row's bytes (R226). -/
theorem scheduleLane_refused {s : State} {q : Lane} {l : Layout} {e : Refusal} (hbusy : (getLane q s).busy = true)
    (hf : s.fdone = false) (hfull : queueFull s.cfg (getQueue q s) = false)
    (ha : rowActive s (getLane q s).row = true) (hsel : selectLayout s.mode s.ctrl = .ok l)
    (hb : bufferRefusal s (rowSpans s (layoutPacking l) (getLane q s).row) [] = some e) :
    scheduleLane q s = .refused e := by
  have hen : produceEnabled q s = true := by simp [produceEnabled, hbusy, hfull]
  rw [scheduleLane, if_pos hen, produceStep, hf, if_neg Bool.false_ne_true, renderRow_refused ha hsel hb]

/-- The scheduled lane at the head of the inbox acts; nothing it reads depends on the rest of the inbox. -/
theorem step_produce_refused {s : State} {q : Lane} {rest : List Event} {l : Layout} {e : Refusal}
    (hin : s.inbox = .produce q :: rest) (hbusy : (getLane q s).busy = true) (hf : s.fdone = false)
    (hfull : queueFull s.cfg (getQueue q s) = false) (ha : rowActive s (getLane q s).row = true)
    (hsel : selectLayout s.mode s.ctrl = .ok l)
    (hb : bufferRefusal s (rowSpans s (layoutPacking l) (getLane q s).row) [] = some e) : step s = .refused e := by
  rw [step, hin]
  refine scheduleLane_refused (l := l) ?_ hf ?_ ?_ hsel ?_
  · rwa [getLane_with_inbox]
  · rwa [getQueue_with_inbox]
  · rwa [getLane_with_inbox]
  · rw [getLane_with_inbox]
    exact hb

/-- Settles O16: each operation asks the check for its buffers before it touches them. -/
theorem badBuffersRefused : Obligations.BadBuffersRefused :=
  ⟨fun _ _ _ => ⟨bufferRefusal_outOfRange,
      fun hr => ⟨bufferRefusal_unpopulated hr, bufferRefusal_of_populated hr⟩,
      twoBufferRefusal_overlap, twoBufferRefusal_of_no_overlap⟩,
    fun _ _ h => ⟨fun _ => exec_lbOp_refused h, fun _ => exec_plOp_refused h, exec_diff_refused h⟩,
    fun _ _ _ hq hh => ⟨exec_lqWrite_refused hq hh, exec_lqRead_refused hq hh⟩,
    fun _ _ _ hsel => ⟨exec_prep_refused hsel, fun _ _ hin hbusy hf hfull ha hb =>
      step_produce_refused hin hbusy hf hfull ha hsel hb⟩⟩

end Sys2Proof.Machine
end

section
/-! SUPPORT. The command word (30_encoding.md R110 to R112, R119): the opcode map as a table of formats, and
that decoding and encoding agree. -/

namespace Sys2Proof

/-! ### Fields of a command word (R110) -/

@[simp] theorem opcField_commandWord (c u : BitVec 8) (a : BitVec 16) : opcField (commandWord c u a) = c :=
  (BitVec.extractLsb'_append_eq_of_le (by decide)).trans BitVec.extractLsb'_append_eq_left

@[simp] theorem unitField_commandWord (c u : BitVec 8) (a : BitVec 16) : unitField (commandWord c u a) = u :=
  (BitVec.extractLsb'_append_eq_of_le (by decide)).trans BitVec.extractLsb'_append_eq_right

@[simp] theorem argField_commandWord (c u : BitVec 8) (a : BitVec 16) : argField (commandWord c u a) = a :=
  BitVec.extractLsb'_append_eq_right

/-- A command word is its three fields: no bit is dropped. -/
theorem commandWord_fields (w : Word) : commandWord (opcField w) (unitField w) (argField w) = w := by
  rw [commandWord, opcField, unitField, BitVec.extractLsb'_append_extractLsb'_eq_extractLsb' (by decide), argField,
    BitVec.extractLsb'_append_extractLsb'_eq_extractLsb' (by decide)]
  exact BitVec.extractLsb'_eq_self

theorem commandWord_eq_iff {c u : BitVec 8} {a : BitVec 16} {w : Word} :
    commandWord c u a = w ↔ opcField w = c ∧ unitField w = u ∧ argField w = a := by
  constructor
  · rintro rfl
    simp
  · rintro ⟨rfl, rfl, rfl⟩
    exact commandWord_fields w

/-- The unused bits of `ARG` above an `n`-bit operand are zero where `ARG` is below `2^n` (R111). -/
theorem shiftRight_eq_zero_iff (a : BitVec 16) (n : Nat) : a >>> n = 0#16 ↔ a.toNat < 2 ^ n := by
  rw [BitVec.toNat_eq, BitVec.toNat_ushiftRight, Nat.shiftRight_eq_div_pow, BitVec.toNat_ofNat, Nat.zero_mod,
    Nat.div_eq_zero_iff_lt (Nat.two_pow_pos n)]

/-! ### The formats (R111) -/

theorem formatN_eq_ok {w : Word} {i j : Instr} :
    formatN w i = .ok j ↔ i = j ∧ unitField w = 0#8 ∧ argField w = 0#16 := by
  unfold formatN
  split_ifs <;> simp [*]

theorem formatU_eq_ok {w : Word} {mk : BitVec 8 → Instr} {j : Instr} :
    formatU w mk = .ok j ↔ mk (unitField w) = j ∧ unitOk (unitField w) ∧ argField w = 0#16 := by
  unfold formatU
  split_ifs <;> simp [*]

theorem formatA_eq_ok {w : Word} {n : Nat} {mk : BitVec n → Instr} {j : Instr} :
    formatA w n mk = .ok j ↔
      mk ((argField w).setWidth n) = j ∧ unitField w = 0#8 ∧ (argField w).toNat < 2 ^ n := by
  simp only [formatA, shiftRight_eq_zero_iff]
  split_ifs <;> simp [*]

/-- The format of a row of the opcode map, N, U or A, with the operation it makes of the operand. -/
inductive WordFormat where
  | none (i : Instr)
  | unit (mk : BitVec 8 → Instr)
  | arg (n : Nat) (mk : BitVec n → Instr)

/-- A word of the row's opcode, read in the row's format. -/
def WordFormat.read (w : Word) : WordFormat → Except Reserved Instr
  | .none i => formatN w i
  | .unit mk => formatU w mk
  | .arg n mk => formatA w n mk

/-- Format N. -/
def WordFormat.isNone : WordFormat → Bool
  | .none _ => true
  | _ => false

/-- Format U. -/
def WordFormat.isUnit : WordFormat → Bool
  | .unit _ => true
  | _ => false

/-- The operations of a row: its operand takes every value R111 admits. -/
def WordFormat.Has (i : Instr) : WordFormat → Prop
  | .none j => i = j
  | .unit mk => ∃ u, unitOk u ∧ i = mk u
  | .arg _ mk => ∃ x, i = mk x

/-- The row's operations are well formed, and `encode` puts the row's opcode `c` and the operand in the word. -/
def WordFormat.Encodes (c : BitVec 8) : WordFormat → Prop
  | .none i => i.WellFormed ∧ encode i = commandWord c 0#8 0#16
  | .unit mk => ∀ u, (unitOk u → (mk u).WellFormed) ∧ encode (mk u) = commandWord c u 0#16
  | .arg n mk => n ≤ 16 ∧ ∀ x, (mk x).WellFormed ∧ encode (mk x) = commandWord c 0#8 (x.setWidth 16)

/-- Reading a word of the row answers the row's operation that the word is the encoding of. -/
theorem WordFormat.Encodes.read_eq_ok {c : BitVec 8} {f : WordFormat} (h : f.Encodes c) {w : Word}
    (hc : opcField w = c) {i : Instr} : f.read w = .ok i ↔ f.Has i ∧ encode i = w := by
  cases f with
  | none j =>
    have hj : encode j = w ↔ unitField w = 0#8 ∧ argField w = 0#16 := by
      rw [h.2, commandWord_eq_iff, and_iff_right hc]
    rw [WordFormat.read, formatN_eq_ok, WordFormat.Has, ← hj]
    exact ⟨fun ⟨e, he⟩ => ⟨e.symm, e ▸ he⟩, fun ⟨e, he⟩ => ⟨e.symm, e ▸ he⟩⟩
  | unit mk =>
    have hu (u : BitVec 8) : encode (mk u) = w ↔ unitField w = u ∧ argField w = 0#16 := by
      rw [(h u).2, commandWord_eq_iff, and_iff_right hc]
    rw [WordFormat.read, formatU_eq_ok, WordFormat.Has]
    constructor
    · rintro ⟨rfl, hok, ha⟩
      exact ⟨⟨_, hok, rfl⟩, (hu _).mpr ⟨rfl, ha⟩⟩
    · rintro ⟨⟨u, hok, rfl⟩, he⟩
      obtain ⟨rfl, ha⟩ := (hu u).mp he
      exact ⟨rfl, hok, ha⟩
  | arg n mk =>
    obtain ⟨hn, hx⟩ := h
    have hx (x : BitVec n) : encode (mk x) = w ↔ unitField w = 0#8 ∧ argField w = x.setWidth 16 := by
      rw [(hx x).2, commandWord_eq_iff, and_iff_right hc]
    rw [WordFormat.read, formatA_eq_ok, WordFormat.Has]
    constructor
    · rintro ⟨rfl, hu, hlt⟩
      refine ⟨⟨_, rfl⟩, (hx _).mpr ⟨hu, BitVec.eq_of_toNat_eq ?_⟩⟩
      rw [BitVec.toNat_setWidth, BitVec.toNat_setWidth, Nat.mod_eq_of_lt hlt, Nat.mod_eq_of_lt (argField w).isLt]
    · rintro ⟨⟨x, rfl⟩, he⟩
      obtain ⟨hu, ha⟩ := (hx x).mp he
      rw [ha]
      exact ⟨by rw [BitVec.setWidth_setWidth_of_le _ hn, BitVec.setWidth_eq], hu, by
        rw [BitVec.toNat_setWidth_of_le hn]; exact x.isLt⟩

/-- A row's operation is well formed, and its word carries the row's opcode. -/
theorem WordFormat.Encodes.of_has {c : BitVec 8} {f : WordFormat} (h : f.Encodes c) {i : Instr} (hi : f.Has i) :
    i.WellFormed ∧ opcField (encode i) = c := by
  cases f with
  | none j =>
    obtain rfl : i = j := hi
    obtain ⟨hwf, he⟩ := h
    exact ⟨hwf, by rw [he, opcField_commandWord]⟩
  | unit mk =>
    obtain ⟨u, hu, rfl⟩ := hi
    obtain ⟨hwf, he⟩ := h u
    exact ⟨hwf hu, by rw [he, opcField_commandWord]⟩
  | arg n mk =>
    obtain ⟨x, rfl⟩ := hi
    obtain ⟨hwf, he⟩ := h.2 x
    exact ⟨hwf, by rw [he, opcField_commandWord]⟩

/-! ### The opcode map (R112) -/

/-- The rows of R112. -/
def opcodeMap : List (BitVec 8 × WordFormat) :=
  [(0x00, .none .nop), (0x10, .none .lb1p64k), (0x11, .none .lb1p1k), (0x12, .arg 4 .lb2p64k), (0x13, .arg 4 .lb2p1k),
    (0x14, .arg 1 (fun b => .lb8p (b == 1#1))), (0x1F, .none .lbAuto), (0x20, .none .pl1p64k), (0x21, .none .pl1p1k),
    (0x22, .none .pl2p64k), (0x23, .none .pl2p1k), (0x24, .none .pl8p), (0x2F, .none .plAuto), (0x30, .none .diff),
    (0x40, .unit .lqCurrent), (0x41, .unit .lqWrite), (0x42, .unit .lqCommit), (0x43, .unit .lqRead),
    (0x44, .unit .lqReset), (0x50, .unit .fetch), (0x51, .none .feed), (0x52, .none .maskBuild),
    (0x60, .none .updStart), (0x61, .none .prep), (0x62, .none .frameDone), (0x63, .none .updAck)]

/-- A word read by the first row with its opcode. -/
def readRows (w : Word) : List (BitVec 8 × WordFormat) → Except Reserved Instr
  | [] => .error .unknownOpcode
  | (c, f) :: rows => if opcField w = c then f.read w else readRows w rows

/-- The decoder reads the opcode map. -/
theorem decodeWord_eq_readRows (w : Word) : decodeWord w = readRows w opcodeMap := rfl

theorem readRows_of_not_mem {w : Word} {rows : List (BitVec 8 × WordFormat)} (h : opcField w ∉ rows.map Prod.fst) :
    readRows w rows = .error .unknownOpcode := by
  induction rows with
  | nil => rfl
  | cons r rows ih =>
    obtain ⟨hr, hrows⟩ := List.ne_and_not_mem_of_not_mem_cons h
    rw [readRows, if_neg hr, ih hrows]

/-- With one row for each opcode, the row of the word's opcode reads it. -/
theorem readRows_of_mem {w : Word} {f : WordFormat} {rows : List (BitVec 8 × WordFormat)}
    (hnd : (rows.map Prod.fst).Nodup) (h : (opcField w, f) ∈ rows) : readRows w rows = f.read w := by
  induction rows with
  | nil => cases h
  | cons r rows ih =>
    obtain ⟨hr, hnd⟩ := List.nodup_cons.mp hnd
    rcases List.mem_cons.mp h with rfl | h
    · exact if_pos rfl
    · have hne : opcField w ≠ r.1 := fun e => hr (e ▸ List.mem_map_of_mem h)
      rw [readRows, if_neg hne, ih hnd h]

theorem decodeWord_of_not_mem {w : Word} (h : opcField w ∉ opcodeMap.map Prod.fst) :
    decodeWord w = .error .unknownOpcode :=
  readRows_of_not_mem h

theorem opcodeMap_nodup : (opcodeMap.map Prod.fst).Nodup := by decide

theorem decodeWord_of_mem {w : Word} {f : WordFormat} (h : (opcField w, f) ∈ opcodeMap) : decodeWord w = f.read w :=
  readRows_of_mem opcodeMap_nodup h

/-- An operation is read by the row of the word's opcode. -/
theorem decodeWord_eq_ok {w : Word} {i : Instr} :
    decodeWord w = .ok i ↔ ∃ f, (opcField w, f) ∈ opcodeMap ∧ f.read w = .ok i := by
  constructor
  · intro h
    by_cases hm : opcField w ∈ opcodeMap.map Prod.fst
    · obtain ⟨⟨c, f⟩, hf, rfl⟩ := List.mem_map.mp hm
      exact ⟨f, hf, decodeWord_of_mem hf ▸ h⟩
    · rw [decodeWord_of_not_mem hm] at h
      cases h
  · rintro ⟨f, hf, h⟩
    rw [decodeWord_of_mem hf, h]

theorem setWidth_ofBool_beq_one (b : BitVec 1) : (BitVec.ofBool (b == 1#1)).setWidth 16 = b.setWidth 16 := by
  revert b; decide

/-- `encode` follows the opcode map. -/
theorem opcodeMap_encodes : ∀ r ∈ opcodeMap, r.2.Encodes r.1 := by
  simp only [opcodeMap, List.forall_mem_cons]
  exact ⟨⟨trivial, rfl⟩, ⟨trivial, rfl⟩, ⟨trivial, rfl⟩, ⟨by decide, fun _ => ⟨trivial, rfl⟩⟩,
    ⟨by decide, fun _ => ⟨trivial, rfl⟩⟩,
    ⟨by decide, fun b => ⟨trivial, congrArg (commandWord 0x14 0) (setWidth_ofBool_beq_one b)⟩⟩,
    ⟨trivial, rfl⟩, ⟨trivial, rfl⟩, ⟨trivial, rfl⟩, ⟨trivial, rfl⟩, ⟨trivial, rfl⟩, ⟨trivial, rfl⟩, ⟨trivial, rfl⟩,
    ⟨trivial, rfl⟩, fun _ => ⟨id, rfl⟩, fun _ => ⟨id, rfl⟩, fun _ => ⟨id, rfl⟩, fun _ => ⟨id, rfl⟩,
    fun _ => ⟨id, rfl⟩, fun _ => ⟨id, rfl⟩, ⟨trivial, rfl⟩, ⟨trivial, rfl⟩, ⟨trivial, rfl⟩, ⟨trivial, rfl⟩,
    ⟨trivial, rfl⟩, ⟨trivial, rfl⟩, nofun⟩

/-- The rows of the map stand in the order of the operations, and each holds its operation. -/
theorem exists_row_of_wellFormed {i : Instr} (h : i.WellFormed) :
    ∃ r, opcodeMap[i.ctorIdx]? = some r ∧ r.2.Has i := by
  cases i with
  | lb2p64k f | lb2p1k f => exact ⟨_, rfl, f, rfl⟩
  | lb8p fw => exact ⟨_, rfl, BitVec.ofBool fw, by cases fw <;> rfl⟩
  | lqCurrent u | lqWrite u | lqCommit u | lqRead u | lqReset u | fetch u => exact ⟨_, rfl, u, h, rfl⟩
  | _ => exact ⟨_, rfl, rfl⟩

/-- Settles O2: the row of the word's opcode reads the one operation that encodes to the word. -/
theorem decodeIffEncode : Obligations.DecodeIffEncode := by
  intro w i
  rw [decodeWord_eq_ok]
  constructor
  · rintro ⟨f, hf, h⟩
    have hrow := opcodeMap_encodes _ hf
    obtain ⟨hi, hw⟩ := (hrow.read_eq_ok rfl).mp h
    exact ⟨(hrow.of_has hi).1, hw⟩
  · rintro ⟨hi, rfl⟩
    obtain ⟨⟨c, f⟩, hc, hf⟩ := exists_row_of_wellFormed hi
    have hrow := opcodeMap_encodes _ (List.mem_of_getElem? hc)
    obtain rfl : opcField (encode i) = c := (hrow.of_has hf).2
    exact ⟨f, List.mem_of_getElem? hc, (hrow.read_eq_ok rfl).mpr ⟨hf, rfl⟩⟩

end Sys2Proof
end

section
/-! SUPPORT. The reserved words (30_encoding.md R119), and the words of the opcode map (R112). -/

namespace Sys2Proof.Machine

/-! ### Reserved words (R119) -/

/-- The opcodes of the rows whose format `p` picks. -/
def opcodes (p : WordFormat → Bool) : List (BitVec 8) := (opcodeMap.filter (fun r => p r.2)).map Prod.fst

theorem exists_row_of_mem_opcodes {p : WordFormat → Bool} {c : BitVec 8} (h : c ∈ opcodes p) :
    ∃ f, (c, f) ∈ opcodeMap ∧ p f = true := by
  obtain ⟨⟨c, f⟩, hr, rfl⟩ := List.mem_map.mp h
  obtain ⟨hm, hp⟩ := List.mem_filter.mp hr
  exact ⟨f, hm, hp⟩

theorem formatN_unit_ne {w : Word} (h : unitField w ≠ 0#8) (i : Instr) : formatN w i = .error .unitNotZero :=
  if_neg h

theorem formatA_unit_ne {w : Word} (h : unitField w ≠ 0#8) (n : Nat) (mk : BitVec n → Instr) :
    formatA w n mk = .error .unitNotZero :=
  if_neg h

theorem formatU_unit_ge {w : Word} (h : numLanes ≤ (unitField w).toNat) (mk : BitVec 8 → Instr) :
    formatU w mk = .error .unitOutOfRange :=
  if_neg (Nat.not_lt.mpr h)

theorem formatN_arg_ne {w : Word} (hu : unitField w = 0#8) (ha : argField w ≠ 0#16) (i : Instr) :
    formatN w i = .error .argNotZero := by
  rw [formatN, if_pos hu, if_neg ha]

theorem formatU_arg_ne {w : Word} (hu : unitOk (unitField w)) (ha : argField w ≠ 0#16) (mk : BitVec 8 → Instr) :
    formatU w mk = .error .argNotZero := by
  rw [formatU, if_pos hu, if_neg ha]

theorem formatA_arg_ge {w : Word} {n : Nat} (hu : unitField w = 0#8) (ha : 2 ^ n ≤ (argField w).toNat)
    (mk : BitVec n → Instr) : formatA w n mk = .error .argNotZero := by
  rw [formatA, if_pos hu, if_neg (mt (shiftRight_eq_zero_iff _ n).mp (Nat.not_lt.mpr ha))]

theorem decodeWord_unit_ne {w : Word} (h : opcField w ∈ opcodes (fun f => !f.isUnit)) (hu : unitField w ≠ 0#8) :
    decodeWord w = .error .unitNotZero := by
  obtain ⟨f, hf, hp⟩ := exists_row_of_mem_opcodes h
  rw [decodeWord_of_mem hf]
  cases f with
  | none i => exact formatN_unit_ne hu i
  | unit mk => cases hp
  | arg n mk => exact formatA_unit_ne hu n mk

theorem decodeWord_of_isNone {w : Word} (h : opcField w ∈ opcodes WordFormat.isNone) :
    ∃ i, decodeWord w = formatN w i := by
  obtain ⟨f, hf, hp⟩ := exists_row_of_mem_opcodes h
  rw [decodeWord_of_mem hf]
  cases f with
  | none i => exact ⟨i, rfl⟩
  | unit mk => cases hp
  | arg n mk => cases hp

theorem decodeWord_of_isUnit {w : Word} (h : opcField w ∈ opcodes WordFormat.isUnit) :
    ∃ mk, decodeWord w = formatU w mk := by
  obtain ⟨f, hf, hp⟩ := exists_row_of_mem_opcodes h
  rw [decodeWord_of_mem hf]
  cases f with
  | none i => cases hp
  | unit mk => exact ⟨mk, rfl⟩
  | arg n mk => cases hp

/-- The two rows with a static from colour in `ARG[3:0]`. -/
theorem decodeWord_static {w : Word} (h : opcField w = 0x12#8 ∨ opcField w = 0x13#8) :
    ∃ mk, decodeWord w = formatA w 4 mk := by
  rcases h with h | h
  · exact ⟨_, decodeWord_of_mem (f := .arg 4 .lb2p64k) (by simp [h, opcodeMap])⟩
  · exact ⟨_, decodeWord_of_mem (f := .arg 4 .lb2p1k) (by simp [h, opcodeMap])⟩

theorem decodeWord_direct {w : Word} (h : opcField w = 0x14#8) :
    decodeWord w = formatA w 1 (fun b => .lb8p (b == 1#1)) :=
  decodeWord_of_mem (f := .arg 1 (fun b => .lb8p (b == 1#1))) (by simp [h, opcodeMap])

theorem issueCommand_of_reserved {w : Word} {why : Reserved} (h : decodeWord w = .error why) (p : Port) (s : State) :
    issueCommand p w s = .refused (.reservedCommand why) := by
  simp only [issueCommand, h]

/-- Settles O3: the opcode lists of the statement are the rows of the map, by format. -/
theorem reservedWordsRefused : Obligations.ReservedWordsRefused := by
  refine ⟨fun w h => decodeWord_of_not_mem h, fun w h hu => decodeWord_unit_ne h hu, fun w h hu ha => ?_,
    fun w h hu ha => ?_, fun w h hu ha => ?_, fun w h hu => ?_, fun w h hu ha => ?_, fun s p w why hn hw => ?_⟩
  · obtain ⟨i, hi⟩ := decodeWord_of_isNone h
    rw [hi, formatN_arg_ne hu ha]
  · obtain ⟨mk, hm⟩ := decodeWord_static h
    rw [hm, formatA_arg_ge hu ha]
  · rw [decodeWord_direct h, formatA_arg_ge hu ha]
  · obtain ⟨mk, hm⟩ := decodeWord_of_isUnit h
    rw [hm, formatU_unit_ge hu]
  · obtain ⟨mk, hm⟩ := decodeWord_of_isUnit h
    rw [hm, formatU_arg_ne hu ha]
  · obtain ⟨rest, hin⟩ := hn
    rw [step_of_command hin, issueCommand_of_reserved hw]

/-! ### The words of the opcode map (R112) -/

theorem commandWord_eq_or (c u : BitVec 8) (a : BitVec 16) :
    commandWord c u a = c.setWidth 32 <<< 24 ||| u.setWidth 32 <<< 16 ||| a.setWidth 32 := by
  ext i hi
  simp only [commandWord, BitVec.getElem_or, BitVec.getElem_shiftLeft, BitVec.getElem_setWidth]
  grind

theorem commandWord_arg (c : BitVec 8) (f : Nibble) :
    commandWord c 0#8 (f.setWidth 16) = c.setWidth 32 <<< 24 ||| f.setWidth 32 := by
  have hf : (f.setWidth 16).setWidth 32 = f.setWidth 32 := by bv_omega
  simp [commandWord_eq_or, hf]

theorem commandWord_unit (c u : BitVec 8) :
    commandWord c u 0#16 = c.setWidth 32 <<< 24 ||| u.setWidth 32 <<< 16 := by
  simp [commandWord_eq_or]

/-- Settles O1: each word is the encoding of its row's operation. -/
theorem opcodeMapDecodes : Obligations.OpcodeMapDecodes :=
  have row {w : Word} {i : Instr} (hi : i.WellFormed) (hw : encode i = w) : decodeWord w = .ok i :=
    (decodeIffEncode w i).mpr ⟨hi, hw⟩
  ⟨row trivial rfl, row trivial rfl, row trivial rfl,
    fun f => row trivial (commandWord_arg 0x12 f),
    fun f => row trivial (commandWord_arg 0x13 f),
    row trivial rfl, row trivial rfl, row trivial rfl, row trivial rfl, row trivial rfl, row trivial rfl,
    row trivial rfl, row trivial rfl, row trivial rfl, row trivial rfl,
    fun u hu => ⟨row hu (commandWord_unit 0x40 u), row hu (commandWord_unit 0x41 u),
      row hu (commandWord_unit 0x42 u), row hu (commandWord_unit 0x43 u), row hu (commandWord_unit 0x44 u),
      row hu (commandWord_unit 0x50 u)⟩,
    row trivial rfl, row trivial rfl, row trivial rfl, row trivial rfl, row trivial rfl, row trivial rfl⟩

end Sys2Proof.Machine
end

section
/-! SUPPORT. When an operation is legal (30_encoding.md R120, R224): every well-formed operation begins with the check
of its port, its lane and the sequencer's state, and refuses for none of these afterwards. -/

namespace Sys2Proof.Machine

/-- The refusals of R120 and R224. -/
def Refusal.isLegality : Refusal → Bool
  | .portNotAllowed => true
  | .seqNotAllowed => true
  | .laneBusy => true
  | _ => false

/-- The answer of an operation that was legal. -/
def PastLegality (o : Out) : Prop := ∀ r, o = .refused r → r.isLegality = false

/-! ### What keeps an answer past legality -/

theorem PastLegality.next (t : State) : PastLegality (.next t) := nofun

theorem PastLegality.fault (f : Fault) : PastLegality (.fault f) := nofun

theorem PastLegality.refused {r : Refusal} (h : r.isLegality = false) : PastLegality (.refused r) := by
  rintro _ ⟨⟩
  exact h

theorem PastLegality.require {c : Bool} {r : Refusal} {k : Out} (hr : r.isLegality = false) (hk : PastLegality k) :
    PastLegality (require c r k) := by
  cases c with
  | true => exact hk
  | false => exact .refused hr

theorem PastLegality.need {α : Type} {o : Option α} {f : Fault} {k : α → Out} (hk : ∀ x, PastLegality (k x)) :
    PastLegality (need o f k) := by
  cases o with
  | none => exact .fault f
  | some x => exact hk x

theorem PastLegality.ite {p : Prop} [Decidable p] {a b : Out} (ha : PastLegality a) (hb : PastLegality b) :
    PastLegality (if p then a else b) := by
  split
  · exact ha
  · exact hb

theorem PastLegality.unlessRefused {o : Option Refusal} {k : Out} (ho : ∀ r, o = some r → r.isLegality = false)
    (hk : PastLegality k) : PastLegality (unlessRefused o k) := by
  cases o with
  | none => exact hk
  | some r => exact .refused (ho r rfl)

theorem PastLegality.asProducer {q : Lane} {s : State} {k : State → Out} (hk : ∀ t, PastLegality (k t)) :
    PastLegality (asProducer q s k) := by
  unfold Machine.asProducer
  split
  · exact hk _
  · exact .require rfl (hk s)

theorem PastLegality.asConsumer {q : Lane} {s : State} {k : State → Out} (hk : ∀ t, PastLegality (k t)) :
    PastLegality (asConsumer q s k) := by
  unfold Machine.asConsumer
  split
  · exact hk _
  · exact .require rfl (hk s)

/-- A check of buffers refuses for the buffers (R87, R88). -/
theorem bufferRefusal_not_legality {s : State} {reads writes : List Span} {r : Refusal}
    (h : bufferRefusal s reads writes = some r) : r.isLegality = false := by
  unfold bufferRefusal at h
  split_ifs at h <;> cases h <;> rfl

theorem twoBufferRefusal_not_legality {s : State} {reads writes : List Span} {r : Refusal}
    (h : twoBufferRefusal s reads writes = some r) : r.isLegality = false := by
  unfold twoBufferRefusal at h
  split_ifs at h
  · cases h
    rfl
  · exact bufferRefusal_not_legality h

theorem buildRefusal_not_legality {s : State} {l : Layout} {r : Refusal} (h : buildRefusal s l = some r) :
    r.isLegality = false := by
  unfold buildRefusal at h
  split_ifs at h
  · exact bufferRefusal_not_legality h
  · cases h
    rfl

theorem PastLegality.buildLayout (l : Layout) (s : State) (f : State → State) :
    PastLegality (buildLayout l s (fun t => .next (f t))) :=
  .unlessRefused (fun _ => buildRefusal_not_legality) (.next _)

theorem PastLegality.pixelLookup (p : Packing) (look : Cells → List Byte → Nat → Option Row) (s : State) :
    PastLegality (pixelLookup p look s) :=
  .unlessRefused (fun _ => twoBufferRefusal_not_legality) (.need fun _ => .next _)

theorem PastLegality.feedStep (s : State) : PastLegality (feedStep s) :=
  .ite (.need fun _ => .ite (.next _) (.need fun _ => .next _)) (.next _)

/-! ### Every operation begins with the check -/

/-- The sequencer is in the state R120 asks of the operation. -/
def seqAllowed (i : Instr) (s : State) : Bool := (legalSeq i).all (s.seq == ·)

/-- Go on with `k` where the operation is legal (R120, R224). -/
def ifLegal (i : Instr) (s : State) (k : Out) : Out :=
  onPorts (legalPorts i) s (require (seqAllowed i s) .seqNotAllowed k)

theorem allowed_eq_ifLegal {i : Instr} {ports : List Port} {q : Seq} (hp : legalPorts i = ports)
    (hq : legalSeq i = some q) (s : State) (k : Out) : allowed ports q s k = ifLegal i s k := by
  rw [ifLegal, seqAllowed, hp, hq]
  rfl

/-- An operation on a lane's unit is legal by the ports of that lane. -/
theorem withUnit_eq_ifLegal {i : Instr} {ports : Lane → List Port} {q : Seq} {l : Lane} (hp : legalPorts i = ports l)
    (hq : legalSeq i = some q) (s : State) (k : Lane → Out) :
    withUnit (laneUnit l) (fun l => allowed (ports l) q s (k l)) = ifLegal i s (k l) := by
  rw [withUnit_laneUnit, allowed_eq_ifLegal hp hq]

theorem producerPorts_eq (q : Lane) :
    (if laneUnit q = 0#8 then [Port.host, .lane0] else [Port.host, .lane1]) = producerPorts q := by
  cases q <;> rfl

theorem lanePort_eq (l : Lane) : (if laneUnit l = 0#8 then [Port.lane0] else [Port.lane1]) = [lanePort l] := by
  cases l <;> rfl

/-- Every well-formed operation checks its legality first, and what follows refuses for other reasons. -/
theorem exec_eq_ifLegal {i : Instr} (h : i.WellFormed) (s : State) :
    ∃ k, exec i s = ifLegal i s k ∧ PastLegality k := by
  cases i with
  | nop => exact ⟨_, rfl, .next _⟩
  | lb1p64k | lb1p1k | lb2p64k f | lb2p1k f | lb8p fw => exact ⟨_, rfl, .buildLayout _ s _⟩
  | lbAuto =>
    refine ⟨_, rfl, ?_⟩
    split
    · exact .next _
    · exact .buildLayout _ s _
  | pl1p64k | pl1p1k | pl2p64k | pl2p1k | pl8p => exact ⟨_, rfl, .pixelLookup _ _ s⟩
  | plAuto =>
    refine ⟨_, rfl, ?_⟩
    split
    · exact .next _
    · exact .pixelLookup _ _ s
  | diff => exact ⟨_, rfl, .ite (.unlessRefused (fun _ => twoBufferRefusal_not_legality) (.next _)) (.next _)⟩
  | lqCurrent u =>
    obtain ⟨q, rfl⟩ := unitOk_iff.mp h
    exact ⟨_, withUnit_eq_ifLegal (i := .lqCurrent _) (producerPorts_eq q) rfl s _, .ite (.next _) (.next _)⟩
  | lqWrite u =>
    obtain ⟨q, rfl⟩ := unitOk_iff.mp h
    exact ⟨_, withUnit_eq_ifLegal (i := .lqWrite _) (producerPorts_eq q) rfl s _, .asProducer fun _ =>
      .ite (.next _) (.unlessRefused (fun _ => bufferRefusal_not_legality) (.next _))⟩
  | lqCommit u =>
    obtain ⟨q, rfl⟩ := unitOk_iff.mp h
    exact ⟨_, withUnit_eq_ifLegal (i := .lqCommit _) (producerPorts_eq q) rfl s _, .asProducer fun _ =>
      .require rfl (.need fun _ => .next _)⟩
  | lqRead u =>
    obtain ⟨q, rfl⟩ := unitOk_iff.mp h
    exact ⟨_, withUnit_eq_ifLegal (ports := fun _ => [.host, .feeder]) rfl rfl s _, .asConsumer fun _ =>
      .ite (.next _) (.unlessRefused (fun _ => bufferRefusal_not_legality) (.need fun _ => .next _))⟩
  | lqReset u =>
    obtain ⟨q, rfl⟩ := unitOk_iff.mp h
    exact ⟨_, withUnit_eq_ifLegal (ports := fun _ => [.host]) rfl rfl s _, .require rfl (.next _)⟩
  | fetch u =>
    obtain ⟨l, rfl⟩ := unitOk_iff.mp h
    exact ⟨_, withUnit_eq_ifLegal (i := .fetch _) (ports := fun l => [lanePort l]) (lanePort_eq l) rfl s _,
      .asProducer fun _ => .next _⟩
  | feed => exact ⟨_, rfl, .ite (.next _) (.asConsumer fun _ => .asConsumer fun t => .feedStep t)⟩
  | maskBuild | updStart | updAck => exact ⟨_, rfl, .next _⟩
  | prep =>
    refine ⟨_, rfl, ?_⟩
    split
    · exact .refused rfl
    · exact .buildLayout _ s _
  | frameDone => exact ⟨_, rfl, .require rfl (.require rfl (.next _))⟩

/-! ### What the check answers -/

theorem ifLegal_wrong_port {i : Instr} {s : State} (hp : s.issuer ∉ legalPorts i) (k : Out) :
    ifLegal i s k = .refused .portNotAllowed := by
  rw [ifLegal, onPorts, List.contains_eq_mem, decide_eq_false hp, require_false]

theorem ifLegal_held {i : Instr} {s : State} (hp : s.issuer ∈ legalPorts i) (hh : issuerHeld s = true) (k : Out) :
    ifLegal i s k = .refused .laneBusy := by
  rw [ifLegal, onPorts, List.contains_eq_mem, decide_eq_true hp, require_true, hh, Bool.not_true, require_false]

theorem seqAllowed_eq_true {i : Instr} {s : State} : seqAllowed i s = true ↔ ∀ q, legalSeq i = some q → s.seq = q := by
  simp [seqAllowed, Option.all_eq_true]

theorem ifLegal_wrong_seq {i : Instr} {s : State} (hp : s.issuer ∈ legalPorts i) (hh : issuerHeld s = false)
    (hq : ∃ q, legalSeq i = some q ∧ s.seq ≠ q) (k : Out) : ifLegal i s k = .refused .seqNotAllowed := by
  have hs : seqAllowed i s = false := by
    obtain ⟨q, hi, hne⟩ := hq
    exact Bool.eq_false_iff.mpr fun h => hne (seqAllowed_eq_true.mp h q hi)
  rw [ifLegal, onPorts_of hp hh, hs, require_false]

theorem ifLegal_of {i : Instr} {s : State} (hp : s.issuer ∈ legalPorts i) (hh : issuerHeld s = false)
    (hq : ∀ q, legalSeq i = some q → s.seq = q) (k : Out) : ifLegal i s k = k := by
  rw [ifLegal, onPorts_of hp hh, seqAllowed_eq_true.mpr hq, require_true]

/-- Settles O5: an operation is its legality check, then an answer past it. -/
theorem legalityOfOperations : Obligations.LegalityOfOperations := by
  intro i s h
  obtain ⟨k, he, hk⟩ := exec_eq_ifLegal h s
  rw [he]
  refine ⟨fun hp => ifLegal_wrong_port hp k, fun hp hh => ifLegal_held hp hh k,
    fun hp hh hq => ifLegal_wrong_seq hp hh hq k, fun hp hh hq => ?_⟩
  rw [ifLegal_of hp hh hq]
  exact ⟨fun hr => absurd (hk _ hr) (by decide), fun hr => absurd (hk _ hr) (by decide),
    fun hr => absurd (hk _ hr) (by decide)⟩

end Sys2Proof.Machine
end

section
/-! SUPPORT. The LUT Builder (41_lut_builder.md): the tables entry by entry, when a build completes, and the layout that
`MODE` and `CTRL` select. -/

namespace Sys2Proof.Machine

/-! ### Indices of the tables -/

/-- The low byte of an index is its place in its block of 256 entries. -/
theorem byteOf_index (k : Nat) (b : Byte) : byteOf (256 * k + b.toNat) = b := by
  refine BitVec.eq_of_toNat_eq ?_
  rw [byteOf, BitVec.toNat_ofNat, Nat.mul_add_mod, Nat.mod_eq_of_lt b.isLt]

theorem index_div (k : Nat) (b : Byte) : (256 * k + b.toNat) / 256 = k := by
  have := b.isLt
  omega

theorem byteOf_toNat (b : Byte) : byteOf b.toNat = b := by
  rw [byteOf, BitVec.ofNat_toNat, BitVec.setWidth_eq]

/-- The index of two bytes is the second's block, at the first. -/
theorem twoByteIndex (b0 b1 : Byte) : b0.toNat + b1.toNat * 256 = 256 * b1.toNat + b0.toNat := by omega

/-! ### The tables (R143 to R150) -/

/-- A build writes every entry of its layout. -/
theorem lutHolds_builtLut (s : State) (l : Layout) : lutHolds (builtLut s l) (layoutSize l) (layoutEntry s l) :=
  fun i hi => by rw [lutRead_builtLut, if_pos hi]

theorem lutRead_builtLut_of_le (s : State) (l : Layout) {i : Nat} (h : layoutSize l ≤ i) :
    lutRead (builtLut s l) i = lutRead s.lut i := by
  rw [lutRead_builtLut, if_neg (Nat.not_lt.mpr h)]

theorem lutRead_built1P64K (s : State) (d0 d1 : Byte) :
    lutRead (builtLut s .l1p64k) (d0.toNat + d1.toNat * 256) =
      some (quad 0#2 0#2 (phaseCode s (hi4 d0) (lo4 d0)) (phaseCode s (hi4 d1) (lo4 d1))) := by
  rw [lutHolds_builtLut s .l1p64k _ (show _ < 65536 by omega), layoutEntry, entry1P64K, twoByteIndex, byteOf_index,
    index_div, byteOf_toNat]

theorem lutRead_built1P1K (s : State) {p : Nat} (hp : p < 4) (v : Byte) :
    lutRead (builtLut s .l1p1k) (256 * p + v.toNat) =
      some ((phaseCode s (hi4 v) (lo4 v)).setWidth 8 <<< (6 - 2 * p)) := by
  rw [lutHolds_builtLut s .l1p1k _ (show _ < 1024 by omega), layoutEntry, entry1P1K, byteOf_index, index_div]

theorem lutRead_built2P64K (s : State) (f : Nibble) (b0 b1 : Byte) :
    lutRead (builtLut s (.l2p64k f)) (b0.toNat + b1.toNat * 256) =
      some (quad (phaseCode s (hi4 b0) f) (phaseCode s (lo4 b0) f)
        (phaseCode s (hi4 b1) f) (phaseCode s (lo4 b1) f)) := by
  rw [lutHolds_builtLut s (.l2p64k f) _ (show _ < 65536 by omega), layoutEntry, entry2P64K, twoByteIndex, byteOf_index,
    index_div, byteOf_toNat]

theorem lutRead_built2P1K (s : State) (f : Nibble) {j : Nat} (hj : j < 4) (b : Byte) :
    lutRead (builtLut s (.l2p1k f)) (256 * j + b.toNat) =
      some (if j % 2 = 0 then quad (phaseCode s (hi4 b) f) (phaseCode s (lo4 b) f) 0#2 0#2
        else quad 0#2 0#2 (phaseCode s (hi4 b) f) (phaseCode s (lo4 b) f)) := by
  rw [lutHolds_builtLut s (.l2p1k f) _ (show _ < 1024 by omega), layoutEntry, entry2P1K, byteOf_index, index_div]

theorem lutRead_built8P (s : State) (fw : Bool) (m : Byte) :
    lutRead (builtLut s (.l8p fw)) m.toNat = some (entry8P s.cfg fw m.toNat) :=
  lutHolds_builtLut s (.l8p fw) _ m.isLt

/-- The codes of a monochrome entry are those of the high nibble's pixels, left to right (R150). -/
theorem pair_entry8P (c : Config) (fw : Bool) (m : Byte) {j : Nat} (hj : j < 4) :
    pair (entry8P c fw m.toNat) j = monoCode c fw (m.getLsbD (7 - j)) := by
  have : j = 0 ∨ j = 1 ∨ j = 2 ∨ j = 3 := by omega
  rw [entry8P, byteOf_toNat]
  rcases this with rfl | rfl | rfl | rfl
  · exact pair_quad_zero _ _ _ _
  · exact pair_quad_one _ _ _ _
  · exact pair_quad_two _ _ _ _
  · exact pair_quad_three _ _ _ _

/-- A code shifted to a pair stands there (R144). -/
theorem pair_shifted : ∀ p < 4, ∀ c : Code, pair (c.setWidth 8 <<< (6 - 2 * p)) p = c := by decide

/-- A high and a low nibble of codes OR to the four codes (R148). -/
theorem quad_or_quad (p0 p1 p2 p3 : Code) : quad p0 p1 0#2 0#2 ||| quad 0#2 0#2 p2 p3 = quad p0 p1 p2 p3 := by
  revert p0 p1 p2 p3; decide

/-! ### The direct operations -/

theorem exec_lbOp_of {s : State} {l : Layout} (h : hostIdle s) (hb : buildRefusal s l = none) :
    exec (lbOp l) s = .next { s with lut := builtLut s l, resHost := 0#32 } := by
  rw [exec_lbOp]
  exact lutBuild_eq_next.mpr ⟨h.1, h.2, hb, rfl⟩

/-- A waveform build completes in a phase of the waveform whose bytes are there (R140). -/
theorem exec_lbOp_of_waveformReady {s : State} (l : Layout) (h : hostIdle s) (hr : waveformReady s) :
    exec (lbOp l) s = .next { s with lut := builtLut s l, resHost := 0#32 } :=
  exec_lbOp_of h (buildRefusal_eq_none.mpr fun _ => hr)

/-- A waveform build is refused beyond the waveform's phases (R140). -/
theorem exec_lbOp_phaseOutOfRange {s : State} {l : Layout} (hl : layoutUsesWaveform l = true) (h : hostIdle s)
    (hp : s.phaseCount.toNat ≤ s.phase.toNat) : exec (lbOp l) s = .refused .phaseOutOfRange := by
  rw [exec_lbOp, lutBuild, allowed_host h.1 h.2, buildLayout, buildRefusal, if_pos hl, if_neg (Nat.not_lt.mpr hp),
    unlessRefused_some]

/-- Settles O17: the entry of two transition bytes, at their index. -/
theorem lb1P64KBuildsTable : Obligations.Lb1P64KBuildsTable :=
  ⟨(decodeIffEncode _ _).mpr ⟨trivial, rfl⟩, fun s h =>
    ⟨fun hr => ⟨_, exec_lbOp_of_waveformReady .l1p64k h hr, lutRead_built1P64K s⟩,
      exec_lbOp_phaseOutOfRange (l := .l1p64k) rfl h⟩⟩

/-- Settles O18: the entry of a transition byte in its sub-table. -/
theorem lb1P1KBuildsTable : Obligations.Lb1P1KBuildsTable :=
  ⟨(decodeIffEncode _ _).mpr ⟨trivial, rfl⟩, fun s h =>
    ⟨fun hr => ⟨_, exec_lbOp_of_waveformReady .l1p1k h hr, fun _ hp => lutRead_built1P1K s hp,
        fun _ => lutRead_builtLut_of_le s .l1p1k⟩,
      exec_lbOp_phaseOutOfRange (l := .l1p1k) rfl h⟩⟩

/-- Settles O19: the entry of two bytes of target nibbles, at their index. -/
theorem lb2P64KBuildsTable : Obligations.Lb2P64KBuildsTable :=
  ⟨fun f => (decodeIffEncode _ _).mpr ⟨trivial, commandWord_arg 0x12 f⟩, fun s f h =>
    ⟨fun hr => ⟨_, exec_lbOp_of_waveformReady (.l2p64k f) h hr, lutRead_built2P64K s f⟩,
      exec_lbOp_phaseOutOfRange (l := .l2p64k f) rfl h⟩⟩

/-- Settles O20: the entry of a byte of target nibbles in its sub-table. -/
theorem lb2P1KBuildsTable : Obligations.Lb2P1KBuildsTable :=
  ⟨fun f => (decodeIffEncode _ _).mpr ⟨trivial, commandWord_arg 0x13 f⟩, fun s f h =>
    ⟨fun hr => ⟨_, exec_lbOp_of_waveformReady (.l2p1k f) h hr, fun _ hj => lutRead_built2P1K s f hj,
        fun _ => lutRead_builtLut_of_le s (.l2p1k f)⟩,
      exec_lbOp_phaseOutOfRange (l := .l2p1k f) rfl h⟩⟩

/-- Settles O21: the monochrome build needs no phase (R151), and its entries are pair by pair those of R150. -/
theorem lb8PWritesFixedTable : Obligations.Lb8PWritesFixedTable :=
  ⟨⟨(decodeIffEncode _ _).mpr ⟨trivial, rfl⟩, (decodeIffEncode _ _).mpr ⟨trivial, rfl⟩⟩, fun s fw h =>
    ⟨_, exec_lbOp_of (l := .l8p fw) h (buildRefusal_eq_none.mpr nofun),
      fun m => ⟨_, lutRead_built8P s fw m, fun _ => pair_entry8P s.cfg fw m⟩,
      fun _ => lutRead_builtLut_of_le s (.l8p fw)⟩⟩

/-- The LUT after a direct operation is the one its layout builds. -/
theorem lut_of_exec_lbOp {l : Layout} {s t : State} (h : exec (lbOp l) s = .next t) : t.lut = builtLut s l := by
  obtain ⟨-, -, -, rfl⟩ := exec_lbOp_eq_next h
  rfl

/-- Settles O24: the code of one pixel in either layout (R145), and the two halves of an output byte (R148). -/
theorem layoutsAgree : Obligations.LayoutsAgree := by
  intro s t u
  constructor
  · intro ht hu d x
    rw [lut_of_exec_lbOp (l := .l1p64k) ht, lut_of_exec_lbOp (l := .l1p1k) hu]
    exact ⟨_, _, lutRead_built1P64K s d x, lutRead_built1P64K s x d, pair_quad_two _ _ _ _, pair_quad_three _ _ _ _,
      fun p hp => ⟨_, lutRead_built1P1K s hp d, pair_shifted p hp _⟩⟩
  · intro f ht hu b0 b1 j hj
    rw [lut_of_exec_lbOp (l := .l2p64k f) ht, lut_of_exec_lbOp (l := .l2p1k f) hu]
    refine ⟨_, _, lutRead_built2P1K s f (by omega) b0, lutRead_built2P1K s f (by omega) b1, ?_⟩
    rw [lutRead_built2P64K, if_pos (by omega), if_neg (by omega), quad_or_quad]

/-! ### The selection (R141) -/

/-- `CTRL.LUTSZ` is the low two bits of `CTRL` (R25). -/
theorem lutSize_eq_mod (ctrl : Word) : lutSize ctrl = ctrl.toNat % 4 := by
  rw [lutSize, BitVec.extractLsb'_toNat, Nat.shiftRight_zero]

theorem lutSize_eq_iff (ctrl : Word) {n : Nat} (hn : n < 4) : lutSize ctrl = n ↔ ctrl &&& 3#32 = BitVec.ofNat 32 n := by
  have hmask : (ctrl &&& 3#32).toNat = ctrl.toNat % 4 := Nat.and_two_pow_sub_one_eq_mod ctrl.toNat 2
  rw [BitVec.toNat_eq, hmask, lutSize_eq_mod, BitVec.toNat_ofNat, Nat.mod_eq_of_lt (a := n) (by omega)]

/-- With a uniformity flag there is a static colour, and white wins (R115). -/
theorem autoColour_of_flag {mode : Word} (h : (prevWhite mode || prevBlack mode) = true) :
    autoColour mode = some (if prevWhite mode then 15#4 else 0#4) := by
  unfold autoColour
  cases hw : prevWhite mode with
  | true => rfl
  | false =>
    rw [hw, Bool.false_or] at h
    simp [h]

theorem autoColour_of_no_flag {mode : Word} (h : (prevWhite mode || prevBlack mode) = false) :
    autoColour mode = none := by
  obtain ⟨hw, hb⟩ := Bool.or_eq_false_iff.mp h
  simp [autoColour, hw, hb]

theorem selectLayout_diff1 {mode : Word} (h8 : pack8 mode = false) (h2 : pack2 mode = false) (h1 : pack1 mode = true)
    (ctrl : Word) : selectLayout mode ctrl =
      if lutSize ctrl = 2 then .ok .l1p64k
      else if lutSize ctrl = 1 then .ok .l1p1k
      else .error errLookupNotImplemented := by
  rw [selectLayout, h8, h2, h1]

theorem selectLayout_fb4 {mode : Word} (h8 : pack8 mode = false) (h2 : pack2 mode = true) (h1 : pack1 mode = false)
    (ctrl : Word) : selectLayout mode ctrl =
      if lutSize ctrl = 2 ∧ (prevWhite mode || prevBlack mode) = true then
        .ok (.l2p64k (if prevWhite mode then 15#4 else 0#4))
      else if lutSize ctrl = 1 ∧ (prevWhite mode || prevBlack mode) = true then
        .ok (.l2p1k (if prevWhite mode then 15#4 else 0#4))
      else .error errLookupNotImplemented := by
  rw [selectLayout, h8, h2, h1]
  cases hc : prevWhite mode || prevBlack mode with
  | true => simp [autoColour_of_flag hc]
  | false => simp [autoColour_of_no_flag hc]

theorem selectLayout_mono8 {mode : Word} (h8 : pack8 mode = true) (h2 : pack2 mode = false) (h1 : pack1 mode = false)
    (ctrl : Word) : selectLayout mode ctrl =
      if lutSize ctrl = 0 ∧ (prevWhite mode || prevBlack mode) = true then .ok (.l8p (prevWhite mode))
      else .error errLookupNotImplemented := by
  rw [selectLayout, h8, h2, h1]
  cases hc : prevWhite mode || prevBlack mode with
  | true => simp [autoColour_of_flag hc]
  | false => simp [autoColour_of_no_flag hc]

/-- Three bits of which one is set. -/
theorem bitAt_sum_eq_one {a b c : Bool} : bitAt a 0 + bitAt b 0 + bitAt c 0 = 1 ↔
    (a = false ∧ b = false ∧ c = true) ∨ (a = false ∧ b = true ∧ c = false) ∨ (a = true ∧ b = false ∧ c = false) := by
  revert a b c; decide

/-- Without exactly one packing bit there is no packing. -/
theorem selectLayout_invalid {mode : Word} (h : bitAt (pack8 mode) 0 + bitAt (pack2 mode) 0 + bitAt (pack1 mode) 0 ≠ 1)
    (ctrl : Word) : selectLayout mode ctrl = .error errInvalidPackingMode := by
  rw [Ne, bitAt_sum_eq_one] at h
  unfold selectLayout
  split
  · exact absurd (.inl ⟨‹_›, ‹_›, ‹_›⟩) h
  · exact absurd (.inr (.inl ⟨‹_›, ‹_›, ‹_›⟩)) h
  · exact absurd (.inr (.inr ⟨‹_›, ‹_›, ‹_›⟩)) h
  · rfl

/-- Settles O22: by the packing bit that is set, then by the size. -/
theorem selectLayout_spec : Obligations.SelectLayout := by
  intro mode ctrl
  refine ⟨fun h => selectLayout_invalid h ctrl, fun h => ?_⟩
  have h256 := lutSize_eq_iff ctrl (n := 0) (by decide)
  have h1k := lutSize_eq_iff ctrl (n := 1) (by decide)
  have h64k := lutSize_eq_iff ctrl (n := 2) (by decide)
  rcases bitAt_sum_eq_one.mp h with ⟨h8, h2, h1⟩ | ⟨h8, h2, h1⟩ | ⟨h8, h2, h1⟩
  · rw [selectLayout_diff1 h8 h2 h1]
    simp only [h1k, h64k, h8, h2, h1, true_and, Bool.false_eq_true, false_and, if_false]
    rfl
  · rw [selectLayout_fb4 h8 h2 h1]
    simp only [h1k, h64k, h8, h2, h1, true_and, Bool.false_eq_true, false_and, if_false]
    rfl
  · rw [selectLayout_mono8 h8 h2 h1]
    simp only [h256, h8, h2, h1, true_and, Bool.false_eq_true, false_and, if_false]
    rfl

/-! ### `LB.AUTO` (R142) -/

theorem exec_lbAuto_of_error {s : State} {e : Word} (h : hostIdle s) (he : selectLayout s.mode s.ctrl = .error e) :
    exec .lbAuto s = .next { s with error := s.error ||| e, resHost := e } := by
  rw [exec, execLbAuto, allowed_host h.1 h.2, he]
  exact congrArg _ (result_of_host (s := flagError e s) h.1 e)

/-- Where a layout is selected, `LB.AUTO` is its direct operation. -/
theorem exec_lbAuto_of_ok {s : State} {l : Layout} (hl : selectLayout s.mode s.ctrl = .ok l) :
    exec .lbAuto s = exec (lbOp l) s := by
  rw [exec, execLbAuto, hl, exec_lbOp, lutBuild]

/-- Settles O23: the selection decides between the flag and the direct operation. -/
theorem lbAutoBuildsSelected : Obligations.LbAutoBuildsSelected :=
  ⟨(decodeIffEncode _ _).mpr ⟨trivial, rfl⟩, fun _ h =>
    ⟨fun _ => exec_lbAuto_of_error h, fun _ => exec_lbAuto_of_ok,
      fun _ hl hb => ⟨_, (exec_lbAuto_of_ok hl).trans (exec_lbOp_of h hb)⟩⟩⟩

end Sys2Proof.Machine
end

section
/-! SUPPORT. The Pixel Lookup (42_pixel_lookup.md): the bytes of a looked-up row where the `LUT` is written, the direct
operations and `PL.AUTO`, and that every pixel of a row is its own action code. -/

namespace Sys2Proof.Machine

/-! ### The row of a lookup (R161 to R168) -/

/-- Byte `q` of the row that layout `l` looks up in the table `tab`, for a line of `w` pixels whose byte `i` is
`line i`: what the rules of the five lookups write, before the columns from `w` on are cleared. -/
def lookByte (l : Layout) (tab : Nat → Byte) (line : Nat → Nat) (w q : Nat) : Byte :=
  match l with
  | .l1p64k =>
    lo4 (tab (line (4 * q) + line (4 * q + 1) * 256)) ++ lo4 (tab (line (4 * q + 2) + line (4 * q + 3) * 256))
  | .l1p1k =>
    ((List.range 4).filter (fun p => decide (4 * q + p < w))).foldl
      (fun out p => out ||| tab (256 * p + line (4 * q + p))) 0x00#8
  | .l2p64k _ => tab (line (2 * q) + line (2 * q + 1) * 256)
  | .l2p1k _ =>
    ([2 * q, 2 * q + 1].filter (fun i => decide (i < ceilDiv w 2))).foldl
      (fun out i => out ||| tab (256 * (i % 4) + line i)) 0x00#8
  | .l8p _ => if q % 2 = 0 then tab (line (q / 2)) else tab (line (q / 2) * 16 % 256)

theorem inByte_lt (inp : List Byte) (i : Nat) : inByte inp i < 256 := BitVec.isLt _

/-- Entries that are all there are ORed together. -/
theorem orEntries_map_of_all {ps : List Nat} {f : Nat → Option Byte} {g : Nat → Byte} (h : ∀ p ∈ ps, f p = some (g p)) :
    orEntries (ps.map f) = some (ps.foldl (fun out p => out ||| g p) 0x00#8) := by
  have hall : allSome (ps.map f) = some (ps.map g) := by
    rw [allSome_eq_some, List.map_map]
    exact List.map_congr_left h
  rw [orEntries, hall, Option.map_some, List.foldl_map]

/-- With its part of the `LUT` written, a layout's lookup has a row: the bytes of `lookByte`, cleared beyond `w`. -/
theorem lookLayout_of_holds {l : Layout} {lut : Cells} {tab : Nat → Byte} (h : lutHolds lut (layoutSize l) tab)
    (inp : List Byte) (w : Nat) :
    lookLayout l lut inp w =
      some (clearBeyond ((List.range (ceilDiv w 4)).map (lookByte l tab (inByte inp) w)) w) := by
  have hin := inByte_lt inp
  have pairIndex (i j : Nat) : inByte inp i + inByte inp j * 256 < 65536 := by
    have := hin i
    have := hin j
    omega
  cases l with
  | l1p64k =>
    refine lookRow_of_all _ _ _ fun q _ => ?_
    simp only [Nat.mul_comm 256, h _ (pairIndex _ _)]
    rfl
  | l1p1k =>
    refine lookRow_of_all _ _ _ fun q _ => orEntries_map_of_all fun p hp => h _ ?_
    have hp4 : p < 4 := List.mem_range.mp (List.mem_of_mem_filter hp)
    have := hin (4 * q + p)
    show _ < 1024
    omega
  | l2p64k f =>
    refine lookRow_of_all _ _ _ fun q _ => ?_
    rw [Nat.mul_comm 256]
    exact h _ (pairIndex _ _)
  | l2p1k f =>
    refine lookRow_of_all _ _ _ fun q _ => orEntries_map_of_all fun i _ => h _ ?_
    have := hin i
    show _ < 1024
    omega
  | l8p fw =>
    refine lookRow_of_all _ _ _ fun q _ => ?_
    rw [h _ (hin _), h (_ % 256) (Nat.mod_lt _ (by decide : 0 < 256)), ← apply_ite some]
    rfl

/-- The rows that are cleared beyond `w` (R162), pair by pair. -/
theorem pair_clearBeyond {w q p : Nat} (byte : Nat → Byte) (hq : q < ceilDiv w 4) (hp : p < 4) :
    pair ((clearBeyond ((List.range (ceilDiv w 4)).map byte) w).getD q 0#8) p =
      if 4 * q + p < w then pair (byte q) p else 0b00#2 := by
  rw [clearBeyond, andRow_maskRow_getD _ _ _ (by simpa using hq), pair_and_pairMask _ _ _ _ hp]
  simp [hq]

/-- A row stored at `base` is read there, and the bytes around it are kept. -/
theorem rowIs_memWriteRun (m : Cells) (base w : Nat) (byte : Nat → Byte) :
    rowIs (memWriteRun m base (clearBeyond ((List.range (ceilDiv w 4)).map byte) w)) base w byte ∧
      keptOutside { base := base, len := ceilDiv w 4 } m
        (memWriteRun m base (clearBeyond ((List.range (ceilDiv w 4)).map byte) w)) := by
  have hlen : (clearBeyond ((List.range (ceilDiv w 4)).map byte) w).length = ceilDiv w 4 := by
    rw [clearBeyond_length, List.length_map, List.length_range]
  constructor
  · intro q hq p hp
    rw [memRead_memWriteRun, if_pos (by omega), Nat.add_sub_cancel_left, pair_clearBeyond byte hq hp]
  · intro a ha
    have hout : ¬ (base ≤ a ∧ a < base + ceilDiv w 4) := fun h =>
      Bool.false_ne_true (ha.symm.trans (spanHas_eq_true.mpr h))
    rw [memRead_memWriteRun, hlen, if_neg hout]

/-! ### The direct operations -/

theorem exec_plOp_of_row {s : State} {l : Layout} {row : Row} (h : hostIdle s)
    (hb : twoBufferRefusal s [lineInSpan s (layoutPacking l)] [lineOutSpan s] = none)
    (hr : lookLayout l s.lut (lineIn s (layoutPacking l)) s.operands.width.toNat = some row) :
    exec (plOp l) s = .next { s with mem := memWriteRun s.mem s.operands.lineOut.toNat row, resHost := 0#32 } := by
  rw [exec_plOp, allowed_host h.1 h.2, pixelLookup, hb, unlessRefused_none, hr, need_some,
    result_of_host (by exact h.1)]

/-- A lookup whose part of the `LUT` is written and whose buffers are admitted writes its row at `LINE_OUT`. -/
theorem exec_plOp_of_holds {s : State} {l : Layout} {tab : Nat → Byte} (h : hostIdle s)
    (hl : lutHolds s.lut (layoutSize l) tab)
    (hb : twoBufferRefusal s [lineInSpan s (layoutPacking l)] [lineOutSpan s] = none) :
    ∃ m, exec (plOp l) s = .next { s with mem := m, resHost := 0#32 } ∧
      rowIs m s.operands.lineOut.toNat s.operands.width.toNat
        (lookByte l tab (lineByte s (layoutPacking l)) s.operands.width.toNat) ∧
      keptOutside (lineOutSpan s) s.mem m := by
  have hrow := lookLayout_of_holds hl (lineIn s (layoutPacking l)) s.operands.width.toNat
  rw [funext (inByte_lineIn s (layoutPacking l))] at hrow
  exact ⟨_, exec_plOp_of_row h hb hrow, rowIs_memWriteRun _ _ _ _⟩

/-- Settles O25: the row where the `LUT` is written, and no row where one of a byte's two entries is missing. -/
theorem pl1P64KWritesRow : Obligations.Pl1P64KWritesRow := by
  refine ⟨(decodeIffEncode _ _).mpr ⟨trivial, rfl⟩, fun s h hb =>
    ⟨fun tab hl => exec_plOp_of_holds (l := .l1p64k) h hl hb, fun q hq hn => ?_⟩⟩
  refine pixelLookup_fault h hb (lookRow_eq_none hq ?_)
  simp only [inByte_lineIn, Nat.mul_comm 256]
  rcases hn with hn | hn
  · rw [hn]
  · rw [hn]
    split
    · contradiction
    · rfl

/-- Settles O26: every entry that is looked up is among the first 1024. -/
theorem pl1P1KWritesRow : Obligations.Pl1P1KWritesRow :=
  ⟨(decodeIffEncode _ _).mpr ⟨trivial, rfl⟩, fun _ _ h hl hb => exec_plOp_of_holds (l := .l1p1k) h hl hb⟩

/-- Settles O27: the static colour is the table's, so the lookup is that of the layout with any colour. -/
theorem pl2P64KWritesRow : Obligations.Pl2P64KWritesRow :=
  ⟨(decodeIffEncode _ _).mpr ⟨trivial, rfl⟩, fun _ _ h hl hb => exec_plOp_of_holds (l := .l2p64k 0#4) h hl hb⟩

/-- Settles O28: as O26, and as O27 for the static colour. -/
theorem pl2P1KWritesRow : Obligations.Pl2P1KWritesRow :=
  ⟨(decodeIffEncode _ _).mpr ⟨trivial, rfl⟩, fun _ _ h hl hb => exec_plOp_of_holds (l := .l2p1k 0#4) h hl hb⟩

/-- Settles O29: an input byte and its low nibble moved up are both indices below 256. -/
theorem pl8PWritesRow : Obligations.Pl8PWritesRow :=
  ⟨(decodeIffEncode _ _).mpr ⟨trivial, rfl⟩, fun _ _ h hl hb => exec_plOp_of_holds (l := .l8p false) h hl hb⟩

/-! ### `PL.AUTO` (R169) -/

theorem exec_plAuto_of_error {s : State} {e : Word} (h : hostIdle s) (he : selectLayout s.mode s.ctrl = .error e) :
    exec .plAuto s = .next { s with error := s.error ||| e, resHost := e } := by
  rw [exec, execPlAuto, allowed_host h.1 h.2, he]
  exact congrArg _ (result_of_host (s := flagError e s) h.1 e)

/-- Where a layout is selected, `PL.AUTO` is its direct operation. -/
theorem exec_plAuto_of_ok {s : State} {l : Layout} (hl : selectLayout s.mode s.ctrl = .ok l) :
    exec .plAuto s = exec (plOp l) s := by
  rw [exec, execPlAuto, hl, exec_plOp]

/-- Settles O30: the selection decides between the flag and the direct operation. -/
theorem plAutoLooksUpSelected : Obligations.PlAutoLooksUpSelected := by
  refine ⟨(decodeIffEncode _ _).mpr ⟨trivial, rfl⟩, fun s h =>
    ⟨fun _ => exec_plAuto_of_error h, fun _ => exec_plAuto_of_ok, fun l tab hs hl hb => ?_⟩⟩
  obtain ⟨m, hm, -, -⟩ := exec_plOp_of_holds h hl hb
  exact ⟨_, (exec_plAuto_of_ok hs).trans hm⟩

/-! ### Pixels and their codes (R170, R171, R230) -/

/-- Pixel `x` of a line in a packing, from the bytes of the line (R8, R70, R73, R74). -/
def packedPixel (p : Packing) (bytes : Nat → Byte) (x : Nat) : Byte :=
  match p with
  | .diff1 => bytes x
  | .fb4 => (nibbleOf (bytes (x / 2)) x).setWidth 8
  | .mono8 => if (bytes (x / 8)).getLsbD (7 - x % 8) then 1#8 else 0#8

/-- The pixels of the line of a stand-alone lookup are those of the bytes it reads. -/
theorem linePixel_eq_packedPixel (s : State) (p : Packing) {x : Nat} (hx : x < s.operands.width.toNat) :
    linePixel s p x = packedPixel p (fun i => (lineIn s p).getD i 0#8) x := by
  have hbyte (i : Nat) (hi : i < lineLength p s.operands.width.toNat) :
      (lineIn s p).getD i 0#8 = memRead s.mem (s.operands.lineIn.toNat + i) := memReadRun_getD _ _ _ _ hi
  cases p with
  | diff1 => exact (hbyte x (by simp only [lineLength, pixelsPerByte, ceilDiv]; omega)).symm
  | fb4 => rw [packedPixel, hbyte (x / 2) (by simp only [lineLength, pixelsPerByte, ceilDiv]; omega)]; rfl
  | mono8 => rw [packedPixel, hbyte (x / 8) (by simp only [lineLength, pixelsPerByte, ceilDiv]; omega)]; rfl

/-- Four columns of a byte, each by its number. -/
theorem pair_quad {p0 p1 p2 p3 : Code} (g : Nat → Code) (h0 : p0 = g 0) (h1 : p1 = g 1) (h2 : p2 = g 2) (h3 : p3 = g 3)
    {i : Nat} (hi : i < 4) : pair (quad p0 p1 p2 p3) i = g i := by
  have : i = 0 ∨ i = 1 ∨ i = 2 ∨ i = 3 := by omega
  rcases this with rfl | rfl | rfl | rfl
  · rw [pair_quad_zero, h0]
  · rw [pair_quad_one, h1]
  · rw [pair_quad_two, h2]
  · rw [pair_quad_three, h3]

/-- Where one entry alone has something in a pair, ORing the entries puts that there. -/
theorem pair_foldl_or {e : Nat → Byte} {i k : Nat} {c : Code} {ps : List Nat}
    (h : ∀ p ∈ ps, pair (e p) i = if p = k then c else 0#2) (acc : Byte) :
    pair (ps.foldl (fun out p => out ||| e p) acc) i = if k ∈ ps then pair acc i ||| c else pair acc i := by
  induction ps generalizing acc with
  | nil => rfl
  | cons p ps ih =>
    rw [List.foldl_cons, ih (fun x hx => h x (List.mem_cons_of_mem _ hx)), pair_or, h p List.mem_cons_self]
    by_cases hp : p = k
    · simp [hp, BitVec.or_assoc]
    · simp [hp, Ne.symm hp]

theorem pair_foldl_or_zero {e : Nat → Byte} {i k : Nat} {c : Code} {ps : List Nat}
    (h : ∀ p ∈ ps, pair (e p) i = if p = k then c else 0#2) (hk : k ∈ ps) :
    pair (ps.foldl (fun out p => out ||| e p) 0x00#8) i = c := by
  have hzero : pair 0x00#8 i = 0#2 := BitVec.extractLsb'_zero
  rw [pair_foldl_or h, if_pos hk, hzero, BitVec.zero_or]

/-- The two codes of an entry of 1P64K are its low nibble (R164). -/
theorem lo4_append_lo4_quad (p0 p1 p2 p3 : Code) :
    lo4 (quad 0#2 0#2 p0 p1) ++ lo4 (quad 0#2 0#2 p2 p3) = quad p0 p1 p2 p3 := by
  revert p0 p1 p2 p3; decide

theorem pair_shifted_other : ∀ p < 4, ∀ i < 4, p ≠ i → ∀ c : Code, pair (c.setWidth 8 <<< (6 - 2 * p)) i = 0#2 := by
  decide

theorem lo4_setWidth (v : Nibble) : lo4 (v.setWidth 8) = v := by
  revert v; decide

/-- Moving the low nibble to the high one, as an index (R168). -/
theorem toNat_mul_sixteen_mod (b : Byte) : b.toNat * 16 % 256 = (b <<< 4).toNat := by
  rw [BitVec.toNat_shiftLeft, Nat.shiftLeft_eq]

/-- The entry that a build writes at an index is the one read there. -/
theorem layoutEntry_of_lutRead {s : State} {l : Layout} {i : Nat} {e : Byte} (hi : i < layoutSize l)
    (h : lutRead (builtLut s l) i = some e) : layoutEntry s l i = e :=
  Option.some.inj ((lutHolds_builtLut s l i hi).symm.trans h)

/-- A 1P1K entry has the code of its transition byte in the pair of its sub-table, and nothing beside it (R144). -/
theorem pair_entry1P1K (s : State) {p i : Nat} (hp : p < 4) (hi : i < 4) (v : Byte) :
    pair (layoutEntry s .l1p1k (256 * p + v.toNat)) i = if p = i then phaseCode s (hi4 v) (lo4 v) else 0#2 := by
  rw [layoutEntry_of_lutRead (show _ < 1024 by omega) (lutRead_built1P1K s hp v)]
  split
  · rw [← ‹p = i›, pair_shifted p hp]
  · exact pair_shifted_other p hp i hi ‹_› _

/-- A 2P1K entry has the codes of its two pixels in the nibble of its sub-table, and nothing beside them (R147). -/
theorem pair_entry2P1K (s : State) (f : Nibble) {n i : Nat} (hi : i < 4) (b : Byte) :
    pair (layoutEntry s (.l2p1k f) (256 * (n % 4) + b.toNat)) i =
      if n % 2 = i / 2 then phaseCode s (nibbleOf b i) f else 0#2 := by
  rw [layoutEntry_of_lutRead (show _ < 1024 by omega) (lutRead_built2P1K s f (Nat.mod_lt n (by decide)) b),
    Nat.mod_mod_of_dvd n (by decide)]
  rcases Nat.mod_two_eq_zero_or_one n with h | h
  · rw [h]
    exact pair_quad (fun j => if 0 = j / 2 then phaseCode s (nibbleOf b j) f else 0#2) rfl rfl rfl rfl hi
  · rw [h]
    exact pair_quad (fun j => if 1 = j / 2 then phaseCode s (nibbleOf b j) f else 0#2) rfl rfl rfl rfl hi

/-- A 64 KB 1P entry has the codes of its two transition bytes in its low nibble (R143). -/
theorem layoutEntry_1P64K (s : State) (d0 d1 : Byte) : layoutEntry s .l1p64k (d0.toNat + d1.toNat * 256) =
    quad 0#2 0#2 (phaseCode s (hi4 d0) (lo4 d0)) (phaseCode s (hi4 d1) (lo4 d1)) :=
  layoutEntry_of_lutRead (show _ < 65536 by omega) (lutRead_built1P64K s d0 d1)

/-- A 64 KB 2P entry has the codes of its four pixels, left to right (R146). -/
theorem layoutEntry_2P64K (s : State) (f : Nibble) (b0 b1 : Byte) :
    layoutEntry s (.l2p64k f) (b0.toNat + b1.toNat * 256) =
      quad (phaseCode s (hi4 b0) f) (phaseCode s (lo4 b0) f) (phaseCode s (hi4 b1) f) (phaseCode s (lo4 b1) f) :=
  layoutEntry_of_lutRead (show _ < 65536 by omega) (lutRead_built2P64K s f b0 b1)

/-! ### One pixel of a row, layout by layout -/

section

variable (s : State) (bytes : Nat → Byte) {w q i : Nat} (hi : i < 4)

include hi

theorem pair_lookByte_1P64K : pair (lookByte .l1p64k (layoutEntry s .l1p64k) (fun j => (bytes j).toNat) w q) i =
    phaseCode s (hi4 (bytes (4 * q + i))) (lo4 (bytes (4 * q + i))) := by
  rw [lookByte, layoutEntry_1P64K, layoutEntry_1P64K, lo4_append_lo4_quad]
  exact pair_quad (fun j => phaseCode s (hi4 (bytes (4 * q + j))) (lo4 (bytes (4 * q + j)))) rfl rfl rfl rfl hi

theorem pair_lookByte_1P1K (hw : 4 * q + i < w) :
    pair (lookByte .l1p1k (layoutEntry s .l1p1k) (fun j => (bytes j).toNat) w q) i =
      phaseCode s (hi4 (bytes (4 * q + i))) (lo4 (bytes (4 * q + i))) := by
  have hmem : i ∈ (List.range 4).filter (fun p => decide (4 * q + p < w)) := by simp [hi, hw]
  refine pair_foldl_or_zero (fun p hp => ?_) hmem
  rw [pair_entry1P1K s (List.mem_range.mp (List.mem_of_mem_filter hp)) hi]
  split
  · rw [‹p = i›]
  · rfl

theorem pair_lookByte_2P64K (f : Nibble) :
    pair (lookByte (.l2p64k f) (layoutEntry s (.l2p64k f)) (fun j => (bytes j).toNat) w q) i =
      phaseCode s (nibbleOf (bytes (2 * q + i / 2)) i) f := by
  rw [lookByte, layoutEntry_2P64K]
  refine pair_quad (fun j => phaseCode s (nibbleOf (bytes (2 * q + j / 2)) j) f) ?_ ?_ ?_ ?_ hi <;> rfl

theorem pair_lookByte_2P1K (f : Nibble) (hw : 4 * q + i < w) :
    pair (lookByte (.l2p1k f) (layoutEntry s (.l2p1k f)) (fun j => (bytes j).toNat) w q) i =
      phaseCode s (nibbleOf (bytes (2 * q + i / 2)) i) f := by
  have hmem : 2 * q + i / 2 ∈ [2 * q, 2 * q + 1].filter (fun n => decide (n < ceilDiv w 2)) := by
    simp only [List.mem_filter, List.mem_cons, List.not_mem_nil, or_false, decide_eq_true_eq, ceilDiv]
    omega
  refine pair_foldl_or_zero (fun n hn => ?_) hmem
  have hn : n = 2 * q ∨ n = 2 * q + 1 := by simpa using List.mem_of_mem_filter hn
  rw [pair_entry2P1K s f hi]
  by_cases h : n = 2 * q + i / 2
  · rw [if_pos h, if_pos (by omega), h]
  · rw [if_neg h, if_neg (by omega)]

theorem pair_lookByte_8P (fw : Bool) :
    pair (lookByte (.l8p fw) (layoutEntry s (.l8p fw)) (fun j => (bytes j).toNat) w q) i =
      monoCode s.cfg fw ((bytes ((4 * q + i) / 8)).getLsbD (7 - (4 * q + i) % 8)) := by
  have hbyte : (4 * q + i) / 8 = q / 2 := by omega
  rw [lookByte, hbyte]
  split
  · have hbit : 7 - (4 * q + i) % 8 = 7 - i := by omega
    rw [hbit]
    exact pair_entry8P s.cfg fw (bytes (q / 2)) hi
  · have hbit : 7 - (4 * q + i) % 8 = 7 - i - 4 := by omega
    have hshift : (bytes (q / 2) <<< 4).getLsbD (7 - i) = (bytes (q / 2)).getLsbD (7 - i - 4) := by
      rw [BitVec.getLsbD_shiftLeft, decide_eq_true (by omega), decide_eq_false (by omega), Bool.not_false,
        Bool.true_and, Bool.true_and]
    rw [hbit, toNat_mul_sixteen_mod, ← hshift]
    exact pair_entry8P s.cfg fw (bytes (q / 2) <<< 4) hi

end

/-- Pixel `i` of output byte `q` is a nibble of input byte `2q` or `2q + 1` (R70). -/
theorem nibbleOf_pixel (bytes : Nat → Byte) (q i : Nat) :
    nibbleOf (bytes ((4 * q + i) / 2)) (4 * q + i) = nibbleOf (bytes (2 * q + i / 2)) i := by
  have hbyte : (4 * q + i) / 2 = 2 * q + i / 2 := by omega
  have hside : (4 * q + i) % 2 = i % 2 := by omega
  rw [hbyte, nibbleOf, hside, nibbleOf]

theorem getLsbD_bit (b : Bool) : (if b then 1#8 else 0#8).getLsbD 0 = b := by
  revert b; decide

/-- Every pixel that a lookup in the layout's own table gives is the action code of that pixel alone (R170, R171). -/
theorem pair_lookByte (s : State) (l : Layout) (bytes : Nat → Byte) {w q i : Nat} (hi : i < 4) (hw : 4 * q + i < w) :
    pair (lookByte l (layoutEntry s l) (fun j => (bytes j).toNat) w q) i =
      pixelCode s l (packedPixel (layoutPacking l) bytes (4 * q + i)) := by
  cases l with
  | l1p64k => exact pair_lookByte_1P64K s bytes hi
  | l1p1k => exact pair_lookByte_1P1K s bytes hi hw
  | l2p64k f =>
    rw [pair_lookByte_2P64K s bytes hi f, ← nibbleOf_pixel, pixelCode, layoutPacking, packedPixel, lo4_setWidth]
  | l2p1k f =>
    rw [pair_lookByte_2P1K s bytes hi f hw, ← nibbleOf_pixel, pixelCode, layoutPacking, packedPixel, lo4_setWidth]
  | l8p fw => rw [pair_lookByte_8P s bytes hi fw, pixelCode, layoutPacking, packedPixel, getLsbD_bit]

/-- Settles O32: the build leaves the layout's table, and the lookup reads each pixel's code out of it. -/
theorem lookupGivesPixelCodes : Obligations.LookupGivesPixelCodes := by
  intro s t u l hlb hlut hidle hb
  have hl : lutHolds u.lut (layoutSize l) (layoutEntry s l) := by
    rw [hlut, lut_of_exec_lbOp hlb]
    exact lutHolds_builtLut s l
  obtain ⟨m, hm, hrow, -⟩ := exec_plOp_of_holds hidle hl hb
  rw [← funext (inByte_lineIn u (layoutPacking l))] at hrow
  have hcol (x : Nat) (hx : x < 4 * ceilDiv u.operands.width.toNat 4) :=
    hrow (x / 4) (by omega) (x % 4) (Nat.mod_lt _ (by decide))
  simp only [Nat.div_add_mod] at hcol
  refine ⟨m, hm, fun x hx => ?_, fun x hx hx4 => ?_⟩
  · rw [hcol x (by simp only [ceilDiv]; omega), if_pos hx, linePixel_eq_packedPixel u _ hx]
    have := pair_lookByte s l (fun i => (lineIn u (layoutPacking l)).getD i 0#8) (Nat.mod_lt x (by decide : 0 < 4))
      (w := u.operands.width.toNat) (q := x / 4) (by omega)
    rwa [Nat.div_add_mod] at this
  · rw [hcol x hx4, if_neg (by omega)]

end Sys2Proof.Machine
end

section
/-! SUPPORT. `DIFF` (43_difference.md): the pixels of a valid crop, the bytes it writes, the dirty rows and columns, the
uniformity flags and the bounding rectangle. -/

namespace Sys2Proof.Machine

/-! ### The crop (R182) -/

theorem cropValid_eq_true {s : State} : cropValid s = true ↔
    0 ≤ s.operands.dcropX.toInt ∧ 0 ≤ s.operands.dcropY.toInt ∧
    s.operands.dcropW.toNat ≤ 65535 ∧ s.operands.dcropH.toNat ≤ 65535 ∧
    s.operands.dcropX.toInt + s.operands.dcropW.toNat ≤ s.cfg.width ∧
    s.operands.dcropY.toInt + s.operands.dcropH.toNat ≤ s.cfg.height := by
  simp only [cropValid, Bool.and_eq_true, decide_eq_true_eq, and_assoc]
  exact Iff.rfl

theorem mem_rectCols {r : Rect} {x : Nat} : x ∈ rectCols r ↔ r.x.toNat ≤ x ∧ x < r.x.toNat + r.w := by
  rw [rectCols, ← List.range'_eq_map_range, List.mem_range'_1]

theorem mem_rectRows {r : Rect} {y : Nat} : y ∈ rectRows r ↔ r.y.toNat ≤ y ∧ y < r.y.toNat + r.h := by
  rw [rectRows, ← List.range'_eq_map_range, List.mem_range'_1]

theorem mem_rectPixels {r : Rect} {x y : Nat} : (x, y) ∈ rectPixels r ↔ x ∈ rectCols r ∧ y ∈ rectRows r := by
  simp [rectPixels, and_comm]

/-! ### The bytes written (R181, R183) -/

/-- Storing a byte at each address of a list of items leaves every other address as it was. -/
theorem memRead_foldl_memWrite_other {α : Type} (addr : α → Nat) (byte : α → Byte) (m : Cells) {ps : List α}
    {a : Nat} (h : ∀ p ∈ ps, a ≠ addr p) :
    memRead (ps.foldl (fun m p => memWrite m (addr p) (byte p)) m) a = memRead m a := by
  induction ps generalizing m with
  | nil => rfl
  | cons p ps ih =>
    rw [List.forall_mem_cons] at h
    rw [List.foldl_cons, ih _ h.2, memRead_memWrite_other h.1]

/-- Storing a byte for each item, where items with one address have one byte, leaves each item's byte at its address. -/
theorem memRead_foldl_memWrite_same {α : Type} (addr : α → Nat) (byte : α → Byte) (m : Cells) {ps : List α}
    {p : α} (hp : p ∈ ps) (h : ∀ q ∈ ps, addr q = addr p → byte q = byte p) :
    memRead (ps.foldl (fun m p => memWrite m (addr p) (byte p)) m) (addr p) = byte p := by
  induction ps using List.reverseRecOn with
  | nil => cases hp
  | append_singleton ps q ih =>
    rw [List.foldl_append, List.foldl_cons, List.foldl_nil]
    by_cases hq : addr q = addr p
    · rw [← hq, memRead_memWrite_same, h q (by simp) hq]
    · have hps : p ∈ ps := by
        rcases List.mem_append.mp hp with hp | hp
        · exact hp
        · exact absurd (congrArg addr (List.mem_singleton.mp hp).symm) hq
      rw [memRead_memWrite_other (Ne.symm hq), ih hps fun r hr => h r (List.mem_append_left _ hr)]

/-! ### Folds of OR and AND over colours (R181, R185) -/

/-- A bit of an accumulated OR is set when it is set in the start value or in one of the values. -/
theorem getLsbD_foldl_or {α : Type} (f : α → Nibble) (ys : List α) (acc : Nibble) (i : Nat) :
    (ys.foldl (fun acc y => acc ||| f y) acc).getLsbD i = true ↔
      acc.getLsbD i = true ∨ ∃ y ∈ ys, (f y).getLsbD i = true := by
  induction ys generalizing acc with
  | nil => simp
  | cons y ys ih => rw [List.foldl_cons, ih]; simp [or_assoc]

theorem foldl_or_eq_zero {α : Type} (f : α → Nibble) (ys : List α) (acc : Nibble) :
    ys.foldl (fun acc y => acc ||| f y) acc = 0#4 ↔ acc = 0#4 ∧ ∀ y ∈ ys, f y = 0#4 := by
  induction ys generalizing acc with
  | nil => simp
  | cons y ys ih => rw [List.foldl_cons, ih, BitVec.or_eq_zero_iff, List.forall_mem_cons, and_assoc]

theorem foldl_and_eq_fifteen (fs : List Nibble) (acc : Nibble) :
    fs.foldl (· &&& ·) acc = 15#4 ↔ acc = 15#4 ∧ ∀ f ∈ fs, f = 15#4 := by
  induction fs generalizing acc with
  | nil => simp
  | cons f fs ih =>
    rw [List.foldl_cons, ih, show 15#4 = BitVec.allOnes 4 from rfl, BitVec.and_eq_allOnes_iff, List.forall_mem_cons,
      and_assoc]

theorem allWhite_eq_true {fs : List Nibble} : allWhite fs = true ↔ ∀ f ∈ fs, f = 15#4 := by
  rw [allWhite, beq_iff_eq, foldl_and_eq_fifteen]
  exact and_iff_right rfl

theorem allBlack_eq_true {fs : List Nibble} : allBlack fs = true ↔ ∀ f ∈ fs, f = 0#4 := by
  rw [allBlack, beq_iff_eq, show (· ||| ·) = fun acc (f : Nibble) => acc ||| id f from rfl, foldl_or_eq_zero]
  exact and_iff_right rfl

theorem changeNibble_eq_zero {s : State} {x y : Nat} : changeNibble s x y = 0#4 ↔ ¬ changed s x y := by
  rw [changeNibble, BitVec.xor_eq_zero_iff, not_not]

/-! ### A valid `DIFF`, part by part -/

section

variable {s : State} (hc : cropValid s = true)

include hc

/-- In a valid crop, whose origin is not negative, the columns and rows are those of the pixels in it (R11). -/
theorem inCrop_iff {x y : Nat} : inCrop s x y ↔ x ∈ rectCols (diffCrop s) ∧ y ∈ rectRows (diffCrop s) := by
  obtain ⟨hx, hy, -⟩ := cropValid_eq_true.mp hc
  rw [mem_rectCols, mem_rectRows]
  simp only [diffCrop]
  omega

theorem inCrop_iff_mem_rectPixels {x y : Nat} : inCrop s x y ↔ (x, y) ∈ rectPixels (diffCrop s) := by
  rw [inCrop_iff hc, mem_rectPixels]

theorem lt_of_inCrop {x y : Nat} (h : inCrop s x y) : x < s.cfg.width ∧ y < s.cfg.height :=
  rectPixels_of_cropValid hc ((inCrop_iff_mem_rectPixels hc).mp h)

/-- Every pixel of the crop has its transition byte: two pixels have two addresses, as a row has `W` bytes (R73). -/
theorem memRead_diffMem_inCrop {x y : Nat} (h : inCrop s x y) :
    memRead (diffMem s) (diffAddr s x y) = transitionByte s x y := by
  refine memRead_foldl_memWrite_same (fun p : Nat × Nat => diffAddr s p.1 p.2) (fun p => transitionByte s p.1 p.2)
    s.mem (p := (x, y)) ((inCrop_iff_mem_rectPixels hc).mp h) ?_
  rintro ⟨x', y'⟩ hp haddr
  have hrow : y' * s.cfg.width + x' = y * s.cfg.width + x := by
    simpa only [diffAddr, Nat.add_assoc, Nat.add_left_cancel_iff] using haddr
  obtain ⟨rfl, rfl⟩ := row_offset_inj (lt_of_inCrop hc h).1 (rectPixels_of_cropValid hc hp).1 hrow
  rfl

theorem memRead_diffMem_other {a : Nat} (h : ∀ x y, inCrop s x y → a ≠ diffAddr s x y) :
    memRead (diffMem s) a = memRead s.mem a :=
  memRead_foldl_memWrite_other _ _ _ fun p hp => h p.1 p.2 ((inCrop_iff_mem_rectPixels hc).mpr hp)

theorem lineDirty_diffLines {y : Nat} (hy : y < s.cfg.height) :
    lineDirty (diffLines s) y = true ↔ ∃ x, inCrop s x y ∧ changed s x y := by
  simp only [lineDirty, diffLines, List.getD_eq_getElem?_getD, List.getElem?_map, List.getElem?_range hy,
    Option.map_some, Option.getD_some, Bool.and_eq_true, List.contains_iff_mem, List.any_eq_true, bne_iff_ne, ne_eq,
    changeNibble_eq_zero, not_not, inCrop_iff hc]
  exact ⟨fun ⟨hy, x, hx, hd⟩ => ⟨x, ⟨hx, hy⟩, hd⟩, fun ⟨x, ⟨hx, hy⟩, hd⟩ => ⟨hy, x, hx, hd⟩⟩

/-- The columns outside the crop have no change, as those in it where no pixel has the bit (R42, R184). -/
theorem getLsbD_columnOr (x i : Nat) :
    (columnOr s x).getLsbD i = true ↔ ∃ y, inCrop s x y ∧ (changeNibble s x y).getLsbD i = true := by
  simp only [columnOr, List.contains_iff_mem, inCrop_iff hc]
  split
  · rename_i hx
    simp [getLsbD_foldl_or, hx]
  · rename_i hx
    simp [hx]

theorem columnOr_eq_zero (x : Nat) : columnOr s x = 0#4 ↔ ∀ y, inCrop s x y → ¬ changed s x y := by
  simp only [columnOr, List.contains_iff_mem, inCrop_iff hc]
  split
  · rename_i hx
    simp [foldl_or_eq_zero, changeNibble_eq_zero, hx]
  · rename_i hx
    simp [hx]

omit hc in
/-- The two columns of a byte of `DIRTY_COLS` are its two nibbles (R42). -/
theorem nibbleOf_diffCols {x : Nat} (hx : x < s.cfg.width) :
    nibbleOf ((diffCols s).getD (x / 2) 0#8) x = columnOr s x := by
  have hbyte : x / 2 < s.cfg.colBytes := by simp only [Config.colBytes, ceilDiv]; omega
  simp only [diffCols, List.getD_eq_getElem?_getD, List.getElem?_map, List.getElem?_range hbyte, Option.map_some,
    Option.getD_some, nibbleOf, hi4_append, lo4_append]
  split
  · rw [show 2 * (x / 2) = x by omega]
  · rw [show 2 * (x / 2) + 1 = x by omega]

theorem colDirty_diffCols {x : Nat} (hx : x < s.cfg.width) :
    colDirty (diffCols s) x = true ↔ ∃ y, inCrop s x y ∧ changed s x y := by
  rw [colDirty, nibbleOf_diffCols hx, bne_iff_ne, ne_eq, columnOr_eq_zero hc]
  push Not
  rfl

theorem forall_fromPixels {P : Nibble → Prop} :
    (∀ f ∈ fromPixels s, P f) ↔ ∀ x y, inCrop s x y → P (fromPixel s x y) := by
  simp only [fromPixels, List.forall_mem_map, Prod.forall, inCrop_iff_mem_rectPixels hc]

end

/-! ### The operation -/

theorem exec_diff_of_valid {s : State} (h : hostIdle s) (hc : cropValid s = true)
    (hb : twoBufferRefusal s (diffReads s) (diffWrites s) = none) :
    exec .diff s = .next { diffed s with resHost := 0#32 } := by
  rw [exec, execDiff, allowed_host h.1 h.2, if_pos hc, hb, unlessRefused_none]
  exact congrArg _ (result_of_host (s := diffed s) h.1 _)

theorem exec_diff_of_invalid {s : State} (h : hostIdle s) (hc : cropValid s = false) :
    exec .diff s = .next { s with error := s.error ||| 0x040#32, resHost := 0x040#32 } := by
  rw [exec, execDiff, allowed_host h.1 h.2, if_neg (Bool.not_eq_true _ ▸ hc)]
  exact congrArg _ (result_of_host (s := flagError errInvalidCrop s) h.1 _)

/-- Settles O33: the test is its six conditions, and its failure is one branch of the operation. -/
theorem diffInvalidCrop : Obligations.DiffInvalidCrop :=
  fun _ => ⟨cropValid_eq_true, exec_diff_of_invalid⟩

/-- Settles O34: what each part of the next state holds. -/
theorem diffWrites_spec : Obligations.DiffWrites := by
  refine ⟨(decodeIffEncode _ _).mpr ⟨trivial, rfl⟩, fun s h hc hb => ⟨_, exec_diff_of_valid h hc hb, rfl,
    fun x y => memRead_diffMem_inCrop hc, fun a => memRead_diffMem_other hc, fun y => lineDirty_diffLines hc,
    fun x hx i _ => ?_, ?_, ?_⟩⟩
  · exact (congrArg (BitVec.getLsbD · i = true) (nibbleOf_diffCols hx)).to_iff.trans (getLsbD_columnOr hc x i)
  · exact allWhite_eq_true.trans (forall_fromPixels hc)
  · exact allBlack_eq_true.trans (forall_fromPixels hc)

/-! ### The bounding rectangle (R186) -/

/-- A search through a list in order finds an element that comes first. -/
theorem find?_le {α : Type} {le : α → α → Prop} (hrefl : ∀ a, le a a) {xs : List α} (hxs : xs.Pairwise le)
    {p : α → Bool} {a : α} (h : xs.find? p = some a) : ∀ b ∈ xs, p b = true → le a b := by
  obtain ⟨-, as, bs, rfl, has⟩ := List.find?_eq_some_iff_append.mp h
  intro b hb hp
  rcases List.mem_append.mp hb with hb | hb
  · exact absurd hp (by simpa using has b hb)
  · rcases List.mem_cons.mp hb with rfl | hb
    · exact hrefl b
    · exact List.rel_of_pairwise_cons (List.pairwise_append.mp hxs).2.1 hb

theorem leastBelow_isLeast {p : Nat → Bool} {n a : Nat} (h : leastBelow p n = some a) :
    IsLeast {i | i < n ∧ p i = true} a :=
  ⟨⟨List.mem_range.mp (List.mem_of_find?_eq_some h), List.find?_some h⟩, fun b hb =>
    find?_le le_refl List.pairwise_le_range h b (List.mem_range.mpr hb.1) hb.2⟩

theorem greatestBelow_isGreatest {p : Nat → Bool} {n a : Nat} (h : greatestBelow p n = some a) :
    IsGreatest {i | i < n ∧ p i = true} a :=
  ⟨⟨List.mem_range.mp (List.mem_reverse.mp (List.mem_of_find?_eq_some h)), List.find?_some h⟩, fun b hb =>
    find?_le (le := (· ≥ ·)) le_refl (List.pairwise_reverse.mpr List.pairwise_le_range) h b
      (List.mem_reverse.mpr (List.mem_range.mpr hb.1)) hb.2⟩

/-- Both searches succeed where there is something to find, and enclose all of it. -/
theorem exists_extremes {p : Nat → Bool} {n : Nat} (h : {i | i < n ∧ p i = true}.Nonempty) :
    ∃ a b, leastBelow p n = some a ∧ greatestBelow p n = some b ∧
      IsLeast {i | i < n ∧ p i = true} a ∧ IsGreatest {i | i < n ∧ p i = true} b := by
  obtain ⟨i, hi, hp⟩ := h
  obtain ⟨a, ha⟩ := Option.isSome_iff_exists.mp (List.find?_isSome.mpr ⟨i, List.mem_range.mpr hi, hp⟩)
  obtain ⟨b, hb⟩ := Option.isSome_iff_exists.mp
    (List.find?_isSome.mpr ⟨i, List.mem_reverse.mpr (List.mem_range.mpr hi), hp⟩)
  exact ⟨a, b, ha, hb, leastBelow_isLeast ha, greatestBelow_isGreatest hb⟩

theorem boundingRect_clean {w h : Nat} {lines : List Bool} (cols : List Byte)
    (hl : ∀ y < h, lineDirty lines y = false) : boundingRect w h lines cols = (0#32, 0#32, 0#32, 0#32) := by
  have hnone : leastBelow (lineDirty lines) h = none :=
    List.find?_eq_none.mpr fun y hy => by simp [hl y (List.mem_range.mp hy)]
  rw [boundingRect, hnone]

/-- An origin and a length, as a rectangle register holds them, that enclose a set of coordinates and touch it at
both ends (R186). -/
structure Encloses (c : Set Nat) (origin length : Word) : Prop where
  inside : ∀ i ∈ c, origin.toNat ≤ i ∧ i < origin.toNat + length.toNat
  first : ∃ i ∈ c, i = origin.toNat
  last : ∃ i ∈ c, i + 1 = origin.toNat + length.toNat

/-- The least and the greatest coordinate, with `greatest - least + 1`, fit a register below `2^32 - 1` (R189). -/
theorem encloses_of_extremes {c : Set Nat} {a b : Nat} (ha : IsLeast c a) (hb : IsGreatest c b) (hlt : b < 2 ^ 32 - 1) :
    Encloses c (BitVec.ofNat 32 a) (BitVec.ofNat 32 (b - a + 1)) := by
  have hab : a ≤ b := ha.2 hb.1
  have horigin : (BitVec.ofNat 32 a).toNat = a := Nat.mod_eq_of_lt (by omega)
  have hlength : (BitVec.ofNat 32 (b - a + 1)).toNat = b - a + 1 := Nat.mod_eq_of_lt (by omega)
  refine ⟨fun i hi => ?_, ⟨a, ha.1, horigin.symm⟩, ⟨b, hb.1, by omega⟩⟩
  have := ha.2 hi
  have := hb.2 hi
  omega

/-- `BoundingRect` on a display whose dirty columns are `cs` and whose dirty rows are `rs` encloses both. -/
theorem boundingRect_encloses {w h : Nat} {lines : List Bool} {cols : List Byte} {cs rs : Set Nat}
    (hcs : {x | x < w ∧ colDirty cols x = true} = cs) (hrs : {y | y < h ∧ lineDirty lines y = true} = rs)
    (hc : cs.Nonempty) (hr : rs.Nonempty) (hx : ∀ x ∈ cs, x < 2 ^ 32 - 1) (hy : ∀ y ∈ rs, y < 2 ^ 32 - 1) :
    Encloses cs (boundingRect w h lines cols).1 (boundingRect w h lines cols).2.2.1 ∧
      Encloses rs (boundingRect w h lines cols).2.1 (boundingRect w h lines cols).2.2.2 := by
  subst hcs hrs
  obtain ⟨x0, x1, hx0, hx1, hleastX, hgreatestX⟩ := exists_extremes hc
  obtain ⟨y0, y1, hy0, hy1, hleastY, hgreatestY⟩ := exists_extremes hr
  rw [boundingRect, hy0, hy1, hx0, hx1]
  exact ⟨encloses_of_extremes hleastX hgreatestX (hx x1 hgreatestX.1),
    encloses_of_extremes hleastY hgreatestY (hy y1 hgreatestY.1)⟩

/-- The coordinates of a crop's pixels are below `2^31 + 2^16` (R189). -/
theorem lt_word_of_inCrop {s : State} {x y : Nat} (hc : cropValid s = true) (h : inCrop s x y) :
    x < 2 ^ 32 - 1 ∧ y < 2 ^ 32 - 1 := by
  obtain ⟨-, -, hw, hh, -⟩ := cropValid_eq_true.mp hc
  have hx : s.operands.dcropX.toInt < 2 ^ 31 := BitVec.toInt_lt
  have hy : s.operands.dcropY.toInt < 2 ^ 31 := BitVec.toInt_lt
  obtain ⟨-, hxw, -, hyh⟩ := h
  omega

/-- The columns that `BoundingRect` finds dirty after a valid `DIFF` are those with a changed pixel (R186). -/
theorem dirtyCols_eq {s : State} (hc : cropValid s = true) :
    {x | x < s.cfg.width ∧ colDirty (diffCols s) x = true} = {x | ∃ y, inCrop s x y ∧ changed s x y} := by
  ext x
  exact ⟨fun ⟨hx, hd⟩ => (colDirty_diffCols hc hx).mp hd, fun ⟨y, h⟩ =>
    have hx := (lt_of_inCrop hc h.1).1
    ⟨hx, (colDirty_diffCols hc hx).mpr ⟨y, h⟩⟩⟩

theorem dirtyLines_eq {s : State} (hc : cropValid s = true) :
    {y | y < s.cfg.height ∧ lineDirty (diffLines s) y = true} = {y | ∃ x, inCrop s x y ∧ changed s x y} := by
  ext y
  exact ⟨fun ⟨hy, hd⟩ => (lineDirty_diffLines hc hy).mp hd, fun ⟨x, h⟩ =>
    have hy := (lt_of_inCrop hc h.1).2
    ⟨hy, (lineDirty_diffLines hc hy).mpr ⟨x, h⟩⟩⟩

/-- The rectangle of a valid `DIFF` encloses the columns and the rows of the changed pixels (R186). -/
theorem diffed_encloses {s : State} (hc : cropValid s = true) (h : ∃ x y, inCrop s x y ∧ changed s x y) :
    Encloses {x | ∃ y, inCrop s x y ∧ changed s x y} (diffed s).rectX (diffed s).rectW ∧
      Encloses {y | ∃ x, inCrop s x y ∧ changed s x y} (diffed s).rectY (diffed s).rectH := by
  obtain ⟨x, y, hxy⟩ := h
  exact boundingRect_encloses (dirtyCols_eq hc) (dirtyLines_eq hc) ⟨x, y, hxy⟩ ⟨y, x, hxy⟩
    (fun _ ⟨_, hi, _⟩ => (lt_word_of_inCrop hc hi).1) (fun _ ⟨_, hi, _⟩ => (lt_word_of_inCrop hc hi).2)

/-- Nothing is dirty where no pixel changed (R187). -/
theorem boundingRect_diffed_unchanged {s : State} (hc : cropValid s = true)
    (h : ∀ x y, inCrop s x y → ¬ changed s x y) :
    boundingRect s.cfg.width s.cfg.height (diffLines s) (diffCols s) = (0#32, 0#32, 0#32, 0#32) := by
  refine boundingRect_clean _ fun y hy => Bool.eq_false_iff.mpr fun hd => ?_
  obtain ⟨x, hi, hxy⟩ := (lineDirty_diffLines hc hy).mp hd
  exact h x y hi hxy

/-- Settles O35: the zero rectangle, or the extremes of the columns and rows of the changed pixels. -/
theorem diffRectangle : Obligations.DiffRectangle := by
  refine fun s h hc hb => ⟨_, exec_diff_of_valid h hc hb, fun hnone => ?_, fun hsome => ?_⟩
  · simp only [diffed, boundingRect_diffed_unchanged hc hnone, and_self]
  · obtain ⟨hcols, hrows⟩ := diffed_encloses hc hsome
    obtain ⟨left, ⟨y, hl⟩, hleft⟩ := hcols.first
    obtain ⟨right, ⟨y', hr⟩, hright⟩ := hcols.last
    obtain ⟨top, ⟨x, ht⟩, htop⟩ := hrows.first
    obtain ⟨bottom, ⟨x', hb⟩, hbottom⟩ := hrows.last
    refine ⟨fun x y hi hd => ?_, ⟨left, y, hl.1, hl.2, hleft⟩, ⟨right, y', hr.1, hr.2, hright⟩,
      ⟨x, top, ht.1, ht.2, htop⟩, ⟨x', bottom, hb.1, hb.2, hbottom⟩⟩
    obtain ⟨hx, hxw⟩ := hcols.inside x ⟨y, hi, hd⟩
    obtain ⟨hy, hyh⟩ := hrows.inside y ⟨x, hi, hd⟩
    exact ⟨hx, hxw, hy, hyh⟩

end Sys2Proof.Machine
end

section
/-! SUPPORT. The Line Queue (44_line_queue.md): what each operation answers and does to its queue (R201 to R205). -/

namespace Sys2Proof.Machine

/-! ### The words of the operations (R110, R112) -/

theorem laneUnit_wellFormed (q : Lane) : unitOk (laneUnit q) := unitOk_iff.mpr ⟨q, rfl⟩

theorem laneUnit_inj {q k : Lane} (h : laneUnit q = laneUnit k) : q = k :=
  Option.some.inj ((laneOf_laneUnit q).symm.trans ((congrArg laneOf h).trans (laneOf_laneUnit k)))

/-! ### The state after a claim on a queue (R307) -/

section
variable (q : Lane) (s : State)

@[simp] theorem withProducer_cfg : (withProducer q s).cfg = s.cfg := setQueue_cfg _ _ _

@[simp] theorem withProducer_operands : (withProducer q s).operands = s.operands := setQueue_operands _ _ _

@[simp] theorem withProducer_mem : (withProducer q s).mem = s.mem := setQueue_mem _ _ _

@[simp] theorem withProducer_mask : (withProducer q s).mask = s.mask := setQueue_mask _ _ _

@[simp] theorem withProducer_issuer : (withProducer q s).issuer = s.issuer := setQueue_issuer _ _ _

@[simp] theorem getQueue_withProducer :
    getQueue q (withProducer q s) = { getQueue q s with producer := some s.issuer } := getQueue_setQueue_same _ _ _

@[simp] theorem setQueue_withProducer (x : Queue) : setQueue q x (withProducer q s) = setQueue q x s :=
  setQueue_setQueue _ _ _ _

@[simp] theorem withConsumer_cfg : (withConsumer q s).cfg = s.cfg := setQueue_cfg _ _ _

@[simp] theorem withConsumer_operands : (withConsumer q s).operands = s.operands := setQueue_operands _ _ _

@[simp] theorem withConsumer_mem : (withConsumer q s).mem = s.mem := setQueue_mem _ _ _

@[simp] theorem withConsumer_issuer : (withConsumer q s).issuer = s.issuer := setQueue_issuer _ _ _

@[simp] theorem getQueue_withConsumer :
    getQueue q (withConsumer q s) = { getQueue q s with consumer := some s.issuer } := getQueue_setQueue_same _ _ _

/-- A claimed queue is written, and `MEM` with it, as if it were not claimed. -/
theorem setQueue_withConsumer_mem (x : Queue) (m : Cells) :
    setQueue q x { withConsumer q s with mem := m } = setQueue q x { s with mem := m } := by
  cases q <;> rfl

end

theorem result_of_issuer {s t : State} (h : t.issuer = s.issuer) (v : Word) : result v t = setRes s.issuer v t := by
  rw [result, h]

/-! ### The operations, case by case -/

section
variable {s : State} {q : Lane}

theorem exec_lqCurrent_of (hi : s.issuer = .host ∨ s.issuer = lanePort q) (hh : issuerHeld s = false)
    (hs : s.seq = .idle) :
    exec (.lqCurrent (laneUnit q)) s = .next (setRes s.issuer
      (if queueFull s.cfg (getQueue q s) = true then 0xFFFFFFFF#32 else BitVec.ofNat 32 (getQueue q s).cur) s) := by
  rw [exec, execLqCurrent, withUnit_laneUnit, allowed_of (mem_producerPorts.mpr hi) hh hs]
  split <;> rfl

section
variable (hi : s.issuer = .host ∨ s.issuer = lanePort q) (hh : issuerHeld s = false) (hs : s.seq = .idle)
  (hp : mayProduce q s)
include hi hh hs hp

/-- On a legal port in `IDLE` a producer's operation is its body, after the claim (R120, R307). -/
theorem producerOp_of (k : State → Out) :
    allowed (producerPorts q) .idle s (asProducer q s k) = k (withProducer q s) := by
  rw [allowed_of (mem_producerPorts.mpr hi) hh hs, asProducer_of hp]

theorem exec_lqWrite_of_full (hf : queueFull s.cfg (getQueue q s) = true) :
    exec (.lqWrite (laneUnit q)) s = .next (setRes s.issuer 0xFFFFFFFF#32 (withProducer q s)) := by
  rw [exec, execLqWrite, withUnit_laneUnit, producerOp_of hi hh hs hp, queueFull_withProducer, if_pos hf,
    result_of_issuer (withProducer_issuer q s)]
  rfl

theorem exec_lqWrite_of_room (hf : queueFull s.cfg (getQueue q s) = false)
    (hb : bufferRefusal s [queueInSpan s] [] = none) :
    exec (.lqWrite (laneUnit q)) s = .next (setRes s.issuer 0#32 (setQueue q
      { putCurrent (memReadRun s.mem s.operands.lineIn.toNat s.cfg.lineBytes) (getQueue q s) with
        producer := some s.issuer, midSequence := true } s)) := by
  rw [exec, execLqWrite, withUnit_laneUnit, producerOp_of hi hh hs hp, queueFull_withProducer, hf,
    if_neg Bool.false_ne_true, queueInSpan_withProducer, bufferRefusal_of_cfg (withProducer_cfg q s), hb,
    unlessRefused_none, setQueue_withProducer, result_of_issuer (setQueue_issuer _ _ _), getQueue_withProducer,
    withProducer_cfg, withProducer_mem, withProducer_operands]
  rfl

theorem exec_lqCommit_of_full (hf : queueFull s.cfg (getQueue q s) = true) :
    exec (.lqCommit (laneUnit q)) s = .refused .commitOnFull := by
  rw [exec, execLqCommit, withUnit_laneUnit, producerOp_of hi hh hs hp, queueFull_withProducer, hf]
  rfl

/-- A commit where there is room asks for the slot's row. -/
theorem exec_lqCommit_of_room (hf : queueFull s.cfg (getQueue q s) = false) :
    exec (.lqCommit (laneUnit q)) s =
      need (slotRead (getQueue q s) (getQueue q s).cur) .slotUnwritten (fun row =>
        .next (setRes s.issuer 0#32 (setQueue q
          { advanceCur s.cfg (putCurrent (andRow row s.mask) (getQueue q s)) with
            producer := some s.issuer, midSequence := false } s))) := by
  rw [exec, execLqCommit, withUnit_laneUnit, producerOp_of hi hh hs hp, queueFull_withProducer, hf]
  simp only [Bool.not_false, require_true, setQueue_withProducer, result_of_issuer (setQueue_issuer _ _ _),
    getQueue_withProducer, withProducer_cfg, withProducer_mask]
  rfl

end

section
variable (hi : s.issuer = .host ∨ s.issuer = .feeder) (hs : s.seq = .idle) (hc : mayConsume q s)
include hi hs hc

/-- On a legal port in `IDLE` the consumer's operation is its body, after the claim (R120, R307). -/
theorem consumerOp_of (k : State → Out) :
    allowed [.host, .feeder] .idle s (asConsumer q s k) = k (withConsumer q s) := by
  have hh : issuerHeld s = false := by
    rcases hi with h | h
    · exact issuerHeld_of_host h
    · exact issuerHeld_of_feeder h
  rw [allowed_of (by simpa using hi) hh hs, asConsumer_of hc]

theorem exec_lqRead_of_empty (he : queueEmpty s.cfg (getQueue q s) = true) :
    exec (.lqRead (laneUnit q)) s = .next (setRes s.issuer 1#32 (withConsumer q s)) := by
  rw [exec, execLqRead, withUnit_laneUnit, consumerOp_of hi hs hc, queueEmpty_withConsumer, if_pos he,
    result_of_issuer (withConsumer_issuer q s)]

theorem exec_lqRead_of_row (he : queueEmpty s.cfg (getQueue q s) = false)
    (hb : bufferRefusal s [] [queueOutSpan s] = none) {row : Row}
    (hr : slotRead (getQueue q s) (getQueue q s).last = some row) :
    exec (.lqRead (laneUnit q)) s = .next (setRes s.issuer 0#32 (setQueue q
      { advanceLast s.cfg (getQueue q s) with consumer := some s.issuer }
      { s with mem := memWriteRun s.mem s.operands.lineOut.toNat row })) := by
  have hr' : slotRead (getQueue q (withConsumer q s)) (getQueue q (withConsumer q s)).last = some row := by
    rw [getQueue_withConsumer]
    exact hr
  rw [exec, execLqRead, withUnit_laneUnit, consumerOp_of hi hs hc, queueEmpty_withConsumer, he,
    if_neg Bool.false_ne_true, queueOutSpan_withConsumer, bufferRefusal_of_cfg (withConsumer_cfg q s), hb,
    unlessRefused_none, hr', need_some, setQueue_withConsumer_mem, getQueue_withConsumer, withConsumer_cfg,
    withConsumer_mem, withConsumer_operands]
  exact congrArg _ (result_of_issuer (setQueue_issuer _ _ _) _)

end

theorem exec_lqReset_of (h : hostIdle s) : exec (.lqReset (laneUnit q)) s =
    require (!(getQueue q s).midSequence) .queueInUse
      (.next (setRes .host 0#32 (setQueue q (emptyQueue (getQueue q s)) s))) := by
  rw [exec, execLqReset, withUnit_laneUnit, allowed_host h.1 h.2, result_of_issuer (setQueue_issuer _ _ _), h.1]

end

/-! ### The bytes of a stored row -/

theorem memRead_memWriteRun_same (m : Cells) (a : Nat) (bs : List Byte) {i : Nat} (h : i < bs.length) :
    memRead (memWriteRun m a bs) (a + i) = bs.getD i 0#8 := by
  rw [memRead_memWriteRun, if_pos (by omega), Nat.add_sub_cancel_left]

theorem keptOutside_memWriteRun {p : Span} {bs : List Byte} (h : bs.length = p.len) (m : Cells) :
    keptOutside p m (memWriteRun m p.base bs) := by
  intro a ha
  have hout : ¬ (p.base ≤ a ∧ a < p.base + p.len) := fun h =>
    Bool.false_ne_true (ha.symm.trans (spanHas_eq_true.mpr h))
  rw [memRead_memWriteRun, h, if_neg hout]

/-! ### The statements -/

/-- Settles O36: the two answers of the operation on a legal port. -/
theorem lqCurrentAnswersSlot : Obligations.LqCurrentAnswersSlot :=
  ⟨fun q => (decodeIffEncode _ _).mpr ⟨laneUnit_wellFormed q, commandWord_unit 0x40 _⟩,
    fun _ _ hi hh hs => exec_lqCurrent_of hi hh hs⟩

/-- Settles O37: the row stored is what `MEM` holds at `LINE_IN`. -/
theorem lqWriteFillsSlot : Obligations.LqWriteFillsSlot :=
  ⟨fun q => (decodeIffEncode _ _).mpr ⟨laneUnit_wellFormed q, commandWord_unit 0x41 _⟩,
    fun s _ hi hh hs hp => ⟨exec_lqWrite_of_full hi hh hs hp, fun hf hb =>
      ⟨memReadRun s.mem s.operands.lineIn.toNat s.cfg.lineBytes, memReadRun_length _ _ _,
        fun i => memReadRun_getD _ _ _ i, exec_lqWrite_of_room hi hh hs hp hf hb⟩⟩⟩

/-- Settles O38: a commit with room depends on whether the slot was written. -/
theorem lqCommitMasksAndAdvances : Obligations.LqCommitMasksAndAdvances := by
  refine ⟨fun q => (decodeIffEncode _ _).mpr ⟨laneUnit_wellFormed q, commandWord_unit 0x42 _⟩,
    fun s q hi hh hs hp => ⟨exec_lqCommit_of_full hi hh hs hp, fun hf hr => ?_, fun row hf hr hlen hmask => ?_⟩⟩
  · rw [exec_lqCommit_of_room hi hh hs hp hf, hr, need_none]
  · refine ⟨andRow row s.mask, by simp [hlen, hmask], fun i h => andRow_getD _ _ _ (by omega) (by omega), ?_⟩
    rw [exec_lqCommit_of_room hi hh hs hp hf, hr, need_some]
    rfl

/-- Settles O39: the row of the oldest slot is stored at `LINE_OUT`. -/
theorem lqReadCopiesOldest : Obligations.LqReadCopiesOldest :=
  ⟨fun q => (decodeIffEncode _ _).mpr ⟨laneUnit_wellFormed q, commandWord_unit 0x43 _⟩,
    fun s _ hi hs hc => ⟨exec_lqRead_of_empty hi hs hc, fun row he hb hr hlen =>
      ⟨memWriteRun s.mem s.operands.lineOut.toNat row, exec_lqRead_of_row hi hs hc he hb hr,
        fun _ h => memRead_memWriteRun_same _ _ _ (hlen ▸ h), keptOutside_memWriteRun hlen s.mem⟩⟩⟩

/-- Settles O40: only a producer in mid-sequence stands in the way of the reset. -/
theorem lqResetEmptiesQueue : Obligations.LqResetEmptiesQueue := by
  refine ⟨fun q => (decodeIffEncode _ _).mpr ⟨laneUnit_wellFormed q, commandWord_unit 0x44 _⟩,
    fun s q h => ⟨fun hm => ?_, fun hm => ?_⟩⟩
  · rw [exec_lqReset_of h, hm]
    rfl
  · rw [exec_lqReset_of h, hm]
    rfl

end Sys2Proof.Machine
end

section
/-! SUPPORT. The committed rows of a Line Queue as a sequence: commits extend it at its end, reads take its head,
nothing else changes it (R206, R208); and how many rows fit (R207). -/

namespace Sys2Proof.Machine

/-! ### The ring -/

/-- The place `i` after `a` is `i` ahead of it, within one round. -/
theorem ahead_add_mod {c : Config} {a i : Nat} (ha : a < c.qcap) (hi : i < c.qcap) :
    ahead c a ((a + i) % c.qcap) = i := by
  rw [ahead_eq ha (Nat.mod_lt _ (by omega))]
  by_cases h : a + i < c.qcap
  · rw [Nat.mod_eq_of_lt h, if_pos (by omega), Nat.add_sub_cancel_left]
  · rw [Nat.mod_eq_sub_mod (by omega), Nat.mod_eq_of_lt (by omega), if_neg (by omega)]
    omega

@[simp] theorem length_committedRows (c : Config) (x : Queue) : (committedRows c x).length = queueCount c x := by
  simp [committedRows]

/-- The writable slot holds no committed row (R90, R206). -/
theorem place_ne_cur {c : Config} {x : Queue} (hlast : x.last < c.qcap) {i : Nat}
    (hi : i < queueCount c x) : (x.last + i) % c.qcap ≠ x.cur := by
  intro h
  have hlt : queueCount c x < c.qcap := ahead_lt hlast x.cur
  have hi' : ahead c x.last x.cur = i := h ▸ ahead_add_mod hlast (by omega)
  exact absurd hi' (Nat.ne_of_gt hi)

theorem slotRead_putCurrent_cur {c : Config} {x : Queue} (hcur : x.cur < c.qcap) (hlen : x.slots.length = c.qcap)
    (row : Row) : slotRead (putCurrent row x) x.cur = some row := by
  rw [slotRead_putCurrent _ _ _ (hlen ▸ hcur), if_pos rfl]

/-- Each byte of a row of `LINE_BYTES` bytes is ANDed with the mask's (R203). -/
theorem andRow_bytes {c : Config} {row mask : List Byte} (hr : row.length = c.lineBytes)
    (hm : mask.length = c.lineBytes) :
    ∀ i < c.lineBytes, (andRow row mask).getD i 0#8 = row.getD i 0#8 &&& mask.getD i 0#8 :=
  fun _ hi => andRow_getD _ _ _ (hr ▸ hi) (hm ▸ hi)

section
variable {c : Config} {x : Queue} (hcur : x.cur < c.qcap) (hlast : x.last < c.qcap)
include hcur hlast

/-- A write of the current slot changes no committed row (R202). -/
theorem committedRows_putCurrent (hlen : x.slots.length = c.qcap) (row : Row) :
    committedRows c (putCurrent row x) = committedRows c x := by
  refine List.map_congr_left fun i hi => ?_
  show slotRead (putCurrent row x) ((x.last + i) % c.qcap) = slotRead x ((x.last + i) % c.qcap)
  rw [slotRead_putCurrent _ _ _ (hlen ▸ hcur), if_neg (place_ne_cur hlast (List.mem_range.mp hi))]

/-- Advancing `Qq_CUR` where there is room appends the current slot's row (R203). -/
theorem committedRows_advanceCur (hroom : nextIndex c x.cur ≠ x.last) :
    committedRows c (advanceCur c x) = committedRows c x ++ [slotRead x x.cur] := by
  have hcount : queueCount c (advanceCur c x) = queueCount c x + 1 := ahead_nextIndex hlast hcur hroom
  have hplace : (x.last + queueCount c x) % c.qcap = x.cur := add_ahead_mod hlast hcur
  rw [committedRows, hcount, List.range_succ, List.map_append, List.map_singleton]
  exact congrArg (fun i => committedRows c x ++ [slotRead x i]) hplace

/-- Advancing `Qq_LAST` of a queue with a row takes its oldest row away (R204). -/
theorem committedRows_advanceLast (hrow : x.cur ≠ x.last) :
    committedRows c x = slotRead x x.last :: committedRows c (advanceLast c x) := by
  have hcount : queueCount c x = queueCount c (advanceLast c x) + 1 := (ahead_of_nextIndex hlast hcur hrow).symm
  rw [committedRows, hcount, List.range_succ_eq_map, List.map_cons, List.map_map, Nat.add_zero, Nat.mod_eq_of_lt hlast]
  refine congrArg _ (List.map_congr_left fun i _ => ?_)
  exact congrArg (slotRead x) (nextIndex_add_mod c x.last i).symm

/-- A row put in the current slot and committed is the newest committed row (R203, R226). -/
theorem committedRows_commit (hlen : x.slots.length = c.qcap) (hroom : nextIndex c x.cur ≠ x.last) (row : Row) :
    committedRows c (advanceCur c (putCurrent row x)) = committedRows c x ++ [some row] := by
  have hslot : slotRead (putCurrent row x) (putCurrent row x).cur = some row := slotRead_putCurrent_cur hcur hlen row
  rw [committedRows_advanceCur (x := putCurrent row x) hcur hlast hroom, committedRows_putCurrent hcur hlast hlen,
    hslot]

end

/-! ### The sequence of a queue in order (R206) -/

theorem committedRows_of_commit {c : Config} {x : Queue} (hok : QueueOk c x) (hsized : QueueSized c x)
    (hf : queueFull c x = false) (row : Row) :
    committedRows c (advanceCur c (putCurrent row x)) = committedRows c x ++ [some row] := by
  obtain ⟨hcur, hlast, -, -⟩ := hok.1
  exact committedRows_commit hcur hlast hsized.1 (nextIndex_cur_ne hok hf).1 row

theorem committedRows_of_take {c : Config} {x : Queue} (hok : QueueOk c x) (he : queueEmpty c x = false) {row : Row}
    (hr : slotRead x x.last = some row) : committedRows c x = some row :: committedRows c (advanceLast c x) := by
  obtain ⟨hcur, hlast, -, -⟩ := hok.1
  rw [committedRows_advanceLast hcur hlast (last_ne_of_not_empty hok he).1, hr]

/-! ### The produce step (R226, R229) -/

/-- A rendering that goes on, goes on with one row of `LINE_BYTES` bytes, whatever it goes on to (R229). -/
theorem renderRow_of_next {s t : State} {r : Nat} {k : Row → Out} (h : renderRow s r k = .next t) :
    ∃ row : Row, row.length = s.cfg.lineBytes ∧ (∀ k : Row → Out, renderRow s r k = k row) ∧ k row = .next t := by
  rcases renderRow_eq_next h with ⟨ha, hk⟩ | ⟨ha, l, row, hl, hb, hr, hk⟩
  · exact ⟨noopRow s.cfg, noopRow_length _, fun k => by rw [renderRow, ha, if_neg Bool.false_ne_true], hk⟩
  · refine ⟨row, renderActive_length hr, fun k => ?_, hk⟩
    rw [renderRow, if_pos ha, hl]
    simp only [hb, unlessRefused_none, hr, need_some]

theorem getQueue_fetchComplete (l k : Lane) (s : State) : getQueue k (fetchComplete l s) = getQueue k s := by
  cases l <;> cases k <;> rfl

theorem getQueue_produced (l : Lane) (row : Row) (s : State) :
    getQueue l (produced l row s) = advanceCur s.cfg (putCurrent (andRow row s.mask) (getQueue l s)) := by
  rw [produced, getQueue_fetchComplete, getQueue_setQueue_same]

/-- A produce step of an unfinished frame puts the rendered row in the queue (R226). -/
theorem produceStep_of_next {s t : State} {q : Lane} (hfd : s.fdone = false) (h : produceStep q s = .next t) :
    ∃ row : Row, row.length = s.cfg.lineBytes ∧ (∀ k : Row → Out, renderRow s (getLane q s).row k = k row) ∧
      t = produced q row s := by
  rw [produceStep, hfd, if_neg Bool.false_ne_true] at h
  obtain ⟨row, hlen, hk, ht⟩ := renderRow_of_next h
  exact ⟨row, hlen, hk, (Host.Outcome.next.inj ht).symm⟩

/-! ### The operations that commit or take a row -/

section
variable {s t : State} {q : Lane} (hok : QueueOk s.cfg (getQueue q s)) (hsized : QueueSized s.cfg (getQueue q s))
include hok hsized

theorem lqWrite_keeps_committedRows (h : exec (.lqWrite (laneUnit q)) s = .next t) :
    committedRows t.cfg (getQueue q t) = committedRows s.cfg (getQueue q s) := by
  obtain ⟨k, hk, -, -, hcase⟩ := exec_lqWrite_eq_next h
  obtain rfl := laneUnit_inj hk
  rcases hcase with ⟨-, rfl⟩ | ⟨-, -, rfl⟩
  · simp only [result_cfg, withProducer_cfg, getQueue_result, getQueue_withProducer]
    rfl
  · simp only [result_cfg, setQueue_cfg, withProducer_cfg, getQueue_result, getQueue_setQueue_same,
      getQueue_withProducer]
    obtain ⟨hcur, hlast, -, -⟩ := hok.1
    exact committedRows_putCurrent hcur hlast hsized.1 _

theorem lqCommit_appends (hmask : s.mask.length = s.cfg.lineBytes) (h : exec (.lqCommit (laneUnit q)) s = .next t) :
    ∃ row masked : Row, slotRead (getQueue q s) (getQueue q s).cur = some row ∧
      (∀ i < s.cfg.lineBytes, masked.getD i 0#8 = row.getD i 0#8 &&& s.mask.getD i 0#8) ∧
      committedRows t.cfg (getQueue q t) = committedRows s.cfg (getQueue q s) ++ [some masked] := by
  obtain ⟨k, row, hk, -, -, hf, hr, rfl⟩ := exec_lqCommit_eq_next h
  obtain rfl := laneUnit_inj hk
  refine ⟨row, andRow row s.mask, hr, andRow_bytes (queueSized_slotRead hsized hr) hmask, ?_⟩
  simp only [result_cfg, setQueue_cfg, withProducer_cfg, getQueue_result, getQueue_setQueue_same,
    getQueue_withProducer]
  exact committedRows_of_commit hok hsized hf _

theorem produce_appends (hmask : s.mask.length = s.cfg.lineBytes) {rest : List Event}
    (hin : s.inbox = .produce q :: rest) (hbusy : (getLane q s).busy = true) (hfd : s.fdone = false)
    (hf : queueFull s.cfg (getQueue q s) = false) (h : step s = .next t) :
    ∃ row masked : Row, (∀ k : Row → Out, renderRow s (getLane q s).row k = k row) ∧
      (∀ i < s.cfg.lineBytes, masked.getD i 0#8 = row.getD i 0#8 &&& s.mask.getD i 0#8) ∧
      committedRows t.cfg (getQueue q t) = committedRows s.cfg (getQueue q s) ++ [some masked] := by
  rw [step, hin] at h
  have hen : produceEnabled q { s with inbox := rest } = true := by
    simp [produceEnabled, hbusy, hf]
  rcases scheduleLane_eq_next h with ⟨-, h⟩ | ⟨hno, -⟩
  · obtain ⟨row, hlen, hk, rfl⟩ := produceStep_of_next (s := { s with inbox := rest }) hfd h
    rw [getLane_with_inbox] at hk
    refine ⟨row, andRow row s.mask, hk, andRow_bytes hlen hmask, ?_⟩
    have hcfg : (produced q row { s with inbox := rest }).cfg = s.cfg := by
      cases q <;> rfl
    rw [hcfg, getQueue_produced, getQueue_with_inbox]
    exact committedRows_of_commit hok hsized hf _
  · exact absurd hen (by simp [hno])

theorem lqRead_takes_oldest (h : exec (.lqRead (laneUnit q)) s = .next t)
    (he : queueEmpty s.cfg (getQueue q s) = false) :
    ∃ row : Row, committedRows s.cfg (getQueue q s) = some row :: committedRows t.cfg (getQueue q t) ∧
      ∀ i < s.cfg.lineBytes, memRead t.mem (s.operands.lineOut.toNat + i) = row.getD i 0#8 := by
  obtain ⟨k, hk, -, -, hcase⟩ := exec_lqRead_eq_next h
  obtain rfl := laneUnit_inj hk
  rcases hcase with ⟨he', -⟩ | ⟨row, -, -, hr, rfl⟩
  · exact absurd he' (by simp [he])
  · refine ⟨row, ?_, fun i hi => ?_⟩
    · simp only [result_cfg, setQueue_cfg, withConsumer_cfg, getQueue_result, getQueue_setQueue_same,
        getQueue_withConsumer]
      exact committedRows_of_take hok he hr
    · simp only [result_mem, setQueue_mem]
      exact memRead_memWriteRun_same _ _ _ (queueSized_slotRead hsized hr ▸ hi)

end

theorem lqRead_of_empty_keeps_committedRows {s t : State} {q : Lane} (h : exec (.lqRead (laneUnit q)) s = .next t)
    (he : queueEmpty s.cfg (getQueue q s) = true) :
    committedRows t.cfg (getQueue q t) = committedRows s.cfg (getQueue q s) := by
  obtain ⟨k, hk, -, -, hcase⟩ := exec_lqRead_eq_next h
  obtain rfl := laneUnit_inj hk
  rcases hcase with ⟨-, rfl⟩ | ⟨row, he', -⟩
  · simp only [result_cfg, withConsumer_cfg, getQueue_result, getQueue_withConsumer]
    rfl
  · exact absurd he (by simp [he'])

/-! ### `FEED` -/

theorem getQueue_deliver (q : Lane) (row : Row) (starved : Bool) (s : State) :
    getQueue q (deliver row starved s) = getQueue q s := by
  rw [deliver, getQueue_result]
  cases q <;> rfl

/-- The row of queue `q` at the head of the bus leaves the queue for the trace (R227). -/
theorem feedStep_takes_oldest {s t : State} {q : Lane} (hok : QueueOk s.cfg (getQueue q s))
    (h : feedStep s = .next t) (hnext : s.linesConsumed < s.lineNext)
    (hthread : s.lineThreads[s.linesConsumed]? = some (some q)) (he : queueEmpty s.cfg (getQueue q s) = false) :
    ∃ row : Row, committedRows s.cfg (getQueue q s) = some row :: committedRows t.cfg (getQueue q t) ∧
      t.busOut = s.busOut ++ [{ phase := s.phase, row := s.linesConsumed, starved := false,
                                bytes := reorder s.cfg row }] := by
  rw [feedStep, if_pos hnext, hthread, Option.join_some, need_some, he, if_neg Bool.false_ne_true, deliverFrom] at h
  obtain ⟨row, hr, h⟩ := need_eq_next.mp h
  obtain rfl := Host.Outcome.next.inj h
  refine ⟨row, ?_, ?_⟩
  · rw [getQueue_deliver, getQueue_setQueue_same, committedRows_of_take hok he hr]
    simp only [deliver, result_cfg, setQueue_cfg]
  · simp only [deliver, result_busOut, setQueue_busOut, setQueue_phase, setQueue_linesConsumed, setQueue_cfg]

/-- A delivery that is not of a row of queue `q` leaves the queue's rows (R227). -/
theorem feedStep_keeps_committedRows {s t : State} {q : Lane} (h : feedStep s = .next t)
    (hno : ¬ (s.linesConsumed < s.lineNext ∧ s.lineThreads[s.linesConsumed]? = some (some q) ∧
      queueEmpty s.cfg (getQueue q s) = false)) :
    committedRows t.cfg (getQueue q t) = committedRows s.cfg (getQueue q s) := by
  rcases feedStep_eq_next h with rfl | ⟨k, row, hnext, hthread, he, -, rfl⟩
  · rw [deliverStarved, getQueue_deliver, getQueue_flagError]
    simp only [deliver, result_cfg, flagError_cfg]
  · have hk : q ≠ k := by
      rintro rfl
      exact hno ⟨hnext, Option.join_eq_some_iff.mp hthread, he⟩
    rw [getQueue_deliver, getQueue_setQueue_other hk]
    simp only [deliver, result_cfg, setQueue_cfg]

/-- The state in which `FEED` delivers: the feeder is the consumer of both queues (R307, log 15). -/
def claimedByFeeder (s : State) : State := withConsumer .one (withConsumer .zero s)

theorem getQueue_claimedByFeeder (q : Lane) (s : State) :
    getQueue q (claimedByFeeder s) = { getQueue q s with consumer := some s.issuer } := by
  cases q <;> rfl

theorem committedRows_claimedByFeeder (q : Lane) (s : State) :
    committedRows (claimedByFeeder s).cfg (getQueue q (claimedByFeeder s)) = committedRows s.cfg (getQueue q s) := by
  rw [getQueue_claimedByFeeder]
  rfl

theorem queueEmpty_claimedByFeeder (q : Lane) (s : State) :
    queueEmpty (claimedByFeeder s).cfg (getQueue q (claimedByFeeder s)) = queueEmpty s.cfg (getQueue q s) := by
  rw [getQueue_claimedByFeeder]
  rfl

theorem queueOk_claimedByFeeder {q : Lane} {s : State} (h : QueueOk s.cfg (getQueue q s)) :
    QueueOk (claimedByFeeder s).cfg (getQueue q (claimedByFeeder s)) := by
  rw [getQueue_claimedByFeeder]
  exact h

section
variable {s t : State} {q : Lane} (h : exec .feed s = .next t)
include h

theorem feed_takes_oldest (hok : QueueOk s.cfg (getQueue q s))
    (hfrom : s.linesConsumed < s.cfg.height ∧ s.linesConsumed < s.lineNext ∧
      s.lineThreads[s.linesConsumed]? = some (some q) ∧ queueEmpty s.cfg (getQueue q s) = false) :
    ∃ row : Row, committedRows s.cfg (getQueue q s) = some row :: committedRows t.cfg (getQueue q t) ∧
      t.busOut = s.busOut ++ [{ phase := s.phase, row := s.linesConsumed, starved := false,
                                bytes := reorder s.cfg row }] := by
  obtain ⟨hleft, hnext, hthread, he⟩ := hfrom
  obtain ⟨-, -, ⟨hdone, -⟩ | ⟨-, -, -, hstep⟩⟩ := exec_feed_eq_next h
  · exact absurd hleft (Nat.not_lt.mpr hdone)
  · have hrow := feedStep_takes_oldest (queueOk_claimedByFeeder hok) hstep hnext hthread
      ((queueEmpty_claimedByFeeder q s).trans he)
    rwa [committedRows_claimedByFeeder] at hrow

theorem feed_keeps_committedRows
    (hno : ¬ (s.linesConsumed < s.cfg.height ∧ s.linesConsumed < s.lineNext ∧
      s.lineThreads[s.linesConsumed]? = some (some q) ∧ queueEmpty s.cfg (getQueue q s) = false)) :
    committedRows t.cfg (getQueue q t) = committedRows s.cfg (getQueue q s) := by
  obtain ⟨-, -, ⟨-, rfl⟩ | ⟨hleft, -, -, hstep⟩⟩ := exec_feed_eq_next h
  · cases q <;> rfl
  · rw [← committedRows_claimedByFeeder q s]
    refine feedStep_keeps_committedRows hstep fun hfrom => hno ⟨hleft, ?_⟩
    exact queueEmpty_claimedByFeeder q s ▸ hfrom

end

/-- Settles O41: each operation on a queue, by what it does to the sequence of committed rows. -/
theorem queueFirstInFirstOut : Obligations.QueueFirstInFirstOut :=
  fun _ _ _ _ hok hsized hmask =>
    ⟨lqCommit_appends hok hsized hmask, fun _ => produce_appends hok hsized hmask,
      fun h => ⟨lqRead_takes_oldest hok hsized h, lqRead_of_empty_keeps_committedRows h⟩,
      fun h => ⟨feed_takes_oldest h hok, feed_keeps_committedRows h⟩, lqWrite_keeps_committedRows hok hsized⟩

/-! ### Capacity (R207) -/

/-- Without `CDC_LAG` a queue is full exactly when it holds `QCAP - 1` rows (R200). -/
theorem queueFull_iff_queueCount {c : Config} {x : Queue} (hlag : c.cdcLag = false) (hcur : x.cur < c.qcap)
    (hlast : x.last < c.qcap) : queueFull c x = true ↔ queueCount c x = c.qcap - 1 := by
  have hcount : queueCount c x = if x.last ≤ x.cur then x.cur - x.last else x.cur + c.qcap - x.last :=
    ahead_eq hlast hcur
  have hnext := nextIndex_eq hcur
  rw [queueFull_eq_true, lastSeen, hlag, if_neg Bool.false_ne_true, hcount]
  change nextIndex c x.cur = x.last ↔ _
  split_ifs at * <;> omega

/-- Without `CDC_LAG` a queue with a row is not empty for its consumer (R200). -/
theorem not_queueEmpty_of_queueCount_pos {c : Config} {x : Queue} (hlag : c.cdcLag = false) (hlast : x.last < c.qcap)
    (h : 0 < queueCount c x) : x.cur ≠ x.last ∧ queueEmpty c x = false := by
  have hne : x.cur ≠ x.last := fun he => by
    have hzero : queueCount c x = 0 := (congrArg (ahead c x.last) he).trans (ahead_self hlast)
    omega
  exact ⟨hne, by simp [queueEmpty, curSeen, hlag, hne]⟩

/-- What the pushes and reads of port `p` need of a queue, and keep: indices in the ring, `QCAP` slots, no other
producer or consumer, and every committed row there (R206, R307). -/
structure OwnQueue (c : Config) (p : Port) (x : Queue) : Prop where
  cur_lt : x.cur < c.qcap
  last_lt : x.last < c.qcap
  slots_length : x.slots.length = c.qcap
  producer : x.producer = none ∨ x.producer = some p
  consumer : x.consumer = none ∨ x.consumer = some p
  written : ∀ o ∈ committedRows c x, o.isSome = true

/-- What the host's pushes and reads of queue `q` need of a state without `CDC_LAG`, and keep. -/
structure HostReady (q : Lane) (s : State) : Prop where
  idle : hostIdle s
  noLag : s.cfg.cdcLag = false
  input : bufferRefusal s [queueInSpan s] [] = none
  output : bufferRefusal s [] [queueOutSpan s] = none
  queue : OwnQueue s.cfg s.issuer (getQueue q s)

theorem OwnQueue.write {c : Config} {p : Port} {x : Queue} (h : OwnQueue c p x) (row : Row) :
    OwnQueue c p { putCurrent row x with producer := some p, midSequence := true } where
  cur_lt := h.cur_lt
  last_lt := h.last_lt
  slots_length := List.length_set.trans h.slots_length
  producer := .inr rfl
  consumer := h.consumer
  written := by
    have hrows := committedRows_putCurrent h.cur_lt h.last_lt h.slots_length row
    exact fun o ho => h.written o (hrows ▸ ho)

theorem OwnQueue.commit {c : Config} {p : Port} {x : Queue} (h : OwnQueue c p x)
    (hroom : nextIndex c x.cur ≠ x.last) (row : Row) :
    OwnQueue c p { advanceCur c (putCurrent row x) with producer := some p, midSequence := false } where
  cur_lt := nextIndex_lt h.cur_lt
  last_lt := h.last_lt
  slots_length := List.length_set.trans h.slots_length
  producer := .inr rfl
  consumer := h.consumer
  written := by
    have hrows := committedRows_commit h.cur_lt h.last_lt h.slots_length hroom row
    intro o ho
    rcases List.mem_append.mp (hrows ▸ ho) with ho | ho
    · exact h.written o ho
    · rw [List.mem_singleton.mp ho, Option.isSome_some]

theorem OwnQueue.read {c : Config} {p : Port} {x : Queue} (h : OwnQueue c p x) (hrow : x.cur ≠ x.last) :
    OwnQueue c p { advanceLast c x with consumer := some p } where
  cur_lt := h.cur_lt
  last_lt := nextIndex_lt h.last_lt
  slots_length := h.slots_length
  producer := h.producer
  consumer := .inr rfl
  written := by
    have hrows := committedRows_advanceLast h.cur_lt h.last_lt hrow
    exact fun o ho => h.written o (hrows ▸ List.mem_cons_of_mem _ ho)

section
variable {q : Lane} {s : State} (h : HostReady q s)
include h

/-- The host is ready again after updates of the queue, of `MEM` and of a result. -/
theorem HostReady.update {x : Queue} (hx : OwnQueue s.cfg s.issuer x) (m : Cells) (p : Port) (v : Word) :
    HostReady q (setRes p v (setQueue q x { s with mem := m })) where
  idle := ⟨by simpa using h.idle.1, by simpa using h.idle.2⟩
  noLag := by simpa using h.noLag
  input := by simpa [queueInSpan, bufferRefusal] using h.input
  output := by simpa [queueOutSpan, bufferRefusal] using h.output
  queue := by simpa using hx

theorem HostReady.issuer : s.issuer = .host := h.idle.1

theorem HostReady.full_iff :
    queueFull s.cfg (getQueue q s) = true ↔ queueCount s.cfg (getQueue q s) = s.cfg.qcap - 1 :=
  queueFull_iff_queueCount h.noLag h.queue.cur_lt h.queue.last_lt

theorem HostReady.not_full (hroom : queueCount s.cfg (getQueue q s) + 1 < s.cfg.qcap) :
    queueFull s.cfg (getQueue q s) = false := by
  rw [Bool.eq_false_iff, ne_eq, h.full_iff]
  omega

theorem HostReady.lqCurrent : exec (.lqCurrent (laneUnit q)) s = .next (setRes .host
    (if queueCount s.cfg (getQueue q s) = s.cfg.qcap - 1 then 0xFFFFFFFF#32
     else BitVec.ofNat 32 (getQueue q s).cur) s) := by
  have hexec := exec_lqCurrent_of (q := q) (.inl h.issuer) (issuerHeld_of_host h.issuer) h.idle.2
  simpa only [h.full_iff, h.issuer] using hexec

/-- A write of the slot, where there is room, leaves the committed rows. -/
theorem HostReady.lqWrite (hf : queueFull s.cfg (getQueue q s) = false) :
    ∃ t row, exec (.lqWrite (laneUnit q)) s = .next t ∧ HostReady q t ∧ t.cfg = s.cfg ∧
      slotRead (getQueue q t) (getQueue q t).cur = some row ∧
      committedRows t.cfg (getQueue q t) = committedRows s.cfg (getQueue q s) := by
  have hexec := exec_lqWrite_of_room (.inl h.issuer) (issuerHeld_of_host h.issuer) h.idle.2 h.queue.producer hf h.input
  refine ⟨_, memReadRun s.mem s.operands.lineIn.toNat s.cfg.lineBytes, hexec,
    h.update (h.queue.write _) s.mem _ _, by simp, ?_, ?_⟩
  · rw [getQueue_setRes, getQueue_setQueue_same]
    exact slotRead_putCurrent_cur h.queue.cur_lt h.queue.slots_length _
  · rw [getQueue_setRes, getQueue_setQueue_same, setRes_cfg, setQueue_cfg]
    exact committedRows_putCurrent h.queue.cur_lt h.queue.last_lt h.queue.slots_length _

/-- A commit of a written slot, where there is room, adds a row. -/
theorem HostReady.lqCommit (hf : queueFull s.cfg (getQueue q s) = false) {row : Row}
    (hr : slotRead (getQueue q s) (getQueue q s).cur = some row) :
    ∃ t, exec (.lqCommit (laneUnit q)) s = .next t ∧ HostReady q t ∧ t.cfg = s.cfg ∧
      queueCount t.cfg (getQueue q t) = queueCount s.cfg (getQueue q s) + 1 := by
  have hroom : nextIndex s.cfg (getQueue q s).cur ≠ (getQueue q s).last := by
    simpa [queueFull, lastSeen, h.noLag, nextIndex] using hf
  have hexec := exec_lqCommit_of_room (.inl h.issuer) (issuerHeld_of_host h.issuer) h.idle.2 h.queue.producer hf
  rw [hr, need_some] at hexec
  refine ⟨_, hexec, h.update (h.queue.commit hroom _) s.mem _ _, by simp, ?_⟩
  rw [getQueue_setRes, getQueue_setQueue_same, setRes_cfg, setQueue_cfg]
  exact ahead_nextIndex h.queue.last_lt h.queue.cur_lt hroom

/-- A push, where there is room, completes and adds a row. -/
theorem HostReady.push (hroom : queueCount s.cfg (getQueue q s) + 1 < s.cfg.qcap) :
    ∃ t u, exec (.lqWrite (laneUnit q)) s = .next t ∧ exec (.lqCommit (laneUnit q)) t = .next u ∧ HostReady q u ∧
      u.cfg = s.cfg ∧ queueCount u.cfg (getQueue q u) = queueCount s.cfg (getQueue q s) + 1 := by
  obtain ⟨t, row, hwrite, ht, htc, hr, hrows⟩ := h.lqWrite (h.not_full hroom)
  have hcount : queueCount t.cfg (getQueue q t) = queueCount s.cfg (getQueue q s) := by
    rw [← length_committedRows, hrows, length_committedRows]
  obtain ⟨u, hcommit, hu, huc, hadd⟩ := ht.lqCommit (ht.not_full (by rwa [hcount, htc])) hr
  exact ⟨t, u, hwrite, hcommit, hu, huc.trans htc, hadd.trans (congrArg (· + 1) hcount)⟩

/-- A read of a queue with a row takes one away. -/
theorem HostReady.lqRead (hpos : 0 < queueCount s.cfg (getQueue q s)) :
    ∃ t, exec (.lqRead (laneUnit q)) s = .next t ∧ HostReady q t ∧ t.cfg = s.cfg ∧
      queueCount t.cfg (getQueue q t) + 1 = queueCount s.cfg (getQueue q s) := by
  obtain ⟨hrow, he⟩ := not_queueEmpty_of_queueCount_pos h.noLag h.queue.last_lt hpos
  have holdest : slotRead (getQueue q s) (getQueue q s).last ∈ committedRows s.cfg (getQueue q s) := by
    rw [committedRows_advanceLast h.queue.cur_lt h.queue.last_lt hrow]
    exact List.mem_cons_self
  obtain ⟨row, hr⟩ := Option.isSome_iff_exists.mp (h.queue.written _ holdest)
  have hexec := exec_lqRead_of_row (.inl h.issuer) h.idle.2 h.queue.consumer he h.output hr
  refine ⟨_, hexec, h.update (h.queue.read hrow) _ _ _, by simp, ?_⟩
  rw [getQueue_setRes, getQueue_setQueue_same, setRes_cfg, setQueue_cfg]
  exact ahead_of_nextIndex h.queue.last_lt h.queue.cur_lt hrow

end

/-- As many pushes complete as there is room for, and each adds a row (R207). -/
theorem HostReady.pushRows_next {q : Lane} {s : State} (h : HostReady q s) {n : Nat}
    (hn : queueCount s.cfg (getQueue q s) + n < s.cfg.qcap) :
    ∃ t, pushRows q n s = .next t ∧ HostReady q t ∧ t.cfg = s.cfg ∧
      queueCount t.cfg (getQueue q t) = queueCount s.cfg (getQueue q s) + n := by
  induction n generalizing s with
  | zero => exact ⟨s, rfl, h, rfl, rfl⟩
  | succ n ih =>
    obtain ⟨t, u, hwrite, hcommit, hu, huc, hadd⟩ := h.push (by omega)
    obtain ⟨v, hpush, hv, hvc, hsum⟩ := ih hu (by rw [hadd, huc]; omega)
    refine ⟨v, ?_, hv, hvc.trans huc, by omega⟩
    simp only [pushRows, hwrite, hcommit, hpush]

/-- Settles O42: the pushes count up to `QCAP - 1`, where the queue is full, and a read counts down. -/
theorem queueCapacity : Obligations.QueueCapacity := by
  intro s q n hidle hlag hcap hn hsized hcur hempty hprod hcons hin hout
  have hlast : (getQueue q s).last < s.cfg.qcap := hempty ▸ hcur
  have hzero : queueCount s.cfg (getQueue q s) = 0 :=
    (congrArg (ahead s.cfg (getQueue q s).last) hempty.symm).trans (ahead_self hlast)
  have hready : HostReady q s :=
    ⟨hidle, hlag, hin, hout, hcur, hlast, hsized.1, .inl hprod, .inl hcons, by simp [committedRows, hzero]⟩
  obtain ⟨t, hpush, ht, htc, hcount⟩ := hready.pushRows_next (n := n) (by omega)
  rw [hzero, Nat.zero_add] at hcount
  refine ⟨t, hpush, hcount, ?_, fun hfull => ?_⟩
  · rw [ht.lqCurrent, hcount, htc]
  · obtain ⟨u, hread, hu, huc, htake⟩ := ht.lqRead (by omega)
    have hleft : queueCount u.cfg (getQueue q u) = s.cfg.qcap - 2 := by omega
    refine ⟨u, hread, hleft, ?_⟩
    rw [hu.lqCurrent, hleft, huc, htc, if_neg (by omega)]

end Sys2Proof.Machine
end

section
/-! SUPPORT. What is rendered (45_fetch_feed_sequencer.md §2, §3): the geometry of an update, the mask, and the row that a
produce step puts in the queue (R221, R222, R226, R229, R230). -/

namespace Sys2Proof.Machine

/-! ### The geometry of an update (R222) -/

theorem cropActive_eq_true {s : State} :
    cropActive s = true ↔ 0 < s.operands.cropW.toNat ∧ 0 < s.operands.cropH.toNat := by
  simp [cropActive]

theorem effectiveCrop_of_crop {s : State} (h : 0 < s.operands.cropW.toNat ∧ 0 < s.operands.cropH.toNat) :
    effectiveCrop s = { x := s.operands.cropX.toInt, y := s.operands.cropY.toInt
                        w := s.operands.cropW.toNat, h := s.operands.cropH.toNat } :=
  if_pos (cropActive_eq_true.mpr h)

theorem effectiveCrop_of_no_crop {s : State} (h : ¬ (0 < s.operands.cropW.toNat ∧ 0 < s.operands.cropH.toNat)) :
    effectiveCrop s = { x := 0, y := 0, w := s.operands.areaW.toNat, h := s.operands.areaH.toNat } :=
  if_neg (mt cropActive_eq_true.mp h)

theorem geomOk_eq_true {s : State} : geomOk s = true ↔
    s.operands.areaW.toNat ≤ 65535 ∧ s.operands.areaH.toNat ≤ 65535 ∧
    s.operands.cropW.toNat ≤ 65535 ∧ s.operands.cropH.toNat ≤ 65535 ∧
    (¬ (0 < s.operands.cropW.toNat ∧ 0 < s.operands.cropH.toNat) ∨
      (0 ≤ s.operands.cropX.toInt ∧ 0 ≤ s.operands.cropY.toInt ∧
        s.operands.cropX.toInt + s.operands.cropW.toNat ≤ (s.operands.areaW.toNat : Int) ∧
        s.operands.cropY.toInt + s.operands.cropH.toNat ≤ (s.operands.areaH.toNat : Int))) := by
  simp only [geomOk, Bool.and_eq_true, Bool.or_eq_true, Bool.not_eq_true', decide_eq_true_eq, and_assoc,
    ← cropActive_eq_true, Bool.not_eq_true]

theorem rowCovered_eq_true {s : State} {r : Nat} : rowCovered s r = true ↔
    s.operands.areaY.toInt ≤ (r : Int) ∧ (r : Int) < s.operands.areaY.toInt + (effectiveCrop s).h := by
  simp [rowCovered]

theorem colCovered_eq_true {s : State} {x : Nat} : colCovered s x = true ↔
    s.operands.areaX.toInt ≤ (x : Int) ∧ (x : Int) < s.operands.areaX.toInt + (effectiveCrop s).w := by
  simp [colCovered]

/-- A covered row shows the row of the crop that lies as far down as it does in the area. -/
theorem imgY_of_covered {s : State} (hy : 0 ≤ (effectiveCrop s).y) {r : Nat} (hr : rowCovered s r = true) :
    (imgY s r : Int) = (effectiveCrop s).y + (r - s.operands.areaY.toInt) ∧
      (imgY s r : Int) < (effectiveCrop s).y + (effectiveCrop s).h := by
  have hcov := rowCovered_eq_true.mp hr
  unfold imgY
  omega

theorem imgX_of_covered {s : State} (hx : 0 ≤ (effectiveCrop s).x) {x : Nat} (hc : colCovered s x = true) :
    (imgX s x : Int) = (effectiveCrop s).x + (x - s.operands.areaX.toInt) ∧
      (imgX s x : Int) < (effectiveCrop s).x + (effectiveCrop s).w := by
  have hcov := colCovered_eq_true.mp hc
  unfold imgX
  omega

/-- Settles O49: the effective crop is the crop or the whole image, and a good crop lies in the image. -/
theorem geometryOfUpdate : Obligations.GeometryOfUpdate := by
  refine fun s => ⟨fun hcrop => ?_, fun hcrop => ?_⟩
  · have he := effectiveCrop_of_crop hcrop
    refine ⟨fun r => by rw [rowCovered_eq_true, he], fun x => by rw [colCovered_eq_true, he], fun hg => ?_⟩
    obtain ⟨-, -, -, -, hno | ⟨hx, hy, hw, hh⟩⟩ := geomOk_eq_true.mp hg
    · exact absurd hcrop hno
    refine ⟨fun r hr => ?_, fun x hc => ?_⟩
    · have := imgY_of_covered (by rwa [he]) hr
      simp only [he] at this
      omega
    · have := imgX_of_covered (by rwa [he]) hc
      simp only [he] at this
      omega
  · have he := effectiveCrop_of_no_crop hcrop
    refine ⟨fun r => by rw [rowCovered_eq_true, he], fun x => by rw [colCovered_eq_true, he],
      fun r hr => ?_, fun x hc => ?_⟩
    · have := imgY_of_covered (by rw [he]) hr
      simp only [he] at this
      omega
    · have := imgX_of_covered (by rw [he]) hc
      simp only [he] at this
      omega

/-! ### The mask (R221) -/

theorem exec_maskBuild_of {s : State} (h : hostIdle s) :
    exec .maskBuild s = .next { s with mask := buildMask s, resHost := 0#32 } := by
  rw [exec, execMaskBuild, allowed_host h.1 h.2, result_of_host (by exact h.1)]

/-- `MASK`, pair by pair. -/
theorem pair_buildMask (s : State) {i p : Nat} (hi : i < s.cfg.lineBytes) (hp : p < 4) :
    pair ((buildMask s).getD i 0#8) p =
      if dirtyEn s = false ∨ (4 * i + p < s.cfg.width ∧ colDirty s.dirtyCols (4 * i + p) = true) then 0b11#2
      else 0b00#2 := by
  unfold buildMask
  cases dirtyEn s with
  | false =>
    have hones : ∀ p < 4, pair 0xFF#8 p = 0b11#2 := by decide
    simpa [hi] using hones p hp
  | true =>
    rw [if_pos rfl, maskRow_getD _ _ _ hi, pair_pairMask _ _ _ hp]
    simp only [Bool.and_eq_true, decide_eq_true_eq, Bool.true_eq_false, false_or]

/-- Settles O45: the mask's pairs are those of `BuildMask`. -/
theorem maskBuildKeepsDirtyColumns : Obligations.MaskBuildKeepsDirtyColumns :=
  ⟨(decodeIffEncode _ _).mpr ⟨trivial, rfl⟩, fun s h =>
    ⟨buildMask s, exec_maskBuild_of h, buildMask_length s, fun _ hi _ hp => pair_buildMask s hi hp⟩⟩

/-! ### The staged line (R229) -/

/-- Bits shifted in one by one, the first of them ending up highest. -/
theorem getLsbD_foldl_shift (px : Nat → Byte) (bit : Nat → Bool) (h : ∀ i, px i = if bit i then 1#8 else 0#8) (n j : Nat)
    (hj : j < 8) :
    ((List.range n).foldl (fun (acc : Byte) i => acc <<< 1 ||| px i) 0#8).getLsbD j = (decide (j < n) && bit (n - 1 - j)) := by
  induction n generalizing j with
  | zero => simp
  | succ n ih =>
    rw [List.range_succ, List.foldl_append, List.foldl_cons, List.foldl_nil, BitVec.getLsbD_or,
      BitVec.getLsbD_shiftLeft, h]
    cases j with
    | zero => cases hb : bit n <;> simp [hb]
    | succ j =>
      have hbit : (if bit n then 1#8 else 0#8).getLsbD (j + 1) = false := by cases bit n <;> simp
      rw [hbit, Nat.add_sub_cancel, ih j (by omega), show n + 1 - 1 - (j + 1) = n - 1 - j by omega]
      simp [hj]

/-- A staged pixel is a value of its packing: a byte, a nibble or a bit (R8). -/
theorem stagePixel_fits (s : State) (r x : Nat) :
    (lo4 (stagePixel s .fb4 r x)).setWidth 8 = stagePixel s .fb4 r x ∧
      ∃ b : Bool, stagePixel s .mono8 r x = if b then 1#8 else 0#8 := by
  unfold stagePixel
  split
  · refine ⟨?_, _, rfl⟩
    rw [imagePixel, lo4_setWidth]
  · exact ⟨rfl, false, rfl⟩

theorem nibbleOf_append (px : Nat → Nibble) (x : Nat) : nibbleOf (px (2 * (x / 2)) ++ px (2 * (x / 2) + 1)) x = px x := by
  unfold nibbleOf
  split
  · rw [hi4_append, show 2 * (x / 2) = x by omega]
  · rw [lo4_append, show 2 * (x / 2) + 1 = x by omega]

/-- The line that is looked up holds the staged pixels (R229). -/
theorem packedPixel_stageLine (s : State) (p : Packing) (r : Nat) {x : Nat} (hx : x < s.cfg.width) :
    packedPixel p (fun i => (stageLine s p r).getD i 0#8) x = stagePixel s p r x := by
  cases p with
  | diff1 =>
    have hj : x < lineLength .diff1 s.cfg.width := by simp only [lineLength, pixelsPerByte, ceilDiv]; omega
    simp [packedPixel, stageLine, hj]
  | fb4 =>
    have hj : x / 2 < lineLength .fb4 s.cfg.width := by simp only [lineLength, pixelsPerByte, ceilDiv]; omega
    simp only [packedPixel, stageLine, List.getD_eq_getElem?_getD, List.getElem?_map, List.getElem?_range hj,
      Option.map_some, Option.getD_some]
    rw [nibbleOf_append (fun j => lo4 (stagePixel s .fb4 r j)), (stagePixel_fits s r x).1]
  | mono8 =>
    have hj : x / 8 < lineLength .mono8 s.cfg.width := by simp only [lineLength, pixelsPerByte, ceilDiv]; omega
    choose bit hbit using fun i => (stagePixel_fits s r i).2
    simp only [packedPixel, stageLine, List.getD_eq_getElem?_getD, List.getElem?_map, List.getElem?_range hj,
      Option.map_some, Option.getD_some]
    have hlow : 7 - x % 8 < 8 := by omega
    have hplace : 8 * (x / 8) + (8 - 1 - (7 - x % 8)) = x := by omega
    rw [getLsbD_foldl_shift _ (fun i => bit (8 * (x / 8) + i)) (fun _ => hbit _) 8 _ hlow, decide_eq_true hlow,
      Bool.true_and, hplace, hbit]

/-! ### The row of an active line (R229, R230) -/

/-- With the layout's table in the `LUT`, an active row holds the code of every covered pixel and no other code. -/
theorem renderActive_of_holds {s k : State} {l : Layout} (h : lutHolds s.lut (layoutSize l) (layoutEntry k l)) (r : Nat) :
    ∃ row : Row, renderActive s l r = some row ∧ ∀ x < 4 * s.cfg.lineBytes, pair (row.getD (x / 4) 0#8) (x % 4) =
      if x < s.cfg.width ∧ colCovered s x = true then pixelCode k l (imagePixel s (layoutPacking l) r x)
      else 0b00#2 := by
  have hlook := lookLayout_of_holds h (stageLine s (layoutPacking l) r) s.cfg.width
  refine ⟨_, by rw [renderActive, hlook, Option.map_some], fun x hx => ?_⟩
  have hq : x / 4 < s.cfg.lineBytes := by omega
  have hp : x % 4 < 4 := Nat.mod_lt _ (by decide)
  rw [andRow_maskRow_getD _ _ _ (by simpa using hq), pair_and_pairMask _ _ _ _ hp, pair_clearBeyond _ hq hp,
    Nat.div_add_mod]
  by_cases hw : x < s.cfg.width
  · have hcode := pair_lookByte k l (fun i => (stageLine s (layoutPacking l) r).getD i 0#8) hp
      (w := s.cfg.width) (q := x / 4) (by omega)
    rw [Nat.div_add_mod, packedPixel_stageLine s _ r hw] at hcode
    by_cases hc : colCovered s x = true
    · rw [stagePixel, if_pos ⟨hw, hc⟩] at hcode
      rw [hc, Bool.or_true, if_pos rfl, if_pos hw, if_pos ⟨hw, rfl⟩]
      exact hcode
    · simp [hc, hw]
  · simp [hw]

/-! ### The produce step (R226) -/

theorem produced_eq (q : Lane) (row : Row) (s : State) : produced q row s = setLane q
    { getLane q s with
      busy := false, res := 0#32,
      queue := { getQueue q s with
        slots := (getQueue q s).slots.set (getQueue q s).cur (some (andRow row s.mask)),
        cur := ((getQueue q s).cur + 1) % s.cfg.qcap } } s := by
  cases q <;> rfl

theorem step_of_produce {s : State} {q : Lane} {rest : List Event} (h : s.inbox = .produce q :: rest) :
    step s = scheduleLane q { s with inbox := rest } := by
  rw [step, h]
  rfl

theorem produceEnabled_of_room {s : State} {q : Lane} (hbusy : (getLane q s).busy = true)
    (hroom : queueFull s.cfg (getQueue q s) = false) : produceEnabled q s = true := by
  simp [produceEnabled, hbusy, hroom]

/-- A busy lane with a free slot commits the row that is rendered. -/
theorem scheduleLane_of_row {s : State} {q : Lane} {row : Row} (hbusy : (getLane q s).busy = true)
    (hf : s.fdone = false) (hroom : queueFull s.cfg (getQueue q s) = false)
    (hrow : ∀ k : Row → Out, renderRow s (getLane q s).row k = k row) : scheduleLane q s = .next (produced q row s) := by
  rw [scheduleLane, if_pos (produceEnabled_of_room hbusy hroom), produceStep, hf, if_neg Bool.false_ne_true, hrow]
  rfl

/-- After the frame the row of a busy lane is dropped. -/
theorem scheduleLane_of_frame_done {s : State} {q : Lane} (hbusy : (getLane q s).busy = true) (hf : s.fdone = true) :
    scheduleLane q s = .next (fetchComplete q s) := by
  have hen : produceEnabled q s = true := by simp [produceEnabled, hbusy, hf]
  rw [scheduleLane, if_pos hen, produceStep, if_pos hf]

/-- A lane without a slot holds while the frame lasts (R226, R310). -/
theorem scheduleLane_of_full {s : State} {q : Lane} (hf : s.fdone = false)
    (hfull : queueFull s.cfg (getQueue q s) = true) : scheduleLane q s = .next s := by
  have hen : produceEnabled q s = false := by simp [produceEnabled, hf, hfull]
  rw [scheduleLane, hen, if_neg Bool.false_ne_true]

theorem renderRow_of_inactive {s : State} {r : Nat} (h : rowActive s r = false) (k : Row → Out) :
    renderRow s r k = k (noopRow s.cfg) := by
  rw [renderRow, h, if_neg Bool.false_ne_true]

theorem renderRow_of_active {s : State} {r : Nat} {l : Layout} {row : Row} (h : rowActive s r = true)
    (hl : selectLayout s.mode s.ctrl = .ok l) (hb : bufferRefusal s (rowSpans s (layoutPacking l) r) [] = none)
    (hr : renderActive s l r = some row) (k : Row → Out) : renderRow s r k = k row := by
  rw [renderRow, if_pos h, hl]
  simp only [hb, hr, unlessRefused_none, need_some]

/-- The step of a busy lane with a free slot, whose row is rendered as `row`; what is rendered does not depend on the
inbox. -/
theorem step_of_row {s : State} {q : Lane} {rest : List Event} {row : Row} (hin : s.inbox = .produce q :: rest)
    (hbusy : (getLane q s).busy = true) (hf : s.fdone = false) (hroom : queueFull s.cfg (getQueue q s) = false)
    (hrow : ∀ k : Row → Out, renderRow { s with inbox := rest } (getLane q s).row k = k row) :
    step s = .next (setLane q
      { getLane q s with
        busy := false, res := 0#32,
        queue := { getQueue q s with
          slots := (getQueue q s).slots.set (getQueue q s).cur (some (andRow row s.mask)),
          cur := ((getQueue q s).cur + 1) % s.cfg.qcap } } { s with inbox := rest }) := by
  have hlane := getLane_with_inbox q rest s
  have hqueue := getQueue_with_inbox q rest s
  have hcommit := scheduleLane_of_row (s := { s with inbox := rest }) (q := q) (row := row) (by rwa [hlane]) hf
    (by rwa [hqueue]) (by rwa [hlane])
  rw [step_of_produce hin, hcommit, produced_eq, hlane, hqueue]

/-- Settles O47: the rendered row, ANDed with `MASK` and committed. -/
theorem produceRendersActiveRow : Obligations.ProduceRendersActiveRow := by
  intro s k q rest l hin hbusy hf hroom hact hl hlut hmask hb
  obtain ⟨row, hrow, hcodes⟩ := renderActive_of_holds hlut (getLane q s).row
  have hlen := renderActive_length hrow
  refine ⟨andRow row s.mask, by rw [andRow_length, hlen, hmask, Nat.min_self], ?_, fun x hx => ?_⟩
  · exact step_of_row hin hbusy hf hroom
      (renderRow_of_active (s := { s with inbox := rest }) (l := l) hact hl hb hrow)
  · have hq : x / 4 < s.cfg.lineBytes := by omega
    rw [andRow_getD _ _ _ (by rwa [hlen]) (by rwa [hmask]), pair_and, hcodes x hx]

theorem andRow_noopRow {c : Config} {mask : List Byte} (h : mask.length = c.lineBytes) :
    andRow (noopRow c) mask = noopRow c := by
  refine List.ext_getElem (by simp [h]) fun i _ _ => ?_
  simp [andRow, noopRow]

/-- Settles O48: the no-op row is rendered without a read and is its own masked row. -/
theorem produceOtherRows : Obligations.ProduceOtherRows := by
  refine fun s q rest hin hbusy => ⟨fun hf hroom hact hmask => ?_, fun hf => ?_, fun hf hfull => ?_⟩
  · have hstep := step_of_row hin hbusy hf hroom
      (renderRow_of_inactive (s := { s with inbox := rest }) (r := (getLane q s).row) hact)
    rwa [andRow_noopRow hmask] at hstep
  · rw [step_of_produce hin,
      scheduleLane_of_frame_done (s := { s with inbox := rest }) (by rwa [getLane_with_inbox]) hf, fetchComplete,
      getLane_with_inbox]
  · exact (step_of_produce hin).trans
      (scheduleLane_of_full (s := { s with inbox := rest }) hf (by rwa [getQueue_with_inbox]))

end Sys2Proof.Machine
end

section
/-! SUPPORT. The lanes, the feeder and the phase sequencer, operation by operation (45_fetch_feed_sequencer.md: R220, R225,
R227, R233, R236, R239, R240, R242). -/

namespace Sys2Proof.Machine

/-- Settles O44: `NOP` is legal on every port (R220). -/
theorem nopWritesResultOnly : Obligations.NopWritesResultOnly := by
  refine ⟨(decodeIffEncode _ _).mpr ⟨trivial, rfl⟩, fun s hheld => ?_⟩
  have hport : s.issuer ∈ [Port.host, .lane0, .lane1, .feeder] := by cases s.issuer <;> decide
  exact onPorts_of hport hheld _

/-! ### The phase advance (R240) -/

/-- The frame is done and so are both lanes: what the phase advance waits for. -/
abbrev phaseOver (s : State) : Prop :=
  s.seq = .transmitting ∧ s.fdone = true ∧ s.lane0.done = true ∧ s.lane1.done = true

theorem tryAdvance_of_not_over {s : State} (h : ¬ phaseOver s) : tryAdvance s = (s, 0#32) := if_neg h

/-- After a phase without error the next one is prepared, if there is one. -/
theorem tryAdvance_of_next_phase {s : State} (h : phaseOver s) (he : s.error = 0#32)
    (hp : s.phase.toNat + 1 < s.phaseCount.toNat) :
    tryAdvance s = ({ s with phase := s.phase + 1#32, seq := .preparing }, 1#32) := by
  rw [tryAdvance, if_pos h, if_neg (not_not_intro he), if_pos hp]

/-- After an error, or after the last phase, the update is done. -/
theorem tryAdvance_of_end {s : State} (h : phaseOver s)
    (hend : s.error ≠ 0#32 ∨ s.phaseCount.toNat ≤ s.phase.toNat + 1) :
    tryAdvance s = ({ s with seq := .done }, 2#32) := by
  rw [tryAdvance, if_pos h]
  by_cases he : s.error = 0#32
  · have hp : ¬ s.phase.toNat + 1 < s.phaseCount.toNat := Nat.not_lt.mpr (hend.resolve_left (not_not_intro he))
    rw [if_neg (not_not_intro he), if_neg hp]
  · rw [if_pos he]

/-! ### `FETCH` (R225) -/

/-- On its own port a free lane takes the claim step, as its queue's producer. -/
theorem exec_fetch_of {s : State} {l : Lane} (hi : s.issuer = lanePort l) (hb : (getLane l s).busy = false)
    (hs : s.seq = .transmitting) (hp : mayProduce l s) :
    exec (.fetch (laneUnit l)) s = .next (claimStep l (withProducer l s)) := by
  have hport : s.issuer ∈ [lanePort l] := List.mem_singleton.mpr hi
  rw [exec, execFetch, withUnit_laneUnit, allowed_of hport ((issuerHeld_of_lane hi).trans hb) hs, asProducer_of hp]

theorem claimStep_of_row {s : State} (l : Lane) (h : s.lineNext < s.cfg.height) :
    claimStep l (withProducer l s) = setLane l
      { getLane l s with
        row := s.lineNext, busy := true, queue := { getQueue l s with producer := some s.issuer } }
      { s with lineNext := s.lineNext + 1, lineThreads := s.lineThreads.set s.lineNext (some l) } := by
  have hrow : (withProducer l s).lineNext < (withProducer l s).cfg.height := by
    rwa [withProducer_cfg, withProducer, setQueue_lineNext]
  rw [claimStep, if_pos hrow]
  cases l <;> rfl

theorem claimStep_of_no_row {s : State} (l : Lane) (h : s.cfg.height ≤ s.lineNext) :
    claimStep l (withProducer l s) = (tryAdvance (setLane l
      { getLane l s with
        done := true, res := 1#32, queue := { getQueue l s with producer := some s.issuer } } s)).1 := by
  have hrow : ¬ (withProducer l s).lineNext < (withProducer l s).cfg.height := by
    rw [withProducer_cfg, withProducer, setQueue_lineNext]
    exact Nat.not_lt.mpr h
  rw [claimStep, if_neg hrow]
  cases l <;> rfl

/-- Settles O46: the two outcomes of the claim step, and those of the phase advance. -/
theorem fetchClaimsRow : Obligations.FetchClaimsRow := by
  refine ⟨fun l => (decodeIffEncode _ _).mpr ⟨laneUnit_wellFormed l, commandWord_unit 0x50 _⟩,
    fun s l hi hb hs hp => ⟨fun hrow => ?_, fun hrow => ?_⟩,
    fun s => ⟨tryAdvance_of_not_over, fun hs hf h0 h1 => ?_⟩⟩
  · rw [exec_fetch_of hi hb hs hp, claimStep_of_row l hrow]
  · rw [exec_fetch_of hi hb hs hp, claimStep_of_no_row l hrow]
  · have hover : phaseOver s := ⟨hs, hf, h0, h1⟩
    exact ⟨fun he => tryAdvance_of_end hover (.inl he), tryAdvance_of_next_phase hover,
      fun _ hp => tryAdvance_of_end hover (.inr hp)⟩

/-! ### `FEED` (R227) -/

theorem exec_feed_of_delivered {s : State} (hi : s.issuer = .feeder) (hs : s.seq = .transmitting)
    (h : s.cfg.height ≤ s.linesConsumed) : exec .feed s = .next { s with resFeeder := 2#32 } := by
  rw [exec, execFeed, allowed_of (by simp [hi]) (issuerHeld_of_feeder hi) hs, if_pos h, result_of_feeder hi]

/-- While rows are left `FEED` delivers one, as the consumer of both queues. -/
theorem exec_feed_of_left {s : State} (hi : s.issuer = .feeder) (hs : s.seq = .transmitting)
    (h : s.linesConsumed < s.cfg.height) (h0 : mayConsume .zero s) (h1 : mayConsume .one s) :
    exec .feed s = feedStep (claimedByFeeder s) := by
  rw [exec, execFeed, allowed_of (by simp [hi]) (issuerHeld_of_feeder hi) hs, if_neg (Nat.not_le.mpr h),
    asConsumer_of h0, asConsumer_of (by exact h1)]
  rfl

/-- The row at the head of the bus is not there: nobody claimed it, or its lane has not committed it. -/
abbrev busStarved (s : State) : Prop :=
  s.lineNext ≤ s.linesConsumed ∨
    ∃ q, s.lineThreads[s.linesConsumed]? = some (some q) ∧ queueEmpty s.cfg (getQueue q s) = true

theorem busStarved_claimedByFeeder {s : State} (h : busStarved s) : busStarved (claimedByFeeder s) := by
  simp only [busStarved, queueEmpty_claimedByFeeder]
  exact h

theorem feedStep_of_starved {s : State} (h : busStarved s) : feedStep s = .next (deliverStarved s) := by
  unfold feedStep
  split
  · rcases h with hnext | ⟨q, hthread, he⟩
    · omega
    · rw [hthread, Option.join_some, need_some, if_pos he]
  · rfl

theorem feedStep_of_row {s : State} {q : Lane} {row : Row} (hnext : s.linesConsumed < s.lineNext)
    (hthread : s.lineThreads[s.linesConsumed]? = some (some q)) (he : queueEmpty s.cfg (getQueue q s) = false)
    (hr : slotRead (getQueue q s) (getQueue q s).last = some row) :
    feedStep s = .next (deliver row false (setQueue q (advanceLast s.cfg (getQueue q s)) s)) := by
  rw [feedStep, if_pos hnext, hthread, Option.join_some, need_some, he, if_neg Bool.false_ne_true, deliverFrom, hr,
    need_some]

theorem claimedByFeeder_of_feeder {s : State} (hi : s.issuer = .feeder) :
    claimedByFeeder s = setQueue .one { getQueue .one s with consumer := some .feeder }
      (setQueue .zero { getQueue .zero s with consumer := some .feeder } s) := by
  rw [← hi]
  rfl

/-- What a delivery to the feeder writes. -/
theorem deliver_of_feeder {s : State} (hi : s.issuer = .feeder) (row : Row) (starved : Bool) :
    deliver row starved s =
      { s with
        linesConsumed := s.linesConsumed + 1, resFeeder := if starved then 1#32 else 0#32,
        busOut := s.busOut ++ [{ phase := s.phase, row := s.linesConsumed, starved := starved,
                                 bytes := reorder s.cfg row }] } := by
  rw [deliver, result_of_feeder (by exact hi)]

/-- Settles O50: the delivery in the state where the feeder has claimed both queues. -/
theorem feedDeliversRow : Obligations.FeedDeliversRow := by
  refine ⟨(decodeIffEncode _ _).mpr ⟨trivial, rfl⟩, fun s hi hs =>
    ⟨exec_feed_of_delivered hi hs, fun hleft h0 h1 => ⟨fun hst => ?_, fun q row hnext hthread he hr => ?_⟩⟩⟩
  · rw [exec_feed_of_left hi hs hleft h0 h1, feedStep_of_starved (busStarved_claimedByFeeder hst), deliverStarved,
      deliver_of_feeder (by exact hi), claimedByFeeder_of_feeder hi]
    rfl
  · have hqueue := getQueue_claimedByFeeder q s
    rw [exec_feed_of_left hi hs hleft h0 h1, feedStep_of_row (s := claimedByFeeder s) (q := q) (row := row) hnext hthread
      ((queueEmpty_claimedByFeeder q s).trans he) (by rw [hqueue]; exact hr),
      deliver_of_feeder (by rw [setQueue_issuer]; exact hi), claimedByFeeder_of_feeder hi]
    cases q <;> rfl

/-! ### The host's operations (R233, R236, R242) -/

/-- Settles O52: the checks are `startErrors`, and a failing one, or no phase, ends the update at once. -/
theorem updStartChecksAndPrepares : Obligations.UpdStartChecksAndPrepares := by
  refine ⟨(decodeIffEncode _ _).mpr ⟨trivial, rfl⟩, fun s e h he => ?_⟩
  obtain rfl : e = startErrors s := he.trans (congrArg (_ ||| ·) (if_congr geomOk_eq_true.symm rfl rfl))
  have hexec : exec .updStart s = .next _ := allowed_host h.1 h.2 _
  obtain ⟨-, -, ⟨hend, ht⟩ | ⟨hok, hcount, ht⟩⟩ := exec_updStart_eq_next hexec
  · rw [hexec, ht, if_pos hend, if_pos hend]
    rfl
  · have hgo : ¬ (startErrors s ≠ 0#32 ∨ s.phaseCount = 0#32) := fun h => h.elim (· hok) hcount
    rw [hexec, ht, if_neg hgo, if_neg hgo, hok]
    simp only [startClear, hok]
    rfl

/-- `PREP` builds the selected layout and starts the transmission (R236). -/
theorem exec_prep_of {s : State} {l : Layout} (hi : s.issuer = .host) (hs : s.seq = .preparing)
    (hsel : selectLayout s.mode s.ctrl = .ok l) (hb : buildRefusal s l = none) :
    exec .prep s = .next { prepared { s with lut := builtLut s l } with resHost := 0#32 } := by
  rw [exec, execPrep, allowed_host hi hs, hsel]
  exact buildLayout_eq_next.mpr ⟨hb, congrArg _ (result_of_host (by exact hi) _)⟩

/-- Settles O53: neither the build nor its refusal depends on the sequencer state. -/
theorem prepStartsPhase : Obligations.PrepStartsPhase := by
  refine ⟨(decodeIffEncode _ _).mpr ⟨trivial, rfl⟩, fun s l hi hs hsel hb =>
    ⟨_, exec_lbOp_of (s := { s with seq := .idle }) ⟨hi, rfl⟩ hb, ?_⟩⟩
  rw [exec_prep_of hi hs hsel hb]
  rfl

/-- Settles O55: `UPD.ACK` writes the sequencer state and its result alone (R242). -/
theorem updAckReturnsToIdle : Obligations.UpdAckReturnsToIdle := by
  refine ⟨(decodeIffEncode _ _).mpr ⟨trivial, rfl⟩, fun s hi hs => ?_⟩
  rw [exec, execUpdAck, allowed_host hi hs, result_of_host (by exact hi)]

/-! ### `FRAME.DONE` (R239) -/

/-- On the feeder's port in `TRANSMITTING` the frame ends, once, when all its rows are delivered. -/
theorem exec_frameDone_of {s : State} (hi : s.issuer = .feeder) (hs : s.seq = .transmitting) :
    exec .frameDone s =
      require (decide (s.linesConsumed = s.cfg.height)) .frameNotDelivered
        (require (!s.fdone) .frameAlreadyDone
          (.next { (frameDoneStep s).1 with resFeeder := (frameDoneStep s).2 })) := by
  have hissuer : (frameDoneStep s).1.issuer = .feeder := by
    rcases tryAdvance_cases { s with fdone := true } with h | ⟨-, h, -⟩ | ⟨-, -, -, h⟩ <;>
      rw [frameDoneStep, h] <;> exact hi
  rw [exec, execFrameDone, allowed_of (by simp [hi]) (issuerHeld_of_feeder hi) hs, result_of_feeder hissuer]

/-- Settles O54: the two refusals, and the phase advance with `FDONE` set. -/
theorem frameDoneEndsFrame : Obligations.FrameDoneEndsFrame := by
  refine ⟨(decodeIffEncode _ _).mpr ⟨trivial, rfl⟩, fun s hi hs => ⟨fun hc => ?_, fun hc hf => ?_, fun hc hf => ?_⟩⟩
  · rw [exec_frameDone_of hi hs, decide_eq_false hc, require_false]
  · rw [exec_frameDone_of hi hs, decide_eq_true hc, hf, require_true, Bool.not_true, require_false]
  rw [exec_frameDone_of hi hs, decide_eq_true hc, hf, require_true, Bool.not_false, require_true, frameDoneStep]
  by_cases hd : s.lane0.done = true ∧ s.lane1.done = true
  · have hover : phaseOver { s with fdone := true } := ⟨hs, rfl, hd⟩
    rw [if_pos hd]
    by_cases hn : s.error = 0#32 ∧ s.phase.toNat + 1 < s.phaseCount.toNat
    · rw [if_pos hn, tryAdvance_of_next_phase hover hn.1 hn.2]
    · rw [if_neg hn, tryAdvance_of_end hover (by simpa only [not_and_or, Nat.not_lt] using hn)]
  · rw [if_neg hd, tryAdvance_of_not_over (s := { s with fdone := true }) fun hover => hd hover.2.2]

end Sys2Proof.Machine
end

section
/-! SUPPORT. The sequencer changes state only along the transitions of R232. -/

namespace Sys2Proof.Machine

/-! ### The transitions -/

/-- A phase ends: both lanes and the frame are done, and the next phase or the end of the update follows (R240). -/
def PhaseEnds (s t : State) : Prop :=
  s.seq = .transmitting ∧ t.fdone = true ∧ t.lane0.done = true ∧ t.lane1.done = true ∧
    ((t.seq = .preparing ∧ t.error = 0#32 ∧ s.phase.toNat + 1 < s.phaseCount.toNat ∧ t.phase = s.phase + 1#32) ∨
     (t.seq = .done ∧ t.phase = s.phase ∧ (t.error ≠ 0#32 ∨ s.phaseCount.toNat ≤ s.phase.toNat + 1)))

/-- The transitions of R232, each with its operation. -/
def SeqMove (i : Instr) (s t : State) : Prop :=
  (i = .updStart ∧ s.seq = .idle ∧ t.phase = 0#32 ∧
    ((t.seq = .preparing ∧ t.error = 0#32 ∧ s.phaseCount ≠ 0#32) ∨
     (t.seq = .done ∧ (t.error ≠ 0#32 ∨ s.phaseCount = 0#32)))) ∨
  (i = .prep ∧ s.seq = .preparing ∧ t.seq = .transmitting) ∨
  ((i = .frameDone ∨ ∃ u, i = .fetch u) ∧ PhaseEnds s t) ∨
  (i = .updAck ∧ s.seq = .done ∧ t.seq = .idle)

/-! ### The phase advance (R240) -/

theorem PhaseEnds.result {s t : State} (h : PhaseEnds s t) (v : Word) : PhaseEnds s (result v t) := by
  obtain ⟨hs, hf, h0, h1, hend⟩ := h
  refine ⟨hs, by rwa [result_fdone], (getLane_result_done .zero v t).trans h0, (getLane_result_done .one v t).trans h1, ?_⟩
  rwa [result_seq, result_error, result_phase]

/-- The phase advance ends the phase, or leaves the sequencer where it is. -/
theorem tryAdvance_seq (s : State) : (tryAdvance s).1.seq = s.seq ∨ PhaseEnds s (tryAdvance s).1 := by
  by_cases hover : phaseOver s
  · have ⟨hs, hf, h0, h1⟩ := hover
    refine .inr ?_
    by_cases hend : s.error ≠ 0#32 ∨ s.phaseCount.toNat ≤ s.phase.toNat + 1
    · rw [tryAdvance_of_end hover hend]
      exact ⟨hs, hf, h0, h1, .inr ⟨rfl, rfl, hend⟩⟩
    · obtain ⟨he, hp⟩ := not_or.mp hend
      have he := not_not.mp he
      have hp := Nat.not_le.mp hp
      rw [tryAdvance_of_next_phase hover he hp]
      exact ⟨hs, hf, h0, h1, .inl ⟨rfl, he, hp, rfl⟩⟩
  · rw [tryAdvance_of_not_over hover]
    exact .inl rfl

/-! ### The operations that move the sequencer -/

theorem updStart_seqMove {s t : State} (h : exec .updStart s = .next t) : SeqMove .updStart s t := by
  obtain ⟨-, hs, ⟨hend, rfl⟩ | ⟨hok, hcount, rfl⟩⟩ := exec_updStart_eq_next h
  · exact .inl ⟨rfl, hs, rfl, .inr ⟨rfl, hend⟩⟩
  · exact .inl ⟨rfl, hs, rfl, .inl ⟨rfl, hok, hcount⟩⟩

theorem frameDone_seq {s t : State} (h : exec .frameDone s = .next t) : t.seq = s.seq ∨ SeqMove .frameDone s t := by
  obtain ⟨-, -, -, -, rfl⟩ := exec_frameDone_eq_next h
  rcases tryAdvance_seq { s with fdone := true } with hkeep | hend
  · exact .inl ((result_seq _ _).trans hkeep)
  · exact .inr (.inr (.inr (.inl ⟨.inl rfl, PhaseEnds.result (s := s) hend _⟩)))

theorem fetch_seq {u : BitVec 8} {s t : State} (h : exec (.fetch u) s = .next t) :
    t.seq = s.seq ∨ SeqMove (.fetch u) s t := by
  obtain ⟨l, -, -, -, -, -, rfl⟩ := exec_fetch_eq_next h
  rcases Nat.lt_or_ge s.lineNext s.cfg.height with hrow | hrow
  · rw [claimStep_of_row l hrow, setLane_seq]
    exact .inl rfl
  · rw [claimStep_of_no_row l hrow]
    refine (tryAdvance_seq _).imp (·.trans (setLane_seq _ _ _)) fun hend => .inr (.inr (.inl ⟨.inr ⟨u, rfl⟩, ?_⟩))
    simpa only [PhaseEnds, setLane_seq, setLane_phase, setLane_phaseCount] using hend

/-! ### Every operation -/

theorem feedStep_seq {s t : State} (h : feedStep s = .next t) : t.seq = s.seq := by
  rcases feedStep_eq_next h with rfl | ⟨q, row, -, -, -, -, rfl⟩
  · simp only [deliverStarved, deliver, result_seq, flagError_seq]
  · simp only [deliver, result_seq, setQueue_seq]

/-- The stand-alone operations, which need the sequencer in `IDLE`, leave it there (R120). -/
theorem standAlone_seq {i : Instr} {s t : State} (hi : legalSeq i = some .idle) (hstart : i ≠ .updStart)
    (h : exec i s = .next t) : t.seq = s.seq := by
  cases i with
  | lb1p64k => obtain ⟨-, -, -, rfl⟩ := exec_lbOp_eq_next (l := .l1p64k) h; rfl
  | lb1p1k => obtain ⟨-, -, -, rfl⟩ := exec_lbOp_eq_next (l := .l1p1k) h; rfl
  | lb2p64k f => obtain ⟨-, -, -, rfl⟩ := exec_lbOp_eq_next (l := .l2p64k f) h; rfl
  | lb2p1k f => obtain ⟨-, -, -, rfl⟩ := exec_lbOp_eq_next (l := .l2p1k f) h; rfl
  | lb8p fw => obtain ⟨-, -, -, rfl⟩ := exec_lbOp_eq_next (l := .l8p fw) h; rfl
  | lbAuto => obtain ⟨-, -, ⟨e, -, rfl⟩ | ⟨l, -, -, rfl⟩⟩ := exec_lbAuto_eq_next h <;> rfl
  | pl1p64k => obtain ⟨-, -, -, row, -, -, rfl⟩ := exec_plOp_eq_next (l := .l1p64k) h; rfl
  | pl1p1k => obtain ⟨-, -, -, row, -, -, rfl⟩ := exec_plOp_eq_next (l := .l1p1k) h; rfl
  | pl2p64k => obtain ⟨-, -, -, row, -, -, rfl⟩ := exec_plOp_eq_next (l := .l2p64k 0) h; rfl
  | pl2p1k => obtain ⟨-, -, -, row, -, -, rfl⟩ := exec_plOp_eq_next (l := .l2p1k 0) h; rfl
  | pl8p => obtain ⟨-, -, -, row, -, -, rfl⟩ := exec_plOp_eq_next (l := .l8p false) h; rfl
  | plAuto => obtain ⟨-, -, ⟨e, -, rfl⟩ | ⟨l, -, -, row, -, -, rfl⟩⟩ := exec_plAuto_eq_next h <;> rfl
  | diff => obtain ⟨-, -, ⟨-, rfl⟩ | ⟨-, -, rfl⟩⟩ := exec_diff_eq_next h <;> rfl
  | lqCurrent u =>
    obtain ⟨q, v, -, -, rfl⟩ := exec_lqCurrent_eq_next h
    exact result_seq _ _
  | lqWrite u =>
    obtain ⟨q, -, -, -, ⟨-, rfl⟩ | ⟨-, -, rfl⟩⟩ := exec_lqWrite_eq_next h <;>
      simp only [result_seq, withProducer, setQueue_seq]
  | lqCommit u =>
    obtain ⟨q, row, -, -, -, -, -, rfl⟩ := exec_lqCommit_eq_next h
    simp only [result_seq, withProducer, setQueue_seq]
  | lqRead u =>
    obtain ⟨q, -, -, -, ⟨-, rfl⟩ | ⟨row, -, -, -, rfl⟩⟩ := exec_lqRead_eq_next h <;>
      simp only [result_seq, withConsumer, setQueue_seq]
  | lqReset u =>
    obtain ⟨q, -, -, -, -, rfl⟩ := exec_lqReset_eq_next h
    exact setQueue_seq _ _ _
  | maskBuild => obtain ⟨-, -, rfl⟩ := exec_maskBuild_eq_next h; rfl
  | updStart => exact absurd rfl hstart
  | nop => cases hi
  | fetch u => cases hi
  | feed => cases hi
  | prep => cases hi
  | frameDone => cases hi
  | updAck => cases hi

theorem exec_seq {i : Instr} {s t : State} (h : exec i s = .next t) : t.seq = s.seq ∨ SeqMove i s t := by
  by_cases halone : legalSeq i = some .idle ∧ i ≠ .updStart
  · exact .inl (standAlone_seq halone.1 halone.2 h)
  cases i with
  | nop =>
    obtain ⟨-, rfl⟩ := exec_nop_eq_next h
    exact .inl (result_seq _ _)
  | fetch u => exact fetch_seq h
  | feed =>
    obtain ⟨-, -, ⟨-, rfl⟩ | ⟨-, -, -, hstep⟩⟩ := exec_feed_eq_next h
    · exact .inl rfl
    · exact .inl ((feedStep_seq hstep).trans (by simp only [withConsumer, setQueue_seq]))
  | updStart => exact .inr (updStart_seqMove h)
  | prep =>
    obtain ⟨-, hs, l, -, -, rfl⟩ := exec_prep_eq_next h
    exact .inr (.inr (.inl ⟨rfl, hs, rfl⟩))
  | frameDone => exact frameDone_seq h
  | updAck =>
    obtain ⟨-, hs, rfl⟩ := exec_updAck_eq_next h
    exact .inr (.inr (.inr (.inr ⟨rfl, hs, rfl⟩)))
  | _ => exact absurd ⟨rfl, nofun⟩ halone

/-! ### The other inputs -/

theorem produceStep_seq {l : Lane} {s t : State} (h : produceStep l s = .next t) : t.seq = s.seq := by
  rcases produceStep_eq_next h with ⟨-, rfl⟩ | ⟨-, row, -, rfl⟩
  · exact setLane_seq _ _ _
  · rw [produced_eq, setLane_seq]

theorem writeOffset_seq {off : Nat} {v : Word} {s t : State} (h : writeOffset off v s = .next t) : t.seq = s.seq := by
  rcases writeOffset_eq_next h with
    rfl | rfl | ⟨-, ⟨o, rfl⟩ | rfl | rfl | rfl | rfl | ⟨y, b, rfl⟩ | ⟨j, b, rfl⟩⟩ <;> rfl

theorem quietStep_seq {s t : State} (h : quietStep s = .next t) : t.seq = s.seq := by
  rcases quietStep_eq_next h with ⟨l, -, hp⟩ | rfl
  · exact produceStep_seq hp
  · rfl

theorem handle_seq {e : Event} {s t : State} (h : handle e s = .next t) :
    t.seq = s.seq ∨ (e = .reset ∧ t.seq = .idle) ∨
      ∃ p addr w i, e = .portWrite addr 4 w ∧ commandPort (regOffset s.cfg addr) = some p ∧ decodeWord w = .ok i ∧
        SeqMove i s t := by
  cases e with
  | portWrite addr bytes w =>
    obtain ⟨rfl, ⟨p, i, hp, hi, hx⟩ | ⟨-, hw⟩⟩ := portWrite_eq_next h
    · exact (exec_seq hx).imp id fun hmove => .inr ⟨p, addr, w, i, rfl, hp, hi, hmove⟩
    · exact .inl (writeOffset_seq hw)
  | portRead addr bytes =>
    rw [readOffset_eq_next (require_eq_next.mp h).2]
    exact .inl rfl
  | produce l =>
    rcases scheduleLane_eq_next h with ⟨-, hp⟩ | ⟨-, rfl⟩
    · exact .inl (produceStep_seq hp)
    · exact .inl rfl
  | syncCur q =>
    cases h
    refine .inl ?_
    unfold syncCurStep
    split <;> simp only [setQueue_seq]
  | syncLast q =>
    cases h
    refine .inl ?_
    unfold syncLastStep
    split <;> simp only [setQueue_seq]
  | memStore addr b =>
    obtain ⟨-, h⟩ := require_eq_next.mp h
    cases h
    exact .inl rfl
  | reset =>
    cases h
    exact .inr (.inl ⟨rfl, rfl⟩)

/-- Settles O56: only a command moves the sequencer, along a transition of its operation. -/
theorem sequencerTransitions : Obligations.SequencerTransitions := by
  intro s t h
  rcases step_eq_next h with ⟨-, hquiet⟩ | ⟨e, rest, hin, he⟩
  · exact .inl (quietStep_seq hquiet)
  rcases handle_seq he with hkeep | ⟨rfl, hidle⟩ | ⟨p, addr, w, i, rfl, hp, hi, hmove⟩
  · exact .inl hkeep
  · exact .inr (.inl ⟨rest, hin, hidle⟩)
  · exact .inr (.inr ⟨p, addr, w, rest, i, hin, hp, hi, hmove⟩)

end Sys2Proof.Machine
end

section
/-! SUPPORT. In a good state neither `FEED` nor a produce step faults, and the selection of a layout does not fail during an
update (R228, R229, R236, R306). -/

namespace Sys2Proof.Machine

/-- The answer is a next state, or a refusal for another reason than a missing layout. -/
def Unfaulted (o : Out) : Prop := (∀ f, o ≠ .fault f) ∧ o ≠ .refused .noLayout

/-! ### What keeps an answer free of faults -/

theorem Unfaulted.next (t : State) : Unfaulted (.next t) := ⟨nofun, nofun⟩

theorem Unfaulted.refused {r : Refusal} (h : r ≠ .noLayout) : Unfaulted (.refused r) :=
  ⟨nofun, fun he => h (Host.Outcome.refused.inj he)⟩

theorem Unfaulted.unlessRefused {o : Option Refusal} {k : Out} (ho : ∀ r, o = some r → r ≠ .noLayout)
    (hk : Unfaulted k) : Unfaulted (unlessRefused o k) := by
  cases o with
  | none => exact hk
  | some r => exact .refused (ho r rfl)

/-- Legality refuses for its own reasons; past it the issuer and the sequencer state are known. -/
theorem Unfaulted.allowed {ports : List Port} {q : Seq} {s : State} {k : Out} (hk : s.seq = q → Unfaulted k) :
    Unfaulted (allowed ports q s k) := by
  unfold Machine.allowed onPorts
  cases ports.contains s.issuer with
  | false => exact .refused nofun
  | true =>
    cases issuerHeld s with
    | true => exact .refused nofun
    | false =>
      cases hq : s.seq == q with
      | false => exact .refused nofun
      | true => exact hk (beq_iff_eq.mp hq)

theorem Unfaulted.asConsumer {q : Lane} {s : State} {k : State → Out} (hk : Unfaulted (k (withConsumer q s))) :
    Unfaulted (asConsumer q s k) := by
  by_cases hc : mayConsume q s
  · rwa [asConsumer_of hc]
  · obtain ⟨hnone, hself⟩ := not_or.mp hc
    obtain ⟨p, hp⟩ := Option.ne_none_iff_exists'.mp hnone
    rw [asConsumer_other hp fun he => hself (he ▸ hp)]
    exact .refused nofun

theorem bufferRefusal_ne_noLayout {s : State} {reads writes : List Span} {r : Refusal}
    (h : bufferRefusal s reads writes = some r) : r ≠ .noLayout := by
  unfold bufferRefusal at h
  split_ifs at h <;> cases h <;> nofun

theorem buildRefusal_ne_noLayout {s : State} {l : Layout} {r : Refusal} (h : buildRefusal s l = some r) :
    r ≠ .noLayout := by
  unfold buildRefusal at h
  split_ifs at h
  · exact bufferRefusal_ne_noLayout h
  · cases h
    nofun

/-! ### What a good state has ready -/

/-- During an update a layout is selected (R236). -/
theorem exists_layout_of_good {s : State} (h : Good s) (hs : s.seq = .preparing ∨ s.seq = .transmitting) :
    ∃ l, selectLayout s.mode s.ctrl = .ok l := by
  have hupd : updating s = true := by rcases hs with hs | hs <;> simp [updating, hs]
  obtain ⟨-, hl, -⟩ := h.update hupd
  unfold hasLayout at hl
  cases hsel : selectLayout s.mode s.ctrl with
  | error e => simp [hsel, Except.toOption] at hl
  | ok l => exact ⟨l, rfl⟩

/-- The oldest row of a queue that is not empty stands in a written slot (R206). -/
theorem slotRead_last_isSome {c : Config} {x : Queue} (h : QueueOk c x) (he : queueEmpty c x = false) :
    ∃ row, slotRead x x.last = some row := by
  have ⟨⟨_, hlast, _, _⟩, _, hwritten⟩ := h
  have hrow := hwritten 0 (queueCount_pos_of_not_empty h he)
  rw [Nat.add_zero, Nat.mod_eq_of_lt hlast] at hrow
  exact Option.isSome_iff_exists.mp hrow

/-- With the layout's part of the `LUT` written, every active row can be rendered (R100, R306). -/
theorem exists_renderActive_of_good {s : State} (h : Good s) (hs : s.seq = .transmitting) {l : Layout}
    (hl : selectLayout s.mode s.ctrl = .ok l) (r : Nat) : ∃ row, renderActive s l r = some row := by
  have hlut : lutHolds s.lut (layoutSize l) (fun i => (lutRead s.lut i).getD 0#8) := fun i hi => by
    obtain ⟨b, hb⟩ := Option.isSome_iff_exists.mp (h.lut hs l hl i hi)
    simp only [hb, Option.getD_some]
  rw [renderActive, lookLayout_of_holds hlut]
  exact ⟨_, rfl⟩

/-! ### The operations -/

theorem feedStep_unfaulted {s : State} (h : Good s) : Unfaulted (feedStep s) := by
  unfold feedStep
  split
  · obtain ⟨q, hq⟩ := Option.isSome_iff_exists.mp (h.claimed s.linesConsumed ‹_›)
    rw [hq, need_some]
    split
    · exact .next _
    · obtain ⟨row, hrow⟩ := slotRead_last_isSome (h.lane q).ordered (Bool.eq_false_iff.mpr ‹_›)
      rw [deliverFrom, getQueue, hrow]
      exact .next _
  · exact .next _

theorem feed_unfaulted {s : State} (h : Good s) : Unfaulted (exec .feed s) := by
  refine Unfaulted.allowed fun _ => ?_
  split
  · exact .next _
  · exact .asConsumer (.asConsumer (feedStep_unfaulted ((h.withConsumer .zero).withConsumer .one)))

theorem renderRow_unfaulted {s : State} (h : Good s) (hs : s.seq = .transmitting) (r : Nat) {k : Row → Out}
    (hk : ∀ row, Unfaulted (k row)) : Unfaulted (renderRow s r k) := by
  cases hact : rowActive s r with
  | false =>
    rw [renderRow_of_inactive hact]
    exact hk _
  | true =>
    obtain ⟨l, hl⟩ := exists_layout_of_good h (.inr hs)
    obtain ⟨row, hrow⟩ := exists_renderActive_of_good h hs hl r
    rw [renderRow, if_pos hact, hl]
    simp only [hrow, need_some]
    exact .unlessRefused (fun _ => bufferRefusal_ne_noLayout) (hk row)

/-- A lane that can produce is busy, and so in a transmission (R240). -/
theorem scheduleLane_unfaulted {s : State} (h : Good s) (l : Lane) : Unfaulted (scheduleLane l s) := by
  unfold scheduleLane
  split
  · rename_i hen
    have hs : s.seq = .transmitting := ((h.lane l).busy (Bool.and_eq_true_iff.mp hen).1).2
    unfold produceStep
    split
    · exact .next _
    · exact renderRow_unfaulted h hs _ fun _ => .next _
  · exact .next _

theorem prep_unfaulted {s : State} (h : Good s) : Unfaulted (exec .prep s) := by
  refine Unfaulted.allowed fun hs => ?_
  obtain ⟨l, hl⟩ := exists_layout_of_good h (.inl hs)
  rw [hl]
  exact .unlessRefused (fun _ => buildRefusal_ne_noLayout) (.next _)

/-- Settles O60: `FEED`, the produce step and `PREP`, each answering in a good state as above. -/
theorem noFaultInUpdate : Obligations.NoFaultInUpdate := by
  intro s h
  have h := Good.of_inv h
  exact ⟨(feed_unfaulted h).1, fun l => (scheduleLane_unfaulted h l).1, fun l => (scheduleLane_unfaulted h l).2,
    (prep_unfaulted h).2⟩

end Sys2Proof.Machine
end

section
/-! SUPPORT. `ERROR` is sticky: every step only adds bits to it, but for the reset input and `UPD.START` (R262). -/

namespace Sys2Proof.Machine

/-! ### Adding bits to `ERROR` -/

/-- From `s` to `t` bits are added to `ERROR`, maybe none. -/
def ErrorGrows (s t : State) : Prop := ∃ e, t.error = s.error ||| e

theorem errorGrows_of_eq {s t : State} (h : t.error = s.error) : ErrorGrows s t :=
  ⟨0#32, h.trans BitVec.or_zero.symm⟩

/-- No bit is cleared where bits are added. -/
theorem ErrorGrows.cleared_eq_zero {s t : State} (h : ErrorGrows s t) : s.error &&& ~~~t.error = 0#32 := by
  obtain ⟨e, he⟩ := h
  rw [he, BitVec.not_or, ← BitVec.and_assoc, BitVec.and_not_self]
  exact BitVec.zero_and

/-! ### What keeps `ERROR` -/

@[simp] theorem withProducer_error (q : Lane) (s : State) : (withProducer q s).error = s.error :=
  setQueue_error _ _ _

@[simp] theorem withConsumer_error (q : Lane) (s : State) : (withConsumer q s).error = s.error :=
  setQueue_error _ _ _

@[simp] theorem tryAdvance_error (s : State) : (tryAdvance s).1.error = s.error := by
  rcases tryAdvance_cases s with h | ⟨-, h, -⟩ | ⟨-, -, -, h⟩ <;> rw [h]

theorem claimStep_error (l : Lane) (s : State) : (claimStep l (withProducer l s)).error = s.error := by
  rcases Nat.lt_or_ge s.lineNext s.cfg.height with hrow | hrow
  · rw [claimStep_of_row l hrow, setLane_error]
  · rw [claimStep_of_no_row l hrow, tryAdvance_error, setLane_error]

@[simp] theorem deliver_error (row : Row) (starved : Bool) (s : State) : (deliver row starved s).error = s.error :=
  result_error _ _

theorem produceStep_error {l : Lane} {s t : State} (h : produceStep l s = .next t) : t.error = s.error := by
  rcases produceStep_eq_next h with ⟨-, rfl⟩ | ⟨-, row, -, rfl⟩
  · exact setLane_error _ _ _
  · rw [produced_eq, setLane_error]

theorem quietStep_error {s t : State} (h : quietStep s = .next t) : t.error = s.error := by
  rcases quietStep_eq_next h with ⟨l, -, hp⟩ | rfl
  · exact produceStep_error hp
  · rfl

theorem syncCurStep_error (q : Lane) (s : State) : (syncCurStep q s).error = s.error := by
  unfold syncCurStep
  split <;> simp only [setQueue_error]

theorem syncLastStep_error (q : Lane) (s : State) : (syncLastStep q s).error = s.error := by
  unfold syncLastStep
  split <;> simp only [setQueue_error]

/-! ### The operations -/

/-- A starved delivery adds its error; a delivered row adds none (R227). -/
theorem feedStep_errorGrows {s t : State} (h : feedStep s = .next t) : ErrorGrows s t := by
  rcases feedStep_eq_next h with rfl | ⟨q, row, -, -, -, -, rfl⟩
  · exact ⟨errEmptyLineQueue, deliver_error _ _ _⟩
  · exact errorGrows_of_eq ((deliver_error _ _ _).trans (setQueue_error _ _ _))

theorem lbOp_errorGrows {l : Layout} {s t : State} (h : exec (lbOp l) s = .next t) : ErrorGrows s t := by
  obtain ⟨-, -, -, rfl⟩ := exec_lbOp_eq_next h
  exact errorGrows_of_eq rfl

theorem plOp_errorGrows {l : Layout} {s t : State} (h : exec (plOp l) s = .next t) : ErrorGrows s t := by
  obtain ⟨-, -, -, row, -, -, rfl⟩ := exec_plOp_eq_next h
  exact errorGrows_of_eq rfl

/-- A failed selection, an invalid crop and starvation add bits; no other operation but `UPD.START` writes `ERROR`. -/
theorem exec_errorGrows {i : Instr} {s t : State} (hi : i ≠ .updStart) (h : exec i s = .next t) : ErrorGrows s t := by
  cases i with
  | nop =>
    obtain ⟨-, rfl⟩ := exec_nop_eq_next h
    exact errorGrows_of_eq (result_error _ _)
  | lb1p64k => exact lbOp_errorGrows (l := .l1p64k) h
  | lb1p1k => exact lbOp_errorGrows (l := .l1p1k) h
  | lb2p64k f => exact lbOp_errorGrows (l := .l2p64k f) h
  | lb2p1k f => exact lbOp_errorGrows (l := .l2p1k f) h
  | lb8p fw => exact lbOp_errorGrows (l := .l8p fw) h
  | lbAuto =>
    obtain ⟨-, -, ⟨e, -, rfl⟩ | ⟨l, -, -, rfl⟩⟩ := exec_lbAuto_eq_next h
    · exact ⟨e, rfl⟩
    · exact errorGrows_of_eq rfl
  | pl1p64k => exact plOp_errorGrows (l := .l1p64k) h
  | pl1p1k => exact plOp_errorGrows (l := .l1p1k) h
  | pl2p64k => exact plOp_errorGrows (l := .l2p64k 0) h
  | pl2p1k => exact plOp_errorGrows (l := .l2p1k 0) h
  | pl8p => exact plOp_errorGrows (l := .l8p false) h
  | plAuto =>
    obtain ⟨-, -, ⟨e, -, rfl⟩ | ⟨l, -, -, row, -, -, rfl⟩⟩ := exec_plAuto_eq_next h
    · exact ⟨e, rfl⟩
    · exact errorGrows_of_eq rfl
  | diff =>
    obtain ⟨-, -, ⟨-, rfl⟩ | ⟨-, -, rfl⟩⟩ := exec_diff_eq_next h
    · exact ⟨errInvalidCrop, rfl⟩
    · exact errorGrows_of_eq rfl
  | lqCurrent u =>
    obtain ⟨q, v, -, -, rfl⟩ := exec_lqCurrent_eq_next h
    exact errorGrows_of_eq (result_error _ _)
  | lqWrite u =>
    obtain ⟨q, -, -, -, ⟨-, rfl⟩ | ⟨-, -, rfl⟩⟩ := exec_lqWrite_eq_next h <;> exact errorGrows_of_eq (by simp)
  | lqCommit u =>
    obtain ⟨q, row, -, -, -, -, -, rfl⟩ := exec_lqCommit_eq_next h
    exact errorGrows_of_eq (by simp)
  | lqRead u =>
    obtain ⟨q, -, -, -, ⟨-, rfl⟩ | ⟨row, -, -, -, rfl⟩⟩ := exec_lqRead_eq_next h <;> exact errorGrows_of_eq (by simp)
  | lqReset u =>
    obtain ⟨q, -, -, -, -, rfl⟩ := exec_lqReset_eq_next h
    exact errorGrows_of_eq (setQueue_error _ _ _)
  | fetch u =>
    obtain ⟨l, -, -, -, -, -, rfl⟩ := exec_fetch_eq_next h
    exact errorGrows_of_eq (claimStep_error l s)
  | feed =>
    obtain ⟨-, -, ⟨-, rfl⟩ | ⟨-, -, -, hstep⟩⟩ := exec_feed_eq_next h
    · exact errorGrows_of_eq rfl
    · simpa [ErrorGrows] using feedStep_errorGrows hstep
  | maskBuild =>
    obtain ⟨-, -, rfl⟩ := exec_maskBuild_eq_next h
    exact errorGrows_of_eq rfl
  | updStart => exact absurd rfl hi
  | prep =>
    obtain ⟨-, -, l, -, -, rfl⟩ := exec_prep_eq_next h
    exact errorGrows_of_eq rfl
  | frameDone =>
    obtain ⟨-, -, -, -, rfl⟩ := exec_frameDone_eq_next h
    exact errorGrows_of_eq ((result_error _ _).trans (tryAdvance_error _))
  | updAck =>
    obtain ⟨-, -, rfl⟩ := exec_updAck_eq_next h
    exact errorGrows_of_eq rfl

/-! ### The inputs -/

/-- A write of `ERROR` adds bits; a write of another register keeps it (R30, R262). -/
theorem writeOffset_errorGrows {off : Nat} {v : Word} {s t : State} (h : writeOffset off v s = .next t) :
    ErrorGrows s t := by
  rcases writeOffset_eq_next h with
    rfl | rfl | ⟨-, ⟨o, rfl⟩ | rfl | rfl | rfl | rfl | ⟨y, b, rfl⟩ | ⟨j, b, rfl⟩⟩
  case inr.inl => exact ⟨_, rfl⟩
  all_goals exact errorGrows_of_eq rfl

/-- `UPD.START` answers on the host's port alone, and to its one word (R112, R120). -/
theorem updStart_input {p : Port} {w : Word} {s t : State} (hw : decodeWord w = .ok .updStart)
    (h : exec .updStart { s with issuer := p } = .next t) : p = .host ∧ w = 0x60000000#32 :=
  ⟨(exec_updStart_eq_next h).1, ((decodeIffEncode w .updStart).mp hw).2.symm⟩

theorem handle_errorGrows {e : Event} {s t : State} (h : handle e s = .next t) :
    ErrorGrows s t ∨ e = .reset ∨
      ∃ addr, e = .portWrite addr 4 0x60000000#32 ∧ commandPort (regOffset s.cfg addr) = some .host := by
  cases e with
  | portWrite addr bytes w =>
    obtain ⟨rfl, ⟨p, i, hp, hi, hx⟩ | ⟨-, hw⟩⟩ := portWrite_eq_next h
    · rcases eq_or_ne i .updStart with rfl | hstart
      · obtain ⟨rfl, rfl⟩ := updStart_input hi hx
        exact .inr (.inr ⟨addr, rfl, hp⟩)
      · exact .inl (exec_errorGrows (s := { s with issuer := p }) hstart hx)
    · exact .inl (writeOffset_errorGrows hw)
  | portRead addr bytes =>
    rw [readOffset_eq_next (require_eq_next.mp h).2]
    exact .inl (errorGrows_of_eq rfl)
  | produce l =>
    rcases scheduleLane_eq_next h with ⟨-, hp⟩ | ⟨-, rfl⟩
    · exact .inl (errorGrows_of_eq (produceStep_error hp))
    · exact .inl (errorGrows_of_eq rfl)
  | syncCur q =>
    cases h
    exact .inl (errorGrows_of_eq (syncCurStep_error q s))
  | syncLast q =>
    cases h
    exact .inl (errorGrows_of_eq (syncLastStep_error q s))
  | memStore addr b =>
    obtain ⟨-, h⟩ := require_eq_next.mp h
    cases h
    exact .inl (errorGrows_of_eq rfl)
  | reset => exact .inr (.inl rfl)

/-- A write to `ERROR` sets the bits of the six causes that are in the word, in every state (R262). -/
theorem handle_write_error (s : State) (v : Word) :
    handle (registerEvent s.cfg 0x098 v) s = .next { s with error := s.error ||| (v &&& 0x5C3#32) } := by
  have hmask : errWritable = 0x5C3#32 := by decide
  rw [handle_registerEvent v (by decide) (by decide) (commandPort_eq_none (.inl (by decide))), ← hmask]
  rfl

/-- Settles O10: only `UPD.START`, and the reset input, do not merely add bits to `ERROR`. -/
theorem errorBitsSticky : Obligations.ErrorBitsSticky := by
  refine ⟨handle_write_error, fun s t h => ?_⟩
  rcases step_eq_next h with ⟨-, hquiet⟩ | ⟨e, rest, hin, he⟩
  · exact .inl (errorGrows_of_eq (quietStep_error hquiet)).cleared_eq_zero
  rcases handle_errorGrows he with hgrows | rfl | ⟨addr, rfl, hp⟩
  · exact .inl (ErrorGrows.cleared_eq_zero (s := s) hgrows)
  · exact .inr (.inl ⟨rest, hin⟩)
  · exact .inr (.inr ⟨addr, rest, hin, hp⟩)

end Sys2Proof.Machine
end

section
/-! SUPPORT. Writes without effect: the lock of the RW(idle) registers (R305), and the offsets that ignore writes
(R21, R37, R40, R43 to R45). -/

namespace Sys2Proof.Machine

/-! ### Locked registers (R21, R305) -/

theorem idleWrite_locked {s : State} (hs : s.seq = .preparing ∨ s.seq = .transmitting) (t : State) :
    idleWrite s t = .refused .registerLocked := by
  have hw : writable s = false := by rcases hs with hs | hs <;> rw [writable, hs] <;> rfl
  rw [idleWrite, hw, require_false]

/-- Every RW(idle) register writes through the lock (R22, R24 to R27). -/
theorem writeOffset_eq_idleWrite (s : State) (v : Word) {off : Nat} (ha : off % 4 = 0)
    (h : off < 0x04C ∨ (0x080 ≤ off ∧ off ≤ 0x08C)) : ∃ t, writeOffset off v s = idleWrite s t := by
  rcases h with h | h
  · exact ⟨_, if_pos h⟩
  · obtain rfl | rfl | rfl | rfl : off = 0x080 ∨ off = 0x084 ∨ off = 0x088 ∨ off = 0x08C := by omega
    all_goals exact ⟨_, rfl⟩

theorem handle_write_locked {s : State} (hs : s.seq = .preparing ∨ s.seq = .transmitting) (v : Word) {off : Nat}
    (ha : off % 4 = 0) (h : off < 0x04C ∨ (0x080 ≤ off ∧ off ≤ 0x08C)) :
    handle (registerEvent s.cfg off v) s = .refused .registerLocked := by
  obtain ⟨t, ht⟩ := writeOffset_eq_idleWrite s v ha h
  rw [handle_registerEvent v (by omega) ha (commandPort_eq_none (by omega)), ht, idleWrite_locked hs]

/-! ### Offsets that ignore writes (R21, R37; log 11) -/

/-- Outside every window no array has an element (R41 to R44). -/
theorem elementAt_eq_none {c : Config} {off : Nat} (h2 : c.height ≤ (off - 0x20000) / 4)
    (h3 : off < 0x30000 ∨ c.colBytes ≤ (off - 0x30000) / 4) (h4 : off < 0x40000 ∨ c.height ≤ (off - 0x40000) / 4)
    (h5 : off < 0x50000 ∨ c.lineBytes ≤ (off - 0x50000) / 4) : elementAt c off = none := by
  simp only [elementAt, inWindow_eq_false (.inr h2), inWindow_eq_false h3, inWindow_eq_false h4, inWindow_eq_false h5,
    Bool.false_eq_true, if_false]

/-- The offset is neither that of a register that takes writes nor, where the array windows lie, that of an
element. -/
theorem writeOffset_ignored {s : State} (v : Word) {off : Nat}
    (hreg : (0x04C ≤ off ∧ off < 0x080) ∨ (0x090 ≤ off ∧ off ≠ 0x098))
    (hel : 0x20000 ≤ off → off < 0x1000000 → elementAt s.cfg off = none) : writeOffset off v s = .next s := by
  rw [writeOffset, if_neg (by omega), if_neg (by omega), if_neg (by omega), if_neg (by omega), if_neg (by omega),
    if_neg (by omega)]
  by_cases hwin : 0x20000 ≤ off ∧ off < 0x1000000
  · rw [if_pos hwin, hel hwin.1 hwin.2]
  · rw [if_neg hwin]

/-- Through the port: moreover the offset is no command port's. -/
theorem handle_write_ignored {s : State} (v : Word) {off : Nat} (hlt : off < 2 ^ 32) (ha : off % 4 = 0)
    (hreg : (0x04C ≤ off ∧ off < 0x080) ∨ (0x090 ≤ off ∧ off ≠ 0x098)) (hport : off < 0x100 ∨ 0x110 ≤ off)
    (hel : 0x20000 ≤ off → off < 0x1000000 → elementAt s.cfg off = none) :
    handle (registerEvent s.cfg off v) s = .next s := by
  rw [handle_registerEvent v hlt ha (commandPort_eq_none hport), writeOffset_ignored v hreg hel]

theorem elementAt_of_unnamed {c : Config} {off : Nat} (h : offsetUnnamed c off) (hhi : off < 0x1000000) :
    elementAt c off = none := by
  rcases h with ⟨-, -, h2, h3, h4, h5⟩ | ⟨hlo, -⟩
  · exact elementAt_eq_none h2 h3 h4 h5
  · omega

/-- An offset that no rule names reads 0 (log 11). -/
theorem readOffset_unnamed {s : State} {off : Nat} (h : offsetUnnamed s.cfg off) :
    readOffset off s = .next { s with readData := 0#32 } := by
  rw [readOffset, if_neg (by omega), if_neg (by omega)]
  by_cases hhi : off < 0x1000000
  · rw [if_pos hhi, elementAt_of_unnamed h hhi]
    rfl
  · rw [if_neg hhi, if_neg (by omega), if_neg (by omega)]
    rfl

/-- Settles O9: the RW(idle) registers and elements are behind the lock, and what takes no write falls through the
cases of the port. -/
theorem writesWithoutEffect : Obligations.WritesWithoutEffect := by
  refine ⟨fun s v hs => ⟨fun off ha h => handle_write_locked hs v ha h, fun y hy => ?_, fun j hj => ?_⟩,
    fun s v => ⟨fun off ha h => ?_, fun r hr => ?_, fun i hi hm => ?_, fun off ha h => ⟨?_, ?_⟩⟩⟩
  · rw [handle_write_element v (by omega) (by omega) (by omega) (elementAt_line hy)]
    exact idleWrite_locked hs _
  · rw [handle_write_element v (by omega) (by omega) (by omega) (elementAt_col hj)]
    exact idleWrite_locked hs _
  · exact handle_write_ignored v (by omega) ha (by omega) (by omega) (by omega)
  · exact handle_write_element v (by omega) (by omega) (by omega) (elementAt_thread hr)
  · exact handle_write_element v (by omega) (by omega) (by omega) (elementAt_mask hm)
  · exact handle_write_ignored v (by omega) ha (by omega) (by omega) fun _ => elementAt_of_unnamed h
  · rw [handle_portRead (by omega) ha, readOffset_unnamed h]

end Sys2Proof.Machine
end
